-- ==== Sys2Proof/Word.lean ====
section
/-! DEFINITION. The byte and the bus word of PHYFEC (00_scope.md R14, 20_memory.md R65). -/

namespace Sys2Proof

/-- A byte has 8 bits (R14). -/
abbrev Byte := BitVec 8

/-- The bus carries a register as one 32-bit value (R65). -/
abbrev Word := BitVec 32

end Sys2Proof
end

