-- ==== Sys2Proof/Config.lean ====
section
/-! DEFINITION. What an implementation fixes (00_scope.md R7 to R13, 93_implementation_defined.md section 2):
the OPEN parameters as plain data, the shape of the STAR delegate, and the free value read while busy.
No value of any of them is a claim about the product (R13). -/

namespace Sys2Proof

/-- `HcsCfg` (R8): the header check sequence. -/
structure HcsCfg where
  /-- `HCS_POLY`, without the x^16 term. -/
  poly : BitVec 16
  /-- `HCS_SEED`. -/
  seed : BitVec 16
  /-- `HCS_REFIN`. -/
  refin : Bool
  /-- `HCS_REFOUT`. -/
  refout : Bool
  /-- `HCS_XOROUT`. -/
  xorout : BitVec 16
  /-- `HCS_BIG` (20_memory.md R64): most significant byte of the HCS at frame offset 3. -/
  big : Bool
  deriving DecidableEq, Repr

/-- `RSCfg` (41_rs_primitive.md R160): one Reed-Solomon code. -/
structure RsCfg where
  /-- Bits per symbol. -/
  m : Nat
  /-- `FIELD_POLY`: bit `m` set, bits above it clear. -/
  fieldPoly : Nat
  /-- Code length in symbols. -/
  n : Nat
  /-- Message length in symbols. -/
  k : Nat
  /-- `FCR`: first consecutive root exponent. -/
  fcr : Nat
  deriving DecidableEq, Repr

/-- A mode entry `{rs, cap_bits}` (R10). -/
structure ModeEntry where
  rs : RsCfg
  /-- Per-segment capacity in payload bits. -/
  capBits : Nat
  deriving DecidableEq, Repr

/-- One row of `ModeTable` (R10), as plain data: the first row whose mode matches, and whose
mode-parameters match (`none`: any), gives the entry; no row gives `none`. Every total function of
R10 is such a list (log entry 9). -/
structure ModeRow where
  mode : BitVec 4
  parm : Option (BitVec 8)
  entry : Option ModeEntry
  deriving DecidableEq, Repr

/-- `CNT_W` (R7): one of 8, 16, 32. -/
inductive CntWidth where
  | w8
  | w16
  | w32
  deriving DecidableEq, Repr

/-- `ThermCfg` (R12), in temperature units. -/
structure ThermCfg where
  /-- The size of one TU, as a numerator and a denominator in kelvins: OPEN, read by no rule of the
  block (R12; 93_implementation_defined.md section 2); not set in REFCFG. -/
  tuSize : Option (Nat × Nat)
  /-- `K_BYTE`, rise per transmitted byte. -/
  kByte : Nat
  /-- `K_MS`, rise per transmitted millisecond. -/
  kMs : Nat
  /-- `D_FAST`, decay per tick above the transition. -/
  dFast : Nat
  /-- `D_SLOW`, decay per tick otherwise. -/
  dSlow : Nat
  /-- `T_TRANS`. -/
  tTrans : Int
  /-- `T_LIMIT`. -/
  tLimit : Int
  /-- `T_RELEASE`. -/
  tRelease : Int
  /-- `TH_FAST`. -/
  thFast : Int
  /-- `TH_SLOW`. -/
  thSlow : Int
  /-- `MIN_BACKOFF`, in ticks. -/
  minBackoff : Nat
  deriving DecidableEq, Repr

/-- The configuration of one instance (R7 to R12). It never changes while the block runs
(10_state.md R49). -/
structure Cfg where
  /-- `BASE` (20_memory.md R61): the platform's address of the window; not set in REFCFG. -/
  base : Option Nat
  /-- `N_RX`, 1 to 8. -/
  nRx : Nat
  /-- `CNT_W`. -/
  cntW : CntWidth
  /-- `STAR_PRESENT`. -/
  starPresent : Bool
  /-- `TICK_MS`, positive: read by no rule of the block (R7); not set in REFCFG. -/
  tickMs : Option Nat
  hcs : HcsCfg
  /-- `HdrRS` (R9). -/
  hdrRs : RsCfg
  /-- `ModeTable` (R10). -/
  modeTable : List ModeRow
  therm : ThermCfg
  deriving DecidableEq, Repr

/-- The two STAR sub-formats: `FRAMING = 1` is `A`, `FRAMING = 2` is `B` (43_star_legacy.md R230). -/
inductive StarSub where
  | a
  | b
  deriving DecidableEq, Repr

/-- `StarCfg` (43_star_legacy.md R231). The checksum is given by its recurrence over nibbles, which
is the shape R234 requires: `star_cksum` folds `cksumStep gen` over the nibbles from `cksumInit`. -/
structure StarCfg where
  /-- `STAR_HDR_LEN(sub)`. -/
  hdrLen : StarSub → Nat
  /-- `star_hdr(sub, mode, mp, L)`. -/
  hdr : StarSub → BitVec 4 → BitVec 8 → Nat → Option (List Byte)
  /-- `star_len_of_hdr(sub, H)`. -/
  lenOfHdr : StarSub → List Byte → Option Nat
  /-- `STAR_GEN`. -/
  gen : BitVec 16
  /-- The checksum's initial value (R234). -/
  cksumInit : BitVec 16
  /-- The checksum's recurrence: generator, running value, nibble (R234). -/
  cksumStep : BitVec 16 → BitVec 16 → BitVec 4 → BitVec 16
  /-- `star_assemble(sub, H, P, ck)`. -/
  assemble : StarSub → List Byte → List Byte → BitVec 16 → List Byte
  /-- `star_disassemble(sub, U)`. -/
  disassemble : StarSub → List Byte → Option (List Byte × List Byte × BitVec 16)
  /-- `STAR_FEC_MASK`. -/
  fecMask : Byte
  /-- `STAR_FEC_LEN`. -/
  fecLen : Nat
  /-- `star_fec_apply(U)`. -/
  fecApply : List Byte → List Byte
  /-- `star_fec_remove(F)`. -/
  fecRemove : List Byte → Option (List Byte)

/-- The unspecified value that the `n`-th host read other than of `STATUS` returns while a command
runs (70_reset_and_hazards.md R352, 93_implementation_defined.md U5): nothing is known of it. -/
opaque Config.busyRead : Nat → Word

end Sys2Proof
end

