-- ==== Sys2Proof/Machine/Arith.lean ====
section
/-! DEFINITION. Arithmetic of the pseudocode (00_scope.md R16): over unbounded integers, narrowed
explicitly by saturation. -/

namespace Sys2Proof.Machine

/-- `HDR_SIZE = 8` bytes (00_scope.md R7, 30_encoding.md R91). -/
abbrev hdrSize : Nat := 8

/-- `FB_SIZE = 1024` bytes (R7). -/
abbrev fbSize : Nat := 1024

/-- `PB_SIZE = 256` bytes (R7). -/
abbrev pbSize : Nat := 256

/-- `sat_s32` (R16). -/
def satS32 (x : Int) : Int := max (-(2 ^ 31)) (min (2 ^ 31 - 1) x)

/-- `sat_u32` (R16). -/
def satU32 (x : Nat) : Nat := min (2 ^ 32 - 1) x

/-- `ceildiv` (R16). -/
def ceilDiv (a b : Nat) : Nat := (a + b - 1) / b

/-- The bits of `CNT_W` (R7). -/
def cntBits : CntWidth → Nat
  | .w8 => 8
  | .w16 => 16
  | .w32 => 32

/-- `satinc_W` (R16, 10_state.md R41) on a counter register. -/
def satInc (w : CntWidth) (c : Word) : Word :=
  if c.toNat = 2 ^ cntBits w - 1 then c else c + 1

/-- `w[CNT_W-1:0]`, what a host write stores in a counter (10_state.md R39, R40, R48). -/
def cntTrunc (w : CntWidth) (v : Word) : Word := BitVec.ofNat 32 (v.toNat % 2 ^ cntBits w)

end Sys2Proof.Machine
end

