-- ==== Sys2Proof/Machine/Bits.lean ====
section
/-! DEFINITION. Bit streams (00_scope.md R17, 20_memory.md R63): most significant bit first, zero
padding at the end. A Reed-Solomon symbol is a natural number below `2^m` (41_rs_primitive.md R161). -/

namespace Sys2Proof.Machine

/-- The `w` bits of a number, bit `w-1` first. -/
def natBits : Nat → Nat → List Bool
  | 0, _ => []
  | w + 1, v => v.testBit w :: natBits w v

/-- The number whose bits, most significant first, these are. -/
def bitsNat (X : List Bool) : Nat := X.foldl (fun a b => 2 * a + b.toNat) 0

/-- Append zero bits up to length `m` (R17). -/
def padTo (m : Nat) (X : List Bool) : List Bool := X ++ List.replicate (m - X.length) false

/-- The first `count` consecutive groups of `m` elements; the last may be shorter. -/
def chunks {α : Type} (m : Nat) : Nat → List α → List (List α)
  | 0, _ => []
  | count + 1, X => X.take m :: chunks m count (X.drop m)

/-- `bits(B)` (R17). -/
def bitsOf (B : List Byte) : List Bool := B.flatMap fun b => natBits 8 b.toNat

/-- `syms_m(X)` (R17). -/
def symsOf (m : Nat) (X : List Bool) : List Nat :=
  (chunks m (ceilDiv X.length m) X).map fun g => bitsNat (padTo m g)

/-- `symbits_m(S)` (R17). -/
def symBits (m : Nat) (S : List Nat) : List Bool := S.flatMap (natBits m)

/-- `bytes(X)` (R17). -/
def bytesOf (X : List Bool) : List Byte := (symsOf 8 X).map (BitVec.ofNat 8)

/-- `nibbles(P)` (43_star_legacy.md R233): the high nibble of each byte, then its low nibble. -/
def nibblesOf (P : List Byte) : List (BitVec 4) :=
  P.flatMap fun b => [b.extractLsb' 4 4, b.extractLsb' 0 4]

end Sys2Proof.Machine
end

