-- ==== Sys2Proof/Machine/Crc.lean ====
section
/-! DEFINITION. The header check sequence (40_header_codec.md R120; byte order 20_memory.md R64). -/

namespace Sys2Proof.Machine

/-- Reflection: bit `i` goes to bit `w-1-i` (R120 `reflect8`, `reflect16`). -/
def reflectBits {w : Nat} (v : BitVec w) : BitVec w := v.reverse

/-- One shift of the CRC register (R120, inner loop). -/
def crcShift (poly c : BitVec 16) : BitVec 16 :=
  if c.getLsbD 15 then (c <<< 1) ^^^ poly else c <<< 1

/-- `n` shifts. -/
def crcShifts (poly : BitVec 16) : Nat → BitVec 16 → BitVec 16
  | 0, c => c
  | n + 1, c => crcShifts poly n (crcShift poly c)

/-- The CRC register after one more byte (R120, outer loop). -/
def crcByte (h : HcsCfg) (c : BitVec 16) (b : Byte) : BitVec 16 :=
  let b := if h.refin then reflectBits b else b
  crcShifts h.poly 8 (c ^^^ (b.setWidth 16 <<< 8))

/-- `crc16(B)` (R120). -/
def crc16 (h : HcsCfg) (B : List Byte) : BitVec 16 :=
  let c := B.foldl (crcByte h) h.seed
  (if h.refout then reflectBits c else c) ^^^ h.xorout

/-- `hcs_store(c)` (R120, R64). -/
def hcsStore (h : HcsCfg) (c : BitVec 16) : List Byte :=
  if h.big then [c.extractLsb' 8 8, c.extractLsb' 0 8] else [c.extractLsb' 0 8, c.extractLsb' 8 8]

/-- `hcs_load(b3, b4)` (R120, R64). -/
def hcsLoad (h : HcsCfg) (b3 b4 : Byte) : BitVec 16 :=
  if h.big then b3 ++ b4 else b4 ++ b3

end Sys2Proof.Machine
end

