-- ==== Sys2Proof/Machine/Memory.lean ====
section
/-! DEFINITION. A byte buffer as a list of (index, byte) pairs in one canonical form (20_memory.md R60;
10_state.md R42, R43, R47). A byte that nothing has written is not listed and holds no value. -/

namespace Sys2Proof.Machine

/-- A buffer: the bytes that have been written, by index. -/
abbrev Memory := List Host.Cell

/-- What an unlisted index reads as: no value (R47, 93_implementation_defined.md U1). -/
def Memory.unlisted : Option Byte := none

/-- Read one byte (R15). -/
def Memory.read : Memory → Nat → Option Byte
  | [], _ => Memory.unlisted
  | (a, b) :: rest, i => if i = a then some b else Memory.read rest i

/-- Write one byte (R15), keeping the indices strictly rising. -/
def Memory.write : Memory → Nat → Byte → Memory
  | [], i, v => [(i, v)]
  | (a, b) :: rest, i, v =>
    if i < a then (i, v) :: (a, b) :: rest
    else if i = a then (i, v) :: rest
    else (a, b) :: Memory.write rest i v

/-- Write consecutive bytes from index `i`. -/
def Memory.writeBytes : Memory → Nat → List Byte → Memory
  | m, _, [] => m
  | m, i, b :: bs => Memory.writeBytes (Memory.write m i b) (i + 1) bs

/-- Read `n` consecutive bytes from index `i`, or the first index that nothing has written. -/
def Memory.readBytes (m : Memory) : Nat → Nat → Except Nat (List Byte)
  | _, 0 => .ok []
  | i, n + 1 =>
    match Memory.read m i with
    | none => .error i
    | some b =>
      match Memory.readBytes m (i + 1) n with
      | .error j => .error j
      | .ok bs => .ok (b :: bs)

/-- The canonical form: indices strictly rising. No entry can equal what an unlisted index reads as,
since an entry holds a byte. -/
abbrev Memory.wf (m : Memory) : Prop := m.Pairwise fun p q => p.1 < q.1

/-- Every listed index is below the buffer's size. -/
abbrev Memory.within (size : Nat) (m : Memory) : Prop := ∀ p ∈ m, p.1 < size

end Sys2Proof.Machine
end

