-- ==== Sys2Proof/Machine/Galois.lean ====
section
/-! DEFINITION. Field arithmetic of the Reed-Solomon codes (41_rs_primitive.md R161). A symbol is a
natural number below `2^m`, bit `i` the coefficient of `x^i`; addition is bitwise exclusive or. -/

namespace Sys2Proof.Machine

/-- Multiply by `x` and reduce: the two lines `a <- a << 1; if a[m] = 1 then a <- a xor FIELD_POLY`
of R161. -/
def gfDouble (c : RsCfg) (a : Nat) : Nat :=
  if (2 * a).testBit c.m then (2 * a) ^^^ c.fieldPoly else 2 * a

/-- The loop of `gfmul` (R161): `steps` rounds from the partial product `p`. -/
def gfMulLoop (c : RsCfg) : Nat → Nat → Nat → Nat → Nat
  | 0, p, _, _ => p
  | steps + 1, p, a, b =>
    gfMulLoop c steps (if b.testBit 0 then p ^^^ a else p) (gfDouble c a) (b / 2)

/-- `gfmul(a, b)` (R161). -/
def gfMul (c : RsCfg) (a b : Nat) : Nat := gfMulLoop c c.m 0 a b

/-- `alpha = 2` multiplied by itself `e` times. -/
def gfDoubles (c : RsCfg) : Nat → Nat
  | 0 => 1
  | e + 1 => gfDouble c (gfDoubles c e)

/-- The number of nonzero symbols, `2^m - 1`. -/
def RsCfg.order (c : RsCfg) : Nat := 2 ^ c.m - 1

/-- `alpha^e`, the exponent taken modulo `2^m - 1` (R161). -/
def gfAlpha (c : RsCfg) (e : Nat) : Nat := gfDoubles c (e % RsCfg.order c)

/-- `alpha^(-d)`. -/
def gfAlphaNeg (c : RsCfg) (d : Nat) : Nat := gfAlpha c (RsCfg.order c - d % RsCfg.order c)

/-- The product of the squares `a^2, a^4, ...`, `steps` of them. -/
def gfSquares (c : RsCfg) : Nat → Nat → Nat → Nat
  | 0, acc, _ => acc
  | steps + 1, acc, sq =>
    let sq' := gfMul c sq sq
    gfSquares c steps (gfMul c acc sq') sq'

/-- `gfinv(a)` for `a != 0` (R161), as `a^(2^m - 2)`. -/
def gfInv (c : RsCfg) (a : Nat) : Nat := gfSquares c (c.m - 1) 1 a

/-- No power `alpha^1 .. alpha^steps`, counted on from `a`, is 1. -/
def gfNoUnit (c : RsCfg) : Nat → Nat → Bool
  | 0, _ => true
  | steps + 1, a => let a' := gfDouble c a; a' != 1 && gfNoUnit c steps a'

/-- `FIELD_POLY` is a primitive polynomial of degree `m` (R160): bit `m` is its highest, and `alpha`
has order exactly `2^m - 1`. -/
def RsCfg.primitive (c : RsCfg) : Bool :=
  decide (2 ^ c.m ≤ c.fieldPoly ∧ c.fieldPoly < 2 ^ (c.m + 1)) &&
    gfNoUnit c (RsCfg.order c - 1) 1 && gfDoubles c (RsCfg.order c) == 1

end Sys2Proof.Machine
end

