-- ==== Sys2Proof/Machine/ReedSolomon.lean ====
section
/-! DEFINITION. `RSParity` and `RSDecode` (41_rs_primitive.md R162 to R168). The decoder is the
reference procedure of R168; R165 and R166 leave one function only, so any other procedure with
properties P1 to P3 is the same function (log entry 8). -/

namespace Sys2Proof.Machine

/-- `r = n - k` parity symbols per codeword (R160). -/
def RsCfg.par (c : RsCfg) : Nat := c.n - c.k

/-- `t = r div 2`, the guaranteed-correctable error count (R160). -/
def RsCfg.cap (c : RsCfg) : Nat := RsCfg.par c / 2

/-- Symbol-by-symbol sum of two lists; the shorter is padded with zeros at its end. -/
def xorLists : List Nat → List Nat → List Nat
  | [], ys => ys
  | x :: xs, [] => x :: xs
  | x :: xs, y :: ys => (x ^^^ y) :: xorLists xs ys

/-- Every coefficient times `a`. -/
def gfScale (c : RsCfg) (a : Nat) (xs : List Nat) : List Nat := xs.map (gfMul c a)

/-- Value at `x` of the polynomial whose coefficients are listed highest degree first (R162). -/
def evalHigh (c : RsCfg) (x : Nat) (w : List Nat) : Nat :=
  w.foldl (fun acc s => gfMul c acc x ^^^ s) 0

/-- Value at `x` of the polynomial whose coefficients are listed lowest degree first. -/
def evalLow (c : RsCfg) (x : Nat) (p : List Nat) : Nat :=
  p.foldr (fun s acc => s ^^^ gfMul c acc x) 0

/-- The product of the first `i` factors of the generator polynomial, highest degree first (R162). -/
def genPrefix (c : RsCfg) : Nat → List Nat
  | 0 => [1]
  | i + 1 =>
    let g := genPrefix c i
    xorLists (g ++ [0]) (0 :: gfScale c (gfAlpha c (c.fcr + i)) g)

/-- The generator polynomial `g(x)`, highest degree first (R162). -/
def generator (c : RsCfg) : List Nat := genPrefix c (RsCfg.par c)

/-- One step of the parity shift register (R163), `taps = g[1..r]`. -/
def parityStep (c : RsCfg) (taps rem : List Nat) (s : Nat) : List Nat :=
  xorLists (rem.tail ++ [0]) (gfScale c (s ^^^ rem.headD 0) taps)

/-- `RSParity(cfg, M)` (R163). -/
def rsParity (c : RsCfg) (M : List Nat) : List Nat :=
  M.foldl (parityStep c (generator c).tail) (List.replicate (RsCfg.par c) 0)

/-- The `r` syndromes of a word (R162): `c(alpha^(FCR+i))`, `i = 0 .. r-1`. -/
def syndromes (c : RsCfg) (w : List Nat) : List Nat :=
  (List.range (RsCfg.par c)).map fun i => evalHigh c (gfAlpha c (c.fcr + i)) w

/-- A word is a codeword exactly when its syndromes are all zero (R162). -/
def isCodeword (c : RsCfg) (w : List Nat) : Bool := (syndromes c w).all (· == 0)

/-- The state of the Berlekamp-Massey recurrence (R168 step 2). -/
structure BmState where
  /-- `Lambda`, lowest degree first. -/
  lam : List Nat
  /-- `Lambda` before the last length change. -/
  old : List Nat
  /-- The recurrence length `e`. -/
  len : Nat
  /-- Steps since the last length change. -/
  shift : Nat
  /-- The discrepancy at the last length change. -/
  disc : Nat
  deriving DecidableEq, Repr

/-- The discrepancy of the next syndrome `s` against those before it, latest first. -/
def bmDiscrepancy (c : RsCfg) (lam before : List Nat) (s : Nat) : Nat :=
  ((lam.tail.zip before).map fun p => gfMul c p.1 p.2).foldl (· ^^^ ·) s

/-- One step of the recurrence. -/
def bmStep (c : RsCfg) (b : BmState) (before : List Nat) (s : Nat) : BmState :=
  let d := bmDiscrepancy c b.lam before s
  if d = 0 then { b with shift := b.shift + 1 }
  else
    let lam' := xorLists b.lam
      (List.replicate b.shift 0 ++ gfScale c (gfMul c d (gfInv c b.disc)) b.old)
    if 2 * b.len ≤ before.length then
      { lam := lam', old := b.lam, len := before.length + 1 - b.len, shift := 1, disc := d }
    else { b with lam := lam', shift := b.shift + 1 }

/-- The recurrence run over the remaining syndromes. -/
def bmRun (c : RsCfg) : BmState → List Nat → List Nat → BmState
  | b, _, [] => b
  | b, before, s :: rest => bmRun c (bmStep c b before s) (s :: before) rest

/-- The shortest linear recurrence that generates the syndromes (R168 step 2). -/
def berlekampMassey (c : RsCfg) (S : List Nat) : BmState :=
  bmRun c { lam := [1], old := [1], len := 0, shift := 1, disc := 1 } [] S

/-- The transmitted positions `idx` with `Lambda(alpha^(-d)) = 0`, `d = N - 1 - idx` (R168 step 3). -/
def errorPositions (c : RsCfg) (lam : List Nat) (N : Nat) : List Nat :=
  (List.range N).filter fun idx => evalLow c (gfAlphaNeg c (N - 1 - idx)) lam == 0

/-- The first row whose leading coefficient is not zero, and the other rows. -/
def pickPivot : List (List Nat) → Option (List Nat × List (List Nat))
  | [] => none
  | row :: rows =>
    if row.headD 0 ≠ 0 then some (row, rows)
    else (pickPivot rows).map fun p => (p.1, row :: p.2)

/-- Subtract the multiple of the normalised pivot tail that clears a row's leading coefficient, and
drop that coefficient. -/
def clearLead (c : RsCfg) (pivotTail row : List Nat) : List Nat :=
  xorLists row.tail (gfScale c (row.headD 0) pivotTail)

/-- The value of the leading unknown from a normalised pivot row's tail (coefficients, then the right
side) and the values of the later unknowns. -/
def leadValue (c : RsCfg) (pivotTail vals : List Nat) : Nat :=
  ((pivotTail.zip vals).map fun p => gfMul c p.1 p.2).foldl (· ^^^ ·) (pivotTail.getLastD 0)

/-- Solve linear equations in `e` unknowns by elimination; each row lists its coefficients, then its
right side (R168 step 4). -/
def solveLinear (c : RsCfg) : Nat → List (List Nat) → Option (List Nat)
  | 0, _ => some []
  | e + 1, rows =>
    match pickPivot rows with
    | none => none
    | some (pivot, others) =>
      let tail := gfScale c (gfInv c (pivot.headD 0)) pivot.tail
      (solveLinear c e (others.map (clearLead c tail))).map fun vals =>
        leadValue c tail vals :: vals

/-- The equations `S_i = sum E_pos * (alpha^d_pos)^(FCR+i)`, `i = 0 .. e-1` (R168 step 4). -/
def errorEquations (c : RsCfg) (S pos : List Nat) (N : Nat) : List (List Nat) :=
  (List.range pos.length).map fun i =>
    (pos.map fun idx => gfAlpha c ((N - 1 - idx) * (c.fcr + i))) ++ [S.getD i 0]

/-- XOR each error value into the word at its position (R168 step 5). -/
def applyErrors : List Nat → List (Nat × Nat) → List Nat
  | w, [] => w
  | w, (idx, v) :: rest => applyErrors (w.set idx (w.getD idx 0 ^^^ v)) rest

/-- Steps 4 and 5 of R168, for the `e` positions found. -/
def rsCorrect (c : RsCfg) (R S pos : List Nat) : Option (List Nat) :=
  match solveLinear c pos.length (errorEquations c S pos R.length) with
  | none => none
  | some vals =>
    if vals.any (· == 0) then none
    else
      let C := applyErrors R (pos.zip vals)
      if isCodeword c C then some C else none

/-- `RSDecode(cfg, R)` (R165, R166) by the procedure of R168. `none` is `Fail`. -/
def rsDecode (c : RsCfg) (R : List Nat) : Option (List Nat) :=
  let S := syndromes c R
  if S.all (· == 0) then some R
  else
    let b := berlekampMassey c S
    if b.len > RsCfg.cap c then none
    else
      let pos := errorPositions c b.lam R.length
      if pos.length ≠ b.len then none else rsCorrect c R S pos

end Sys2Proof.Machine
end

