-- ==== Sys2Proof/Machine/RefCfg.lean ====
section
/-! DEFINITION. Which configurations are configurations of this hardware (00_scope.md R7 to R12,
40_header_codec.md R121, R122, 41_rs_primitive.md R160), and the reference configuration REFCFG
(R13), the spec's own choice for its test vectors. -/

namespace Sys2Proof.Machine

/-- The constraints on an `RSCfg` (R160). -/
abbrev RsCfg.Valid (c : RsCfg) : Prop :=
  2 ≤ c.m ∧ c.m ≤ 8 ∧ RsCfg.primitive c = true ∧ c.n ≤ RsCfg.order c ∧
    0 < c.k ∧ c.k < c.n ∧ c.fcr < RsCfg.order c

/-- The header code is (63,59) with 6-bit symbols (R9, 41_rs_primitive.md R171). -/
abbrev HdrRsValid (c : RsCfg) : Prop := c.m = 6 ∧ c.n = 63 ∧ c.k = 59 ∧ RsCfg.Valid c

/-- The constraints on a mode entry (R10). -/
abbrev ModeEntry.Valid (e : ModeEntry) : Prop :=
  RsCfg.Valid e.rs ∧ 1 ≤ e.capBits ∧ e.capBits ≤ e.rs.k * e.rs.m

/-- The constraints on `HcsCfg` (40_header_codec.md R121, R122). -/
abbrev HcsCfg.Valid (h : HcsCfg) : Prop := h.seed ≠ 0 ∧ h.seed ≠ 0xFFFF ∧ h.poly ≠ 0

/-- A temperature is held in 32 signed bits (44_thermal.md R250). -/
abbrev FitsS32 (x : Int) : Prop := -(2 ^ 31) ≤ x ∧ x < 2 ^ 31

/-- The constraints on `ThermCfg` (R12). -/
abbrev ThermCfg.Valid (t : ThermCfg) : Prop :=
  0 < t.dSlow ∧ t.dSlow ≤ t.dFast ∧ t.tRelease ≤ t.tLimit ∧ t.thSlow ≤ t.thFast ∧
    FitsS32 t.tTrans ∧ FitsS32 t.tLimit ∧ FitsS32 t.tRelease ∧ FitsS32 t.thFast ∧ FitsS32 t.thSlow

/-- A configuration of this hardware (R7 to R12; 93_implementation_defined.md section 2, which has
`TICK_MS` positive). `BASE` and the size of one TU have no constraint. -/
abbrev Cfg.Valid (c : Cfg) : Prop :=
  (1 ≤ c.nRx ∧ c.nRx ≤ 8) ∧ HcsCfg.Valid c.hcs ∧ HdrRsValid c.hdrRs ∧
    (∀ row ∈ c.modeTable, ∀ e ∈ row.entry, ModeEntry.Valid e) ∧ ThermCfg.Valid c.therm ∧
    ∀ ms ∈ c.tickMs, 0 < ms

/-- RS(63,59) over GF(2^6) of REFCFG (41_rs_primitive.md R170). -/
def rs63 : RsCfg := { m := 6, fieldPoly := 0x43, n := 63, k := 59, fcr := 1 }

/-- RS(255,239) over GF(2^8) of REFCFG (41_rs_primitive.md R170). -/
def rs239 : RsCfg := { m := 8, fieldPoly := 0x11D, n := 255, k := 239, fcr := 1 }

/-- RS(255,223) over GF(2^8) of REFCFG (41_rs_primitive.md R170). -/
def rs223 : RsCfg := { m := 8, fieldPoly := 0x11D, n := 255, k := 223, fcr := 1 }

/-- REFCFG (R13): the reference configuration. -/
def refcfg : Cfg where
  base := none
  nRx := 2
  cntW := .w16
  starPresent := false
  tickMs := none
  hcs := { poly := 0x1021, seed := 0x1D0F, refin := false, refout := false, xorout := 0, big := true }
  hdrRs := rs63
  modeTable := [
    { mode := 0, parm := none, entry := some { rs := rs63, capBits := 354 } },
    { mode := 1, parm := some 0, entry := some { rs := rs239, capBits := 1912 } },
    { mode := 1, parm := some 1, entry := some { rs := rs223, capBits := 1784 } }]
  therm := { tuSize := none, kByte := 3, kMs := 5, dFast := 40, dSlow := 10, tTrans := 6000, tLimit := 8000,
             tRelease := 8000, thFast := 6000, thSlow := 5000, minBackoff := 20 }

end Sys2Proof.Machine
end

