-- ==== Sys2Proof/Machine/State.lean ====
section
/-! DEFINITION. The state of PHYFEC as plain data (10_state.md R20 to R48), the reasons a step can stop,
and the state after reset (R47, 70_reset_and_hazards.md R340). -/

namespace Sys2Proof.Machine

/-- The nine result codes (60_exceptions.md R300); every other value of `CODE` is never produced. -/
inductive ResultCode where
  /-- `OK`, 0x00. -/
  | ok
  /-- `ERR_ILLCMD`, 0x01. -/
  | errIllcmd
  /-- `ERR_PARAM`, 0x02. -/
  | errParam
  /-- `ERR_MODE`, 0x03. -/
  | errMode
  /-- `ERR_LEN`, 0x04. -/
  | errLen
  /-- `ERR_HCS`, 0x10. -/
  | errHcs
  /-- `ERR_HPAR`, 0x11. -/
  | errHpar
  /-- `ERR_PLD`, 0x12. -/
  | errPld
  /-- `ERR_STAR`, 0x13. -/
  | errStar
  deriving DecidableEq, Repr

/-- The sequencer phase (R44). While busy it holds the command word as written (R302). -/
inductive Phase where
  | idle
  | busy (w : Word)
  deriving DecidableEq, Repr

/-- The stored fields of `STATUS` (R22). `BUSY` is the phase; `ERR` is a function of `CODE`. -/
structure Status where
  done : Bool
  ovr : Bool
  dirty : Bool
  engaged : Bool
  lenv : Bool
  code : ResultCode
  lastop : BitVec 8
  deriving DecidableEq, Repr

/-- The frame operand registers (R23 to R31). -/
structure FrameRegs where
  version : BitVec 4
  mode : BitVec 4
  modeparm : BitVec 8
  len : BitVec 8
  framing : BitVec 2
  rxlen : BitVec 11
  totlen : BitVec 11
  segcnt : BitVec 11
  maxpl : BitVec 8
  deriving DecidableEq, Repr

/-- The thermal registers (R33 to R39). `T_CTRL.ENGVAL` reads back `STATUS.ENGAGED` and
`T_CTRL.ENGLOAD` is a strobe, so `PROT_EN` is all that `T_CTRL` stores. -/
structure ThermalRegs where
  protEn : Bool
  vt : Word
  pendB : Word
  pendMs : Word
  sensed : Word
  txb : Word
  txms : Word
  backoff : Word
  engcnt : Word
  deriving DecidableEq, Repr

/-- The three failure counters of one receiver (R40). A counter is `CNT_W` bits wide; the bits above
are zero in every state of `State.Inv` (log entry 12). -/
structure RxCounters where
  hcs : Word
  hpar : Word
  pld : Word
  deriving DecidableEq, Repr

/-- The width of a host access (20_memory.md R66). -/
inductive Width where
  | byte
  | word
  /-- Any other width: no space accepts it. -/
  | other
  deriving DecidableEq, Repr

/-- A host access at an offset of the 4 KiB window (20_memory.md R61). A byte write stores the low
eight bits of its data. -/
inductive Access where
  | read (width : Width) (offset : BitVec 12)
  | write (width : Width) (offset : BitVec 12) (data : Word)
  deriving DecidableEq, Repr

/-- What happens next (log entry 2): the host makes an access, the engine gets a slot in which it
finishes the command in progress, or `rst` is applied (70_reset_and_hazards.md R340). -/
inductive Input where
  | access (a : Access)
  | engine
  | reset
  deriving DecidableEq, Repr

/-- The state of PHYFEC (R20), and four fields of the model's own: `cfg`, `inputs`, `rdata`,
`freeReads`. -/
structure State where
  /-- The model's own: the instance's configuration (R49), which no step changes (log entry 1). -/
  cfg : Cfg
  phase : Phase
  status : Status
  frame : FrameRegs
  irqen : BitVec 3
  thermal : ThermalRegs
  /-- `CNT.x[rx]`, one entry per receiver `rx < N_RX` (R40). -/
  counters : List RxCounters
  /-- `FB` (R42). -/
  fb : Memory
  /-- `PB` (R43). -/
  pb : Memory
  /-- The model's own: the host's accesses, resets and engine slots to come (log entry 2). -/
  inputs : List Input
  /-- The model's own: what the bus answered to the host's latest read (log entry 3). -/
  rdata : Option Word
  /-- The model's own: how many unspecified values have been read (log entry 4). -/
  freeReads : Nat
  deriving DecidableEq, Repr

/-- Why the machine stops. -/
inductive Fault where
  /-- A command or a host read reads `FB[index]`, which nothing has written since reset or `SRST`
  (93_implementation_defined.md U1). Raised by `State.withFb` and the host read. Safe: the spec leaves
  the value open and asks a model to fault. -/
  | unwrittenFb (index : Nat)
  /-- The same for `PB[index]`. Raised by `State.withPb` and the host read. Safe. -/
  | unwrittenPb (index : Nat)
  deriving DecidableEq, Repr

/-- Why the machine declines an instruction. -/
inductive Refusal where
  /-- The instruction has no meaning in the model. Raised by no arm of `exec`. Safe. -/
  | notModelled (mnemonic : String)
  deriving DecidableEq, Repr

/-- `STATUS` after reset (R47). -/
def statusReset : Status where
  done := false
  ovr := false
  dirty := false
  engaged := false
  lenv := false
  code := .ok
  lastop := 0

/-- The frame operand registers after reset (R47): all zero but `MAXPL = 0xFF`. -/
def frameReset : FrameRegs where
  version := 0
  mode := 0
  modeparm := 0
  len := 0
  framing := 0
  rxlen := 0
  totlen := 0
  segcnt := 0
  maxpl := 0xFF

/-- The thermal registers after reset (R47). -/
def thermalReset : ThermalRegs where
  protEn := false
  vt := 0
  pendB := 0
  pendMs := 0
  sensed := 0
  txb := 0
  txms := 0
  backoff := 0
  engcnt := 0

/-- Three counters at zero. -/
def countersZero : RxCounters where
  hcs := 0
  hpar := 0
  pld := 0

/-- The machine right after reset, in a given configuration (R47, R340). -/
def State.resetWith (cfg : Cfg) : State where
  cfg := cfg
  phase := .idle
  status := statusReset
  frame := frameReset
  irqen := 0
  thermal := thermalReset
  counters := List.replicate cfg.nRx countersZero
  fb := []
  pb := []
  inputs := []
  rdata := none
  freeReads := 0

/-- The machine right after reset. DESIGN CHOICE (log entry 1): the configuration it carries is REFCFG,
the spec's own reference (00_scope.md R13). -/
def State.reset : State := State.resetWith refcfg

end Sys2Proof.Machine
end

