-- ==== Sys2Proof/Machine/Flags.lean ====
section
/-! DEFINITION. Every flag of `STATUS` (10_state.md R22, R45): how each is read, set and cleared; the
failure counters and `DIRTY` (R40, R41); the engaged flag (44_thermal.md R257); and the interrupt line
(60_exceptions.md R310). -/

namespace Sys2Proof.Machine

/-- The byte of a result code (R300). -/
def ResultCode.byte : ResultCode → BitVec 8
  | .ok => 0x00
  | .errIllcmd => 0x01
  | .errParam => 0x02
  | .errMode => 0x03
  | .errLen => 0x04
  | .errHcs => 0x10
  | .errHpar => 0x11
  | .errPld => 0x12
  | .errStar => 0x13

/-- `BUSY`: 1 from command issue to command completion (R22, R44). -/
def State.busy (s : State) : Bool :=
  match s.phase with
  | .idle => false
  | .busy _ => true

/-- `ERR` equals `CODE != 0` (R22). -/
def State.err (s : State) : Bool := s.status.code.byte != 0

/-- `STATUS` as the bus reads it (R22). -/
def State.statusWord (s : State) : Word :=
  0#8 ++ s.status.lastop ++ s.status.code.byte ++
    (0#1 ++ BitVec.ofBool s.status.lenv ++ BitVec.ofBool s.status.engaged ++
      BitVec.ofBool s.status.dirty ++ BitVec.ofBool s.status.ovr ++ BitVec.ofBool s.err ++
      BitVec.ofBool s.status.done ++ BitVec.ofBool s.busy)

/-- The interrupt line (R310). -/
def State.irq (s : State) : Bool :=
  (s.status.done && s.irqen.getLsbD 0) || (s.status.dirty && s.irqen.getLsbD 1) ||
    (s.status.ovr && s.irqen.getLsbD 2)

/-- A refused or discarded host access sets `OVR` (20_memory.md R66, 70_reset_and_hazards.md R352). -/
def State.setOvr (s : State) : State := { s with status := { s.status with ovr := true } }

/-- `LENV <- 0` (R24 to R29). -/
def State.clearLenv (s : State) : State := { s with status := { s.status with lenv := false } }

/-- `set_len(Ok(S, TOT, e))` (42_payload_fec.md R194). -/
def State.setLenOk (s : State) (segs tot : Nat) : State :=
  { s with
    frame := { s.frame with segcnt := BitVec.ofNat 11 segs, totlen := BitVec.ofNat 11 tot }
    status := { s.status with lenv := true } }

/-- `set_len(Err)` (R194). -/
def State.setLenErr (s : State) : State :=
  { s with
    frame := { s.frame with segcnt := 0, totlen := 0 }
    status := { s.status with lenv := false } }

/-- The three kinds of failure counter (R40). -/
inductive CntKind where
  | hcs
  | hpar
  | pld
  deriving DecidableEq, Repr

/-- The counter of a kind. -/
def RxCounters.get (c : RxCounters) : CntKind → Word
  | .hcs => c.hcs
  | .hpar => c.hpar
  | .pld => c.pld

/-- Replace the counter of a kind. -/
def RxCounters.put (c : RxCounters) (k : CntKind) (v : Word) : RxCounters :=
  match k with
  | .hcs => { c with hcs := v }
  | .hpar => { c with hpar := v }
  | .pld => { c with pld := v }

/-- The counters of receiver `rx`. -/
def State.rxCounters (s : State) (rx : Nat) : RxCounters := s.counters.getD rx countersZero

/-- `CNT.k[rx]` (R40). -/
def State.counter (s : State) (k : CntKind) (rx : Nat) : Word := RxCounters.get (s.rxCounters rx) k

/-- Store in `CNT.k[rx]`; a receiver the instance does not have is no counter. -/
def State.setCounter (s : State) (k : CntKind) (rx : Nat) (v : Word) : State :=
  { s with counters := s.counters.set rx (RxCounters.put (s.rxCounters rx) k v) }

/-- `CNT.k[rx] <- satinc(CNT.k[rx])`, setting `DIRTY` if the value changed (R22, R41). -/
def State.countFailure (s : State) (k : CntKind) (rx : Nat) : State :=
  let old := s.counter k rx
  let new := satInc s.cfg.cntW old
  let s' := s.setCounter k rx new
  { s' with status := { s'.status with dirty := s'.status.dirty || new != old } }

/-- `over` of `eval_engaged` (R257). -/
def State.engageOver (s : State) : Bool :=
  s.thermal.protEn && decide (s.thermal.vt.toInt > s.cfg.therm.tLimit)

/-- `hold` of `eval_engaged` (R257). -/
def State.engageHold (s : State) : Bool :=
  s.thermal.protEn && s.status.engaged && decide (s.thermal.vt.toInt > s.cfg.therm.tRelease)

/-- `eval_engaged()` (R257). -/
def State.evalEngaged (s : State) : State :=
  let new := s.engageOver || s.engageHold
  { s with
    thermal :=
      { s.thermal with
        engcnt :=
          if new && !s.status.engaged then satInc s.cfg.cntW s.thermal.engcnt else s.thermal.engcnt }
    status :=
      { s.status with
        engaged := new
        dirty := s.status.dirty || new != s.status.engaged } }

end Sys2Proof.Machine
end

