-- ==== Sys2Proof/Machine/StarDelegate.lean ====
section
/-! DEFINITION. The STAR delegate as functions of its configuration (43_star_legacy.md R231 to R236,
R238), the constraints a model may assume of it (R232 to R235, R239; 10_state.md R43 of what
`SDEC` writes), and the delegate itself: one uninterpreted constant that satisfies them. D0 gives no value for any field of `StarCfg`. -/

namespace Sys2Proof.Machine

/-- `star_cksum(N)`: the recurrence folded over the nibbles (R231, R234). -/
def starCksum (sc : StarCfg) (N : List (BitVec 4)) : BitVec 16 :=
  N.foldl (sc.cksumStep sc.gen) sc.cksumInit

/-- `star_fec_on(H)`: the third header byte has the mask bits clear (R233). -/
def starFecOn (sc : StarCfg) (H : List Byte) : Bool := (H.getD 2 0 &&& sc.fecMask) == 0

/-- `star_encode(sub, mode, mp, P)` (R233). -/
def starEncode (sc : StarCfg) (sub : StarSub) (mode : BitVec 4) (mp : BitVec 8) (P : List Byte) :
    Option (List Byte) :=
  match sc.hdr sub mode mp P.length with
  | none => none
  | some H =>
    let U := sc.assemble sub H P (starCksum sc (nibblesOf P))
    some (if starFecOn sc H then sc.fecApply U else U)

/-- `star_txlen(sub, mode, mp, L)` (R233). -/
def starTxLen (sc : StarCfg) (sub : StarSub) (mode : BitVec 4) (mp : BitVec 8) (L : Nat) :
    Option Nat :=
  (starEncode sc sub mode mp (List.replicate L 0)).map List.length

/-- `TOT` of `SLEN` for header `H` and payload length `L` (R236). -/
def starFrameLen (sc : StarCfg) (sub : StarSub) (H : List Byte) (L : Nat) : Nat :=
  (sc.assemble sub H (List.replicate L 0) 0).length + if starFecOn sc H then sc.fecLen else 0

/-- What the delegate finds in a received frame (R238): the FEC fails, the structure or the checksum
is wrong, or a payload. -/
inductive StarRx where
  | fecFail
  | badFrame
  | payload (P : List Byte)
  deriving DecidableEq, Repr

/-- The structure and checksum test of unprotected bytes (R238). -/
def starOpen (sc : StarCfg) (sub : StarSub) (U : List Byte) : StarRx :=
  match sc.disassemble sub U with
  | none => .badFrame
  | some (_, P, ck) => if starCksum sc (nibblesOf P) = ck then .payload P else .badFrame

/-- FEC removal where the header asks for it, then the structure and checksum test (R238). -/
def starReceive (sc : StarCfg) (sub : StarSub) (H F : List Byte) : StarRx :=
  if starFecOn sc H then
    match sc.fecRemove F with
    | none => .fecFail
    | some U => starOpen sc sub U
  else starOpen sc sub F

/-- A nibble of a byte: the high one or the low one (00_scope.md R14). -/
def nibbleOf (high : Bool) (b : Byte) : BitVec 4 :=
  if high then b.extractLsb' 4 4 else b.extractLsb' 0 4

/-- R232: one sub-format reads its length from a nibble, the other from a byte, at different byte
offsets of the header. -/
def StarLenFields (sc : StarCfg) : Prop :=
  ∃ (subN subB : StarSub) (offN offB : Nat) (high : Bool)
    (readN : BitVec 4 → Option Nat) (readB : Byte → Option Nat),
    subN ≠ subB ∧ offN ≠ offB ∧
    (∀ H, H.length = sc.hdrLen subN → sc.lenOfHdr subN H = readN (nibbleOf high (H.getD offN 0))) ∧
    (∀ H, H.length = sc.hdrLen subB → sc.lenOfHdr subB H = readB (H.getD offB 0))

/-- `SDEC` with the received bytes `R` (`RXLEN` of them) comes to the payload `P` (R238): its header
reads as a length `L`, the frame of that length is all there, and it opens. -/
def StarDecodes (sc : StarCfg) (sub : StarSub) (R P : List Byte) : Prop :=
  let H := R.take (sc.hdrLen sub)
  ∃ L, sc.hdrLen sub ≤ R.length ∧ sc.lenOfHdr sub H = some L ∧ L ≤ 255 ∧
    starFrameLen sc sub H L ≤ R.length ∧
    starReceive sc sub H (R.take (starFrameLen sc sub H L)) = .payload P

/-- What a model may assume of `StarCfg`: R231's shapes, R232 to R235, R239's round trip, and
10_state.md R43 of the bytes that `SDEC` writes.

`decoded_le` is R43's "Index 255 is never read or written by a command", of the command whose payload
length the delegate gives: what `SDEC` decodes has at most 255 bytes. It says nothing of bytes that
`SDEC` does not come to a payload with (log entry 10). `assemble_length` is asked where R233 and R236
use a length that must not depend on the payload bytes or the checksum: of a header that encodes the
payload's length, of at most 255 bytes.

`roundTrip` says in terms of the delegate alone what R239 asks of the commands. DESIGN CHOICE (log
entry 10): R239 does not say how much of the frame `SDEC` is given, nor which combinations are valid;
the model takes `RXLEN` to be the length `SENC` gave, and every frame with which `SENC` completes with
`OK`. R235 leaves open what the FEC does to the header bytes, so the law assumes nothing of what the
first `STAR_HDR_LEN` bytes on the air read as, but that R238 comes to the payload with it: the length
`L` they give need not be the payload's, nor `TOT` the frame's. -/
structure StarLawful (sc : StarCfg) : Prop where
  hdrLen_ge : ∀ sub, 3 ≤ sc.hdrLen sub
  hdr_length : ∀ sub mode mp L H, sc.hdr sub mode mp L = some H → H.length = sc.hdrLen sub
  len_of_hdr : ∀ sub mode mp L H, sc.hdr sub mode mp L = some H → sc.lenOfHdr sub H = some L
  len_fields : StarLenFields sc
  fecMask_ne : sc.fecMask ≠ 0
  fecLen_pos : 0 < sc.fecLen
  disassemble_assemble : ∀ sub H P ck, H.length = sc.hdrLen sub → sc.lenOfHdr sub H = some P.length →
    P.length ≤ 255 → sc.disassemble sub (sc.assemble sub H P ck) = some (H, P, ck)
  decoded_le : ∀ sub R P, R.length ≤ fbSize → StarDecodes sc sub R P → P.length ≤ 255
  assemble_length : ∀ sub H P ck, H.length = sc.hdrLen sub → sc.lenOfHdr sub H = some P.length →
    P.length ≤ 255 →
    (sc.assemble sub H P ck).length = (sc.assemble sub H (List.replicate P.length 0) 0).length
  fecApply_length : ∀ U, (sc.fecApply U).length = U.length + sc.fecLen
  fecRemove_fecApply : ∀ U, sc.fecRemove (sc.fecApply U) = some U
  roundTrip : ∀ sub mode mp P F, P.length ≤ 255 → starEncode sc sub mode mp P = some F →
    F.length ≤ fbSize → StarDecodes sc sub F P

/-- A delegate that satisfies its constraints. -/
abbrev LawfulStar := { sc : StarCfg // StarLawful sc }

/-- Any delegate with the required properties, used ONLY to show that the constraints can be met. It
says nothing about the product: the model's delegate is the uninterpreted constant below. -/
def starWitness : StarCfg where
  hdrLen _ := 3
  hdr sub _ _ L :=
    match sub with
    | .a => if L ≤ 15 then some [0, BitVec.ofNat 8 L, 0] else none
    | .b => if L ≤ 255 then some [BitVec.ofNat 8 L, 0, 0] else none
  lenOfHdr sub H :=
    match sub with
    | .a => some ((H.getD 1 0).extractLsb' 0 4).toNat
    | .b => some (H.getD 0 0).toNat
  gen := 1
  cksumInit := 0
  cksumStep _ c n := c + n.setWidth 16
  assemble _ H P ck := H ++ P ++ [ck.extractLsb' 8 8, ck.extractLsb' 0 8]
  disassemble _ U :=
    if 5 ≤ U.length then
      some (U.take 3, (U.drop 3).take (U.length - 5),
        U.getD (U.length - 2) 0 ++ U.getD (U.length - 1) 0)
    else none
  fecMask := 0x80
  fecLen := 1
  fecApply U := U ++ [0]
  fecRemove F := if F = [] then none else some F.dropLast

theorem starWitness_join (ck : BitVec 16) : ck.extractLsb' 8 8 ++ ck.extractLsb' 0 8 = ck := by
  ext i hi
  simp only [BitVec.getElem_append, BitVec.getElem_extractLsb', Nat.zero_add]
  split
  · simp [BitVec.getLsbD_eq_getElem, hi]
  · rw [BitVec.getLsbD_eq_getElem (by omega)]; congr 1; omega

theorem starWitness_disassemble (sub : StarSub) (H P : List Byte) (ck : BitVec 16)
    (hH : H.length = 3) :
    starWitness.disassemble sub (starWitness.assemble sub H P ck) = some (H, P, ck) := by
  obtain ⟨a, b, c, rfl⟩ := List.length_eq_three.mp hH
  simp [starWitness, List.getD_eq_getElem?_getD, starWitness_join]

theorem starWitness_hdr (sub : StarSub) (mode : BitVec 4) (mp : BitVec 8) (L : Nat) (H : List Byte)
    (h : starWitness.hdr sub mode mp L = some H) :
    H.length = 3 ∧ starWitness.lenOfHdr sub H = some L ∧ starFecOn starWitness H = true := by
  cases sub <;> simp only [starWitness] at h <;> split at h <;> cases h <;>
    refine ⟨rfl, ?_, ?_⟩ <;> simp [starWitness, starFecOn] <;> omega

/-- A frame opens with a payload only where its bytes are taken apart into that payload (R238). -/
theorem starOpen_payload {sc : StarCfg} {sub : StarSub} {U P : List Byte}
    (h : starOpen sc sub U = .payload P) : ∃ H ck, sc.disassemble sub U = some (H, P, ck) := by
  unfold starOpen at h
  split at h
  · cases h
  · rename_i hd
    split at h <;> cases h
    exact ⟨_, _, hd⟩

/-- The payload of an opened frame is the frame without header and checksum. -/
theorem starWitness_open {sub : StarSub} {U P : List Byte}
    (h : starOpen starWitness sub U = .payload P) : P.length = U.length - 5 := by
  obtain ⟨H, ck, hd⟩ := starOpen_payload h
  simp only [starWitness] at hd
  split at hd <;> cases hd
  simp; omega

theorem starWitness_fecRemove {F U : List Byte} (h : starWitness.fecRemove F = some U) :
    U = F.dropLast := by
  simp only [starWitness] at h
  split at h <;> cases h
  rfl

/-- A payload received in a frame of the length its header gives has the length its header gives. -/
theorem starWitness_receive (sub : StarSub) {H R P : List Byte} {L : Nat} (hH : H.length = 3)
    (hT : starFrameLen starWitness sub H L ≤ R.length)
    (h : starReceive starWitness sub H (R.take (starFrameLen starWitness sub H L)) = .payload P) :
    P.length = L := by
  have hlen : starFrameLen starWitness sub H L =
      3 + L + 2 + if starFecOn starWitness H then 1 else 0 := by
    simp [starFrameLen, starWitness, hH]; omega
  unfold starReceive at h
  split at h
  · rename_i hF
    rw [if_pos hF] at hlen
    split at h
    · cases h
    · rename_i U hU
      rw [starWitness_open h, starWitness_fecRemove hU, List.length_dropLast, List.length_take,
        Nat.min_eq_left hT]
      omega
  · rename_i hF
    rw [if_neg hF] at hlen
    rw [starWitness_open h, List.length_take, Nat.min_eq_left hT]; omega

theorem starWitness_lawful : StarLawful starWitness where
  hdrLen_ge _ := Nat.le_refl 3
  hdr_length sub mode mp L H h := (starWitness_hdr sub mode mp L H h).1
  len_of_hdr sub mode mp L H h := (starWitness_hdr sub mode mp L H h).2.1
  len_fields :=
    ⟨.a, .b, 1, 0, false, fun n => some n.toNat, fun b => some b.toNat, by decide, by decide,
      fun _ _ => rfl, fun _ _ => rfl⟩
  fecMask_ne := by decide
  fecLen_pos := by decide
  disassemble_assemble sub H P ck hH _ _ := starWitness_disassemble sub H P ck hH
  decoded_le sub R P _ h := by
    obtain ⟨L, hn, -, hL, hT, hr⟩ := h
    have hH : (R.take (starWitness.hdrLen sub)).length = 3 := by
      rw [List.length_take]; exact Nat.min_eq_left hn
    exact (starWitness_receive sub hH hT hr).le.trans hL
  assemble_length sub H P ck _ _ _ := by simp [starWitness]
  fecApply_length U := by simp [starWitness]
  fecRemove_fecApply U := by simp [starWitness]
  roundTrip sub mode mp P F hP h _ := by
    unfold starEncode at h
    split at h
    · cases h
    · rename_i H hH
      obtain ⟨h3, hL, hF⟩ := starWitness_hdr _ _ _ _ _ hH
      simp only [hF, if_true, Option.some.injEq] at h
      have htake : F.take (starWitness.hdrLen sub) = H := by
        rw [← h]; obtain ⟨a, b, c, rfl⟩ := List.length_eq_three.mp h3; rfl
      have htot : starFrameLen starWitness sub H P.length = F.length := by
        rw [← h]; simp [starFrameLen, hF]; simp [starWitness]; omega
      simp only [StarDecodes, htake]
      refine ⟨P.length, ?_, hL, hP, htot.le, ?_⟩
      · rw [← h]; simp [starWitness, h3]
      · rw [htot, List.take_length]
        have : starWitness.fecRemove F = some (starWitness.assemble sub H P
            (starCksum starWitness (nibblesOf P))) := by rw [← h]; simp [starWitness]
        simp [starReceive, hF, this, starOpen, starWitness_disassemble sub H P _ h3]

/-- The delegate (R231, R239): an uninterpreted configuration of which only `StarLawful` is known.
The argument says that such a configuration exists; no value is chosen. -/
opaque Config.lawfulStar [Inhabited LawfulStar] : LawfulStar

/-- `StarCfg` of this instance. -/
def Config.star : StarCfg := (@Config.lawfulStar ⟨⟨starWitness, starWitness_lawful⟩⟩).val

/-- All that is known of the delegate. -/
theorem Config.star_lawful : StarLawful Config.star :=
  (@Config.lawfulStar ⟨⟨starWitness, starWitness_lawful⟩⟩).property

end Sys2Proof.Machine
end

