-- ==== Sys2Proof/Machine/Operands.lean ====
section
/-! DEFINITION. The operand forms of the commands: the `RX` field and `RXLEN` checks, `FRAMING`, the
mode lookup, the header's byte and symbol layout (30_encoding.md R92 to R94, 40_header_codec.md R123),
the segments of a payload (42_payload_fec.md R190 to R196) and the thermal operands (44_thermal.md
R251 to R258). -/

namespace Sys2Proof.Machine

/-- `RX >= N_RX or RXLEN > FB_SIZE`, the operand range check of the receive commands (60_exceptions.md
R300, R320). -/
def State.rxOutOfRange (s : State) (rx : Nat) : Bool :=
  decide (s.cfg.nRx ≤ rx) || decide (fbSize < s.frame.rxlen.toNat)

/-- The wire format `FRAMING` selects (10_state.md R27). -/
inductive Framing where
  | primary
  | star (sub : StarSub)
  | reserved
  deriving DecidableEq, Repr

/-- The values of `FRAMING` (R27). -/
def framingOf (f : BitVec 2) : Framing :=
  if f = 0 then .primary else if f = 1 then .star .a else if f = 2 then .star .b else .reserved

/-- `FRAMING` as `LENC`, `FENC` and `FDEC` read it (30_encoding.md R100): a STAR format without the
delegate is treated as value 3 is, `ERR_PARAM` (43_star_legacy.md R230). -/
def State.framingUsable (s : State) : Framing :=
  match framingOf s.frame.framing with
  | .primary => .primary
  | .star sub => if s.cfg.starPresent then .star sub else .reserved
  | .reserved => .reserved

/-- `entry(mode, mp) = ModeTable(mode, mp)` (R190) over the rows of the table. -/
def modeLookup : List ModeRow → BitVec 4 → BitVec 8 → Option ModeEntry
  | [], _, _ => none
  | row :: rows, mode, mp =>
    if row.mode = mode ∧ (row.parm = none ∨ row.parm = some mp) then row.entry
    else modeLookup rows mode mp

/-- `ModeTable(mode, mp)` of a configuration (R10, R190). -/
def modeEntry (c : Cfg) (mode : BitVec 4) (mp : BitVec 8) : Option ModeEntry :=
  modeLookup c.modeTable mode mp

/-- `PAR_BYTES` (R191). -/
def parBytes (e : ModeEntry) : Nat := ceilDiv (RsCfg.par e.rs * e.rs.m) 8

/-- The segment count `S` (R192). -/
def segCount (e : ModeEntry) (L : Nat) : Nat := ceilDiv (8 * L) e.capBits

/-- What `primary_len` finds: `Ok(S, TOT, e)` (R194). -/
structure FrameLen where
  segs : Nat
  tot : Nat
  entry : ModeEntry
  deriving DecidableEq, Repr

/-- `primary_len(mode, mp, L)` (R194). -/
def primaryLen (c : Cfg) (mode : BitVec 4) (mp : BitVec 8) (L : Nat) : Except ResultCode FrameLen :=
  match modeEntry c mode mp with
  | none => .error .errMode
  | some e =>
    let segs := segCount e L
    let tot := hdrSize + L + segs * parBytes e
    if tot > fbSize then .error .errLen else .ok { segs := segs, tot := tot, entry := e }

/-- The segments of a payload: runs of `CAP_BITS` bits, the last the remainder (R193). -/
def segments (e : ModeEntry) (P : List Byte) : List (List Bool) :=
  chunks e.capBits (segCount e P.length) (bitsOf P)

/-- The parity bytes of one segment (41_rs_primitive.md R169). -/
def segmentParity (rs : RsCfg) (seg : List Bool) : List Byte :=
  bytesOf (symBits rs.m (rsParity rs (symsOf rs.m seg)))

/-- `payload_encode`: the payload, then the parity of each segment in order (R196, 30_encoding.md
R95, R96). -/
def payloadEncode (e : ModeEntry) (P : List Byte) : List Byte :=
  P ++ (segments e P).flatMap (segmentParity e.rs)

/-- One segment of `payload_decode` (R196): `parity` is its `PAR_BYTES` bytes. -/
def segmentDecode (rs : RsCfg) (seg : List Bool) (parity : List Byte) : Option (List Bool) :=
  let M := symsOf rs.m seg
  let P := symsOf rs.m ((bitsOf parity).take (RsCfg.par rs * rs.m))
  match rsDecode rs (M ++ P) with
  | none => none
  | some R =>
    let Z := symBits rs.m (R.take M.length)
    if (Z.drop seg.length).any id then none else some (Z.take seg.length)

/-- The loop of `payload_decode` over the segments and the parity bytes (R196). -/
def segmentsDecode (e : ModeEntry) : List (List Bool) → List Byte → Option (List Bool)
  | [], _ => some []
  | seg :: segs, parity =>
    match segmentDecode e.rs seg (parity.take (parBytes e)) with
    | none => none
    | some Y => (segmentsDecode e segs (parity.drop (parBytes e))).map (Y ++ ·)

/-- `payload_decode(e, L)` on the bytes `FB[8 .. TOT-1]` (R196). -/
def payloadDecode (e : ModeEntry) (L : Nat) (B : List Byte) : Option (List Byte) :=
  (segmentsDecode e (segments e (B.take L)) (B.drop L)).map bytesOf

/-- `FB[0..2]` of a header (30_encoding.md R92). -/
def headerFields (f : FrameRegs) : List Byte := [f.version ++ f.mode, f.modeparm, f.len]

/-- `FB[3..4]` over `FB[0..2]` (R93, 40_header_codec.md R126). -/
def headerHcs (c : Cfg) (B : List Byte) : List Byte := hcsStore c.hcs (crc16 c.hcs (B.take 3))

/-- `hdr_data(H)`: seven symbols over `H[0..4]` (R123). -/
def hdrData (H : List Byte) : List Nat := symsOf 6 (bitsOf (H.take 5))

/-- `hdr_par(H)`: four symbols over `H[5..7]` (R123). -/
def hdrPar (H : List Byte) : List Nat := symsOf 6 (bitsOf ((H.drop 5).take 3))

/-- `FB[5..7]` over `FB[0..4]` (R94, R128). -/
def headerParity (c : Cfg) (B : List Byte) : List Byte :=
  bytesOf (symBits 6 (rsParity c.hdrRs (hdrData B)))

/-- The complete eight-byte header: fields, then HCS, then parity (R130). -/
def headerEncode (c : Cfg) (f : FrameRegs) : List Byte :=
  let fields := headerFields f
  let covered := fields ++ headerHcs c fields
  covered ++ headerParity c covered

/-- `hdr_correct(H)` (R129). -/
def hdrCorrect (c : Cfg) (H : List Byte) : Option (List Byte) :=
  match rsDecode c.hdrRs (hdrData H ++ hdrPar H) with
  | none => none
  | some r =>
    let X := symBits 6 (r.take 7)
    if X.getD 40 false || X.getD 41 false then none
    else some (bytesOf (X.take 40) ++ bytesOf (symBits 6 (r.drop 7)))

/-- `crc16(H[0..2]) = hcs_load(H[3], H[4])` (R127, R131). -/
def hcsMatches (c : Cfg) (H : List Byte) : Bool :=
  crc16 c.hcs (H.take 3) == hcsLoad c.hcs (H.getD 3 0) (H.getD 4 0)

/-- The header registers unpacked from header bytes (R92, R125, R131). -/
def unpackHeader (f : FrameRegs) (H : List Byte) : FrameRegs :=
  { f with
    version := (H.getD 0 0).extractLsb' 4 4
    mode := (H.getD 0 0).extractLsb' 0 4
    modeparm := H.getD 1 0
    len := H.getD 2 0 }

/-- The length of a received STAR frame from its header bytes (43_star_legacy.md R236): the payload
length and `TOT`. -/
def starRxLen (sc : StarCfg) (sub : StarSub) (H : List Byte) : Except ResultCode (Nat × Nat) :=
  match sc.lenOfHdr sub H with
  | none => .error .errMode
  | some L =>
    if L > 255 then .error .errMode
    else
      let tot := starFrameLen sc sub H L
      if tot > fbSize then .error .errLen else .ok (L, tot)

/-- `rise(b, ms)` (44_thermal.md R251). -/
def rise (t : ThermCfg) (b ms : Word) : Int := b.toNat * t.kByte + ms.toNat * t.kMs

/-- One tick of decay (R252): the regime is chosen from the temperature after the rise. -/
def decay (t : ThermCfg) (v : Int) : Int := if v > t.tTrans then t.dFast else t.dSlow

/-- `T_VT` after a tick (R254, R256): rise, decay, floor at the sensed temperature. -/
def tickVt (c : ThermCfg) (t : ThermalRegs) : Word :=
  let v1 := satS32 (t.vt.toInt + rise c t.pendB t.pendMs)
  let v2 := satS32 (v1 - decay c v1)
  BitVec.ofInt 32 (max v2 t.sensed.toInt)

/-- The projected post-frame temperature `tp` (R258). -/
def projected (c : ThermCfg) (t : ThermalRegs) : Int :=
  satS32 (t.vt.toInt + rise c t.pendB t.pendMs + rise c t.txb t.txms)

/-- The computed delay (R258): the part over each regime's threshold, divided by that regime's rate,
summed. -/
def delayOf (c : ThermCfg) (tp : Int) : Nat :=
  let xFast := (max 0 (tp - c.thFast)).toNat
  let xSlow := (max 0 (min tp c.thFast - c.thSlow)).toNat
  ceilDiv xFast c.dFast + ceilDiv xSlow c.dSlow

/-- `T_BACKOFF` (R258). -/
def backoffOf (s : State) : Word :=
  if s.thermal.protEn then
    let delay := delayOf s.cfg.therm (projected s.cfg.therm s.thermal)
    let delay := if s.status.engaged then max delay s.cfg.therm.minBackoff else delay
    BitVec.ofNat 32 (satU32 delay)
  else 0

/-- `sat_u32(pending + amount)` (R255). -/
def pendAdd (pending amount : Word) : Word := BitVec.ofNat 32 (satU32 (pending.toNat + amount.toNat))

end Sys2Proof.Machine
end

