-- ==== Sys2Proof/Machine/Ops.lean ====
section
/-! DEFINITION. The named operations the meanings are built of: buffer access (00_scope.md R15), the one
completion (60_exceptions.md R302) with the host's acknowledgement (R305), header and payload receive
(40_header_codec.md R131, 42_payload_fec.md R198, R200), the STAR pipeline (43_star_legacy.md R236 to
R238) and reset (70_reset_and_hazards.md R340). -/

namespace Sys2Proof.Machine

/-- What a step answers. -/
abbrev Result := Host.Outcome State Fault Refusal

/-- `complete(c)`, the one way every command ends, legal or not (R302): this block's taking of an
exception. `op` is `w[7:0]` of the command word. -/
def State.complete (s : State) (op : BitVec 8) (c : ResultCode) : State :=
  { s with
    phase := .idle
    status := { s.status with code := c, lastop := op, done := true } }

/-- The host's acknowledgement (R305), this block's only return: a write of `STATUS` clears exactly
the bits among `DONE`, `OVR`, `DIRTY` that it writes 1 to (10_state.md R22, 20_memory.md R73). -/
def State.acknowledge (s : State) (w : Word) : State :=
  { s with
    status :=
      { s.status with
        done := s.status.done && !w.getLsbD 1
        ovr := s.status.ovr && !w.getLsbD 3
        dirty := s.status.dirty && !w.getLsbD 4 } }

/-- Read `FB[i .. i+n-1]` (R15); a byte that nothing has written faults (U1). -/
def State.withFb (s : State) (i n : Nat) (k : List Byte → Result) : Result :=
  match Memory.readBytes s.fb i n with
  | .ok bs => k bs
  | .error j => .fault (.unwrittenFb j)

/-- Read `PB[0 .. n-1]` (R15); a byte that nothing has written faults (U1). -/
def State.withPb (s : State) (n : Nat) (k : List Byte → Result) : Result :=
  match Memory.readBytes s.pb 0 n with
  | .ok bs => k bs
  | .error j => .fault (.unwrittenPb j)

/-- Write `FB[i ..]` (R15). -/
def State.storeFb (s : State) (i : Nat) (bs : List Byte) : State :=
  { s with fb := Memory.writeBytes s.fb i bs }

/-- Write `PB[0 ..]` (R15). -/
def State.storePb (s : State) (bs : List Byte) : State :=
  { s with pb := Memory.writeBytes s.pb 0 bs }

/-- Unpack header bytes into `VERSION`, `MODE`, `MODEPARM`, `LEN` (40_header_codec.md R125). -/
def State.setHeader (s : State) (H : List Byte) : State :=
  { s with frame := unpackHeader s.frame H }

/-- `LEN <- L`. -/
def State.setLen (s : State) (L : Nat) : State :=
  { s with frame := { s.frame with len := BitVec.ofNat 8 L } }

/-- The receive-side header steps `HDEC` and `FDEC` share (40_header_codec.md R131, 42_payload_fec.md
R200): read `FB[0..7]`, correct a copy, check the HCS on it; a failure counts and completes. -/
def State.receiveHeader (s : State) (op : BitVec 8) (rx : Nat) (k : List Byte → Result) : Result :=
  s.withFb 0 8 fun B =>
    match hdrCorrect s.cfg B with
    | none => .next ((s.countFailure .hpar rx).complete op .errHpar)
    | some H =>
      if hcsMatches s.cfg H then k H else .next ((s.countFailure .hcs rx).complete op .errHcs)

/-- The length of the primary frame the registers describe (R194). -/
def State.frameLen (s : State) : Except ResultCode FrameLen :=
  primaryLen s.cfg s.frame.mode s.frame.modeparm s.frame.len.toNat

/-- The length computation that `LENC`, `PENC`, `PDEC`, `FENC` and `FDEC` share: `set_len(res)`, and
completion on an error (R194). -/
def State.withFrameLen (s : State) (op : BitVec 8) (k : FrameLen → State → Result) : Result :=
  match s.frameLen with
  | .error c => .next (s.setLenErr.complete op c)
  | .ok f => k f (s.setLenOk f.segs f.tot)

/-- The receive-side payload steps `PDEC` and `FDEC` share, from the length computation on (R198,
R200). -/
def State.receivePayload (s : State) (op : BitVec 8) (rx : Nat) : Result :=
  s.withFrameLen op fun f s =>
    if s.frame.rxlen.toNat < f.tot then .next (s.complete op .errLen)
    else
      s.withFb hdrSize (f.tot - hdrSize) fun B =>
        match payloadDecode f.entry s.frame.len.toNat B with
        | none => .next ((s.countFailure .pld rx).complete op .errPld)
        | some P => .next ((s.storePb P).complete op .ok)

/-- The transmit-side payload step `PENC` and `FENC` share: read `PB[0 .. LEN-1]`, write
`FB[8 .. TOT-1]` (R196). -/
def State.sendPayload (s : State) (op : BitVec 8) (e : ModeEntry) : Result :=
  s.withPb s.frame.len.toNat fun P =>
    .next ((s.storeFb hdrSize (payloadEncode e P)).complete op .ok)

/-- The steps of `SLEN` from "`sub <-`" on, which `SDEC` shares (43_star_legacy.md R236, R238): the
continuation gets the header bytes, `TOT`, and the state with `LEN`, `TOTLEN`, `SEGCNT`, `LENV` set. -/
def State.starLength (s : State) (op : BitVec 8) (sub : StarSub)
    (k : List Byte → Nat → State → Result) : Result :=
  if s.frame.rxlen.toNat < Config.star.hdrLen sub then .next (s.setLenErr.complete op .errLen)
  else
    s.withFb 0 (Config.star.hdrLen sub) fun H =>
      match starRxLen Config.star sub H with
      | .error c => .next (s.setLenErr.complete op c)
      | .ok (L, tot) => k H tot ((s.setLen L).setLenOk 0 tot)

/-- Transmit of a STAR frame, which `SENC` and `FENC` share (R237), once `FRAMING` has given `sub`. -/
def State.starSend (s : State) (op : BitVec 8) (sub : StarSub) : Result :=
  if s.frame.maxpl < s.frame.len then .next (s.complete op .errParam)
  else
    s.withPb s.frame.len.toNat fun P =>
      match starEncode Config.star sub s.frame.mode s.frame.modeparm P with
      | none => .next (s.setLenErr.complete op .errMode)
      | some F =>
        if F.length > fbSize then .next (s.setLenErr.complete op .errLen)
        else .next (((s.storeFb 0 F).setLenOk 0 F.length).complete op .ok)

/-- Receive of a STAR frame, which `SDEC` and `FDEC` share (R238), once the operand range checks have
passed. -/
def State.starRecv (s : State) (op : BitVec 8) (rx : Nat) (sub : StarSub) : Result :=
  s.starLength op sub fun H tot s =>
    if s.frame.rxlen.toNat < tot then .next (s.complete op .errLen)
    else
      s.withFb 0 tot fun F =>
        match starReceive Config.star sub H F with
        | .fecFail => .next ((s.countFailure .pld rx).complete op .errPld)
        | .badFrame => .next ((s.countFailure .pld rx).complete op .errStar)
        | .payload P => .next (((s.storePb P).setLen P.length).complete op .ok)

/-- Every register, counter and flag at its reset value, the phase `IDLE`, the buffers unwritten
(70_reset_and_hazards.md R340). The configuration and the model's own fields are not the block's. -/
def State.resetBlock (s : State) : State :=
  { State.resetWith s.cfg with inputs := s.inputs, rdata := s.rdata, freeReads := s.freeReads }

end Sys2Proof.Machine
end

