-- ==== Sys2Proof/Machine/Bus.lean ====
section
/-! DEFINITION. The host's window: the register map (10_state.md section 8), the address map
(20_memory.md R61), the access shapes (R66), and what reads and writes do while idle and while a
command runs (R67; 70_reset_and_hazards.md R352). -/

namespace Sys2Proof.Machine

/-- The registers of the map (10_state.md section 8). -/
inductive Reg where
  | cmd
  | status
  | version
  | mode
  | modeparm
  | len
  | framing
  | rxlen
  | totlen
  | segcnt
  | maxpl
  | irqen
  | tCtrl
  | tVt
  | tPendB
  | tPendMs
  | tSensed
  | tTxb
  | tTxms
  | tBackoff
  | tEngcnt
  | cnt (k : CntKind) (rx : Nat)
  deriving DecidableEq, Repr

/-- The counter at `0x80 + 0x10*rx + sub` (R40): offset `0xC` of a receiver is reserved. -/
def counterAt (nRx rx sub : Nat) : Option Reg :=
  if rx < nRx then
    match sub with
    | 0x0 => some (.cnt .hcs rx)
    | 0x4 => some (.cnt .hpar rx)
    | 0x8 => some (.cnt .pld rx)
    | _ => none
  else none

/-- The register at a byte offset of `REG` below the counters (10_state.md section 8). -/
def namedAt (offset : Nat) : Option Reg :=
  match offset with
  | 0x00 => some .cmd
  | 0x04 => some .status
  | 0x08 => some .version
  | 0x0C => some .mode
  | 0x10 => some .modeparm
  | 0x14 => some .len
  | 0x18 => some .framing
  | 0x1C => some .rxlen
  | 0x20 => some .totlen
  | 0x24 => some .segcnt
  | 0x28 => some .maxpl
  | 0x2C => some .irqen
  | 0x40 => some .tCtrl
  | 0x44 => some .tVt
  | 0x48 => some .tPendB
  | 0x4C => some .tPendMs
  | 0x50 => some .tSensed
  | 0x54 => some .tTxb
  | 0x58 => some .tTxms
  | 0x5C => some .tBackoff
  | 0x60 => some .tEngcnt
  | _ => none

/-- The register at a byte offset of `REG`; unassigned offsets, counters with `rx >= N_RX` among them,
are none (R48). -/
def regAt (nRx offset : Nat) : Option Reg :=
  if offset < 0x80 then namedAt offset
  else counterAt nRx ((offset - 0x80) / 0x10) ((offset - 0x80) % 0x10)

/-- What an offset of the window is (20_memory.md R61). -/
inductive Region where
  | reg (offset : Nat)
  | fb (index : Nat)
  | pb (index : Nat)
  | reserved
  deriving DecidableEq, Repr

/-- The address map (R61). -/
def regionOf (offset : BitVec 12) : Region :=
  let n := offset.toNat
  if n < 0x100 then .reg n
  else if n < 0x400 then .reserved
  else if n < 0x800 then .fb (n - 0x400)
  else if n < 0x900 then .pb (n - 0x800)
  else .reserved

/-- The offset in the window of a host address (R61), for an instance whose `BASE` is set. -/
def windowOffset (c : Cfg) (address : Nat) : Option (BitVec 12) :=
  match c.base with
  | none => none
  | some base =>
    if base ≤ address ∧ address < base + 0x1000 then some (BitVec.ofNat 12 (address - base)) else none

/-- The shape each space accepts (R66): `REG` aligned 32-bit words, the buffers bytes. A reserved
offset reads 0 and ignores writes (R61). DEDUCED, unsafe (log entry 11): it does so whatever the width,
since R66 names widths for `REG`, `FB` and `PB` only. -/
def shapeAccepted (width : Width) : Region → Bool
  | .reg offset => width == .word && offset % 4 == 0
  | .fb _ => width == .byte
  | .pb _ => width == .byte
  | .reserved => true

/-- What `T_CTRL` reads (R33): `PROT_EN`, 0 for the strobe, `STATUS.ENGAGED`. -/
def State.tCtrlWord (s : State) : Word :=
  0#29 ++ BitVec.ofBool s.status.engaged ++ 0#1 ++ BitVec.ofBool s.thermal.protEn

/-- A register read: the stored value, zero-extended (R48). `CMD` reads 0 (R21). -/
def State.readReg (s : State) : Reg → Word
  | .cmd => 0
  | .status => s.statusWord
  | .version => s.frame.version.setWidth 32
  | .mode => s.frame.mode.setWidth 32
  | .modeparm => s.frame.modeparm.setWidth 32
  | .len => s.frame.len.setWidth 32
  | .framing => s.frame.framing.setWidth 32
  | .rxlen => s.frame.rxlen.setWidth 32
  | .totlen => s.frame.totlen.setWidth 32
  | .segcnt => s.frame.segcnt.setWidth 32
  | .maxpl => s.frame.maxpl.setWidth 32
  | .irqen => s.irqen.setWidth 32
  | .tCtrl => s.tCtrlWord
  | .tVt => s.thermal.vt
  | .tPendB => s.thermal.pendB
  | .tPendMs => s.thermal.pendMs
  | .tSensed => s.thermal.sensed
  | .tTxb => s.thermal.txb
  | .tTxms => s.thermal.txms
  | .tBackoff => s.thermal.backoff
  | .tEngcnt => s.thermal.engcnt
  | .cnt k rx => s.counter k rx

/-- A write of `CMD` while idle issues the command (R21, R44): the phase becomes `BUSY`. -/
def State.issue (s : State) (w : Word) : State := { s with phase := .busy w }

/-- A write of `T_CTRL` (R33): `PROT_EN` is stored; the strobe `ENGLOAD` copies `ENGVAL` of the same
word into `STATUS.ENGAGED`. -/
def State.writeTCtrl (s : State) (w : Word) : State :=
  { s with
    thermal := { s.thermal with protEn := w.getLsbD 0 }
    status := { s.status with engaged := if w.getLsbD 1 then w.getLsbD 2 else s.status.engaged } }

/-- A register write while idle (R48, and each register's rule): the low `W` bits are stored; a write of
a read-only register is ignored. -/
def State.writeReg (s : State) (r : Reg) (w : Word) : State :=
  match r with
  | .cmd => s.issue w
  | .status => s.acknowledge w
  | .version => { s with frame := { s.frame with version := w.setWidth 4 } }
  | .mode => { s with frame := { s.frame with mode := w.setWidth 4 } }.clearLenv
  | .modeparm => { s with frame := { s.frame with modeparm := w.setWidth 8 } }.clearLenv
  | .len => { s with frame := { s.frame with len := w.setWidth 8 } }.clearLenv
  | .framing => { s with frame := { s.frame with framing := w.setWidth 2 } }.clearLenv
  | .rxlen => { s with frame := { s.frame with rxlen := w.setWidth 11 } }
  | .totlen => s
  | .segcnt => s
  | .maxpl => { s with frame := { s.frame with maxpl := w.setWidth 8 } }
  | .irqen => { s with irqen := w.setWidth 3 }
  | .tCtrl => s.writeTCtrl w
  | .tVt => { s with thermal := { s.thermal with vt := w } }
  | .tPendB => s
  | .tPendMs => s
  | .tSensed => { s with thermal := { s.thermal with sensed := w } }
  | .tTxb => { s with thermal := { s.thermal with txb := w } }
  | .tTxms => { s with thermal := { s.thermal with txms := w } }
  | .tBackoff => s
  | .tEngcnt => { s with thermal := { s.thermal with engcnt := cntTrunc s.cfg.cntW w } }
  | .cnt k rx => s.setCounter k rx (cntTrunc s.cfg.cntW w)

/-- The bus answers a host read. -/
def State.answer (s : State) (v : Word) : State := { s with rdata := some v }

/-- The bus answers a buffer read: the byte, zero-extended. -/
def State.answerByte (s : State) (v : Byte) : State := s.answer (v.setWidth 32)

/-- A host read of a well-shaped access while idle (R48, R61, R67). -/
def State.readIdle (s : State) : Region → Result
  | .reg offset =>
    match regAt s.cfg.nRx offset with
    | none => .next (s.answer 0)
    | some r => .next (s.answer (s.readReg r))
  | .fb i =>
    match Memory.read s.fb i with
    | none => .fault (.unwrittenFb i)
    | some b => .next (s.answerByte b)
  | .pb i =>
    match Memory.read s.pb i with
    | none => .fault (.unwrittenPb i)
    | some b => .next (s.answerByte b)
  | .reserved => .next (s.answer 0)

/-- A host read of a well-shaped access while a command runs (70_reset_and_hazards.md R352): `STATUS`
reads normally; anything else answers an unspecified value and sets no flag (U5). DESIGN CHOICE (log
entry 22): while busy this holds of a buffer byte that nothing has written too, where 10_state.md R47
has a host read fault, and of a reserved offset, where 20_memory.md R61 has a read answer 0. -/
def State.readBusy (s : State) (g : Region) : State :=
  if g = .reg 0x04 then s.answer s.statusWord
  else { s.answer (Config.busyRead s.freeReads) with freeReads := s.freeReads + 1 }

/-- A host read (R66: a refused one answers 0 and sets `OVR`). -/
def State.hostRead (s : State) (width : Width) (offset : BitVec 12) : Result :=
  let g := regionOf offset
  if shapeAccepted width g then
    match s.phase with
    | .idle => s.readIdle g
    | .busy _ => .next (s.readBusy g)
  else .next (s.setOvr.answer 0)

/-- A host write of a well-shaped access while idle (R48, R61, R67). -/
def State.writeIdle (s : State) (g : Region) (w : Word) : State :=
  match g with
  | .reg offset =>
    match regAt s.cfg.nRx offset with
    | none => s
    | some r => s.writeReg r w
  | .fb i => s.storeFb i [w.setWidth 8]
  | .pb i => { s with pb := Memory.write s.pb i (w.setWidth 8) }
  | .reserved => s

/-- A host write: while a command runs it is discarded and sets `OVR` (R352); a refused shape changes
nothing else and sets `OVR` (R66). DESIGN CHOICE (log entry 22): while busy this holds of a reserved
offset too, where R61 has a write set no flag. -/
def State.hostWrite (s : State) (width : Width) (offset : BitVec 12) (w : Word) : State :=
  match s.phase with
  | .busy _ => s.setOvr
  | .idle =>
    let g := regionOf offset
    if shapeAccepted width g then s.writeIdle g w else s.setOvr

/-- One host access. -/
def State.access (s : State) : Access → Result
  | .read width offset => s.hostRead width offset
  | .write width offset w => .next (s.hostWrite width offset w)

/-- The transmit backoff in milliseconds, `T_BACKOFF * TICK_MS` (44_thermal.md R260), where the
instance's `TICK_MS` is set: what the host computes, not the block. -/
def State.backoffMillis (s : State) : Option Nat :=
  s.cfg.tickMs.map fun ms => s.thermal.backoff.toNat * ms

end Sys2Proof.Machine
end

