-- ==== Sys2Proof/Syntax.lean ====
section
/-! DEFINITION. The 23 commands (30_encoding.md R103), one constructor per row of the opcode table.
`rx` is the `RX` field (a receiver index, 0 to 7) and `all` the `ALL` bit (R101, R102). -/

namespace Sys2Proof

/-- A command of PHYFEC. -/
inductive Instr where
  /-- `NOP` (R290). -/
  | nop
  /-- `HPACK` (R124). -/
  | hpack
  /-- `HUNPK` (R125). -/
  | hunpk
  /-- `HCSGEN` (R126). -/
  | hcsgen
  /-- `HCSCHK` (R127). -/
  | hcschk
  /-- `HPARGEN` (R128). -/
  | hpargen
  /-- `HPARDEC` (R129). -/
  | hpardec
  /-- `HENC` (R130). -/
  | henc
  /-- `HDEC rx` (R131). -/
  | hdec (rx : Nat)
  /-- `LENC` (R195). -/
  | lenc
  /-- `PENC` (R197). -/
  | penc
  /-- `PDEC rx` (R198). -/
  | pdec (rx : Nat)
  /-- `FENC` (R199). -/
  | fenc
  /-- `FDEC rx` (R200). -/
  | fdec (rx : Nat)
  /-- `SLEN` (R236). -/
  | slen
  /-- `SENC` (R237). -/
  | senc
  /-- `SDEC rx` (R238). -/
  | sdec (rx : Nat)
  /-- `TTXD` (R255). -/
  | ttxd
  /-- `TTICK` (R256). -/
  | ttick
  /-- `TBKOF` (R258). -/
  | tbkof
  /-- `TCLR` (R259). -/
  | tclr
  /-- `CLRCNT rx` or `CLRCNT all` (R291). -/
  | clrcnt (rx : Nat) (all : Bool)
  /-- `SRST` (R292). -/
  | srst
  deriving DecidableEq, Repr

end Sys2Proof
end

