-- ==== Sys2Proof/WellFormed.lean ====
section
/-! DEFINITION. Well-formed commands: the `RX` field has three bits (30_encoding.md R101). -/

namespace Sys2Proof

/-- A receiver index the `RX` field `w[10:8]` can hold (R101). -/
abbrev RxFits (rx : Nat) : Prop := rx < 8

/-- The operands of a command fit their fields (R101, R102). `RX < N_RX` is not part of it: a larger
`RX` is a parameter error of the command, not an ill-formed word (R104). -/
abbrev Instr.WellFormed : Instr → Prop
  | .hdec rx => RxFits rx
  | .pdec rx => RxFits rx
  | .fdec rx => RxFits rx
  | .sdec rx => RxFits rx
  | .clrcnt rx _ => RxFits rx
  | .nop | .hpack | .hunpk | .hcsgen | .hcschk | .hpargen | .hpardec | .henc
  | .lenc | .penc | .fenc | .slen | .senc
  | .ttxd | .ttick | .tbkof | .tclr | .srst => True

end Sys2Proof
end

