-- ==== Sys2Proof/Decode.lean ====
section
/-! DEFINITION. The command word (30_encoding.md R101 to R105): decoding, total on every 32-bit word
and rejecting by name, and the encoder. -/

namespace Sys2Proof

/-- Why a word is no command (30_encoding.md R104). Whether the STAR delegate is present is a matter
of the configuration: `SLEN`, `SENC` and `SDEC` decode, and their meanings complete with
`ERR_ILLCMD` when it is absent. -/
inductive DecodeError where
  /-- `OP` is not one of the 23 opcodes of R103. -/
  | unknownOpcode (op : BitVec 8)
  /-- `w[31:12] != 0`. -/
  | reservedBits
  /-- The command does not use `RX`, and it is nonzero. -/
  | unusedRx
  /-- The command does not use `ALL`, and it is nonzero. -/
  | unusedAll
  deriving DecidableEq, Repr

/-- `w[7:0] = OP` (R101). -/
def wordOp (w : Word) : BitVec 8 := w.extractLsb' 0 8

/-- `w[10:8] = RX` (R101). -/
def wordRx (w : Word) : BitVec 3 := w.extractLsb' 8 3

/-- `w[11] = ALL` (R101). -/
def wordAll (w : Word) : Bool := w.getLsbD 11

/-- `w[31:12]`, reserved (R101). -/
def wordReserved (w : Word) : BitVec 20 := w.extractLsb' 12 20

/-- A command that uses neither field (R102). -/
def decodePlain (w : Word) (i : Instr) : Except DecodeError Instr :=
  if wordRx w ≠ 0 then .error .unusedRx
  else if wordAll w = true then .error .unusedAll
  else .ok i

/-- A command that uses `RX` only (R102). -/
def decodeRx (w : Word) (f : Nat → Instr) : Except DecodeError Instr :=
  if wordAll w = true then .error .unusedAll else .ok (f (wordRx w).toNat)

/-- The opcode map (R103). -/
def decodeOp (w : Word) : Except DecodeError Instr :=
  match (wordOp w).toNat with
  | 0x00 => decodePlain w .nop
  | 0x01 => decodePlain w .hpack
  | 0x02 => decodePlain w .hunpk
  | 0x03 => decodePlain w .hcsgen
  | 0x04 => decodePlain w .hcschk
  | 0x05 => decodePlain w .hpargen
  | 0x06 => decodePlain w .hpardec
  | 0x07 => decodePlain w .henc
  | 0x08 => decodeRx w .hdec
  | 0x10 => decodePlain w .lenc
  | 0x11 => decodePlain w .penc
  | 0x12 => decodeRx w .pdec
  | 0x13 => decodePlain w .fenc
  | 0x14 => decodeRx w .fdec
  | 0x20 => decodePlain w .slen
  | 0x21 => decodePlain w .senc
  | 0x22 => decodeRx w .sdec
  | 0x30 => decodePlain w .ttxd
  | 0x31 => decodePlain w .ttick
  | 0x32 => decodePlain w .tbkof
  | 0x33 => decodePlain w .tclr
  | 0x3E => .ok (.clrcnt (wordRx w).toNat (wordAll w))
  | 0x3F => decodePlain w .srst
  | _ => .error (.unknownOpcode (wordOp w))

/-- Every 32-bit word is exactly one command with its fields, or illegal (R104, R105). -/
def decode (w : Word) : Except DecodeError Instr :=
  if wordReserved w ≠ 0 then .error .reservedBits else decodeOp w

/-- The opcode of each command (R103). It is also what `STATUS.LASTOP` receives (60_exceptions.md
R302), since `w[7:0]` of a command's word is its opcode. -/
def Instr.opcode : Instr → BitVec 8
  | .nop => 0x00
  | .hpack => 0x01
  | .hunpk => 0x02
  | .hcsgen => 0x03
  | .hcschk => 0x04
  | .hpargen => 0x05
  | .hpardec => 0x06
  | .henc => 0x07
  | .hdec _ => 0x08
  | .lenc => 0x10
  | .penc => 0x11
  | .pdec _ => 0x12
  | .fenc => 0x13
  | .fdec _ => 0x14
  | .slen => 0x20
  | .senc => 0x21
  | .sdec _ => 0x22
  | .ttxd => 0x30
  | .ttick => 0x31
  | .tbkof => 0x32
  | .tclr => 0x33
  | .clrcnt _ _ => 0x3E
  | .srst => 0x3F

/-- The `RX` field of a command, zero where it is not used (R102). -/
def Instr.rxField : Instr → BitVec 3
  | .hdec rx | .pdec rx | .fdec rx | .sdec rx | .clrcnt rx _ => BitVec.ofNat 3 rx
  | .nop | .hpack | .hunpk | .hcsgen | .hcschk | .hpargen | .hpardec | .henc
  | .lenc | .penc | .fenc | .slen | .senc
  | .ttxd | .ttick | .tbkof | .tclr | .srst => 0

/-- The `ALL` bit of a command, zero where it is not used (R102). -/
def Instr.allField : Instr → Bool
  | .clrcnt _ all => all
  | .nop | .hpack | .hunpk | .hcsgen | .hcschk | .hpargen | .hpardec | .henc | .hdec _
  | .lenc | .penc | .pdec _ | .fenc | .fdec _ | .slen | .senc | .sdec _
  | .ttxd | .ttick | .tbkof | .tclr | .srst => false

/-- The word of a command, written from format `C` (R101): reserved, `ALL`, `RX`, `OP`. -/
def encode (i : Instr) : Word :=
  0#20 ++ BitVec.ofBool i.allField ++ i.rxField ++ i.opcode

/-- The instruction the decoder reads from the table's word `w` of `nbits` bits: the one 32-bit word,
with every bit from `nbits` on zero. The bus carries it as one value (20_memory.md R65), so no byte
order enters. A table row longer than a command word is no command. -/
def decodeTableWord (nbits w : Nat) : Option Instr :=
  if nbits ≤ 32 then (decode (BitVec.ofNat 32 (w % 2 ^ nbits))).toOption else none

end Sys2Proof
end

