-- ==== Sys2Proof/Machine/Header.lean ====
section
/-! DEFINITION. The header codec commands (40_header_codec.md R124 to R131). -/

namespace Sys2Proof.Machine

/-- `HPACK` (R124). -/
def execHpack (s : State) : Result :=
  .next ((s.storeFb 0 (headerFields s.frame)).complete Instr.hpack.opcode .ok)

/-- `HUNPK` (R125). -/
def execHunpk (s : State) : Result :=
  s.withFb 0 3 fun B => .next (((s.setHeader B).clearLenv).complete Instr.hunpk.opcode .ok)

/-- `HCSGEN` (R126). -/
def execHcsgen (s : State) : Result :=
  s.withFb 0 3 fun B =>
    .next ((s.storeFb 3 (headerHcs s.cfg B)).complete Instr.hcsgen.opcode .ok)

/-- `HCSCHK` (R127). -/
def execHcschk (s : State) : Result :=
  s.withFb 0 5 fun B =>
    .next (s.complete Instr.hcschk.opcode (if hcsMatches s.cfg B then .ok else .errHcs))

/-- `HPARGEN` (R128). -/
def execHpargen (s : State) : Result :=
  s.withFb 0 5 fun B =>
    .next ((s.storeFb 5 (headerParity s.cfg B)).complete Instr.hpargen.opcode .ok)

/-- `HPARDEC` (R129). -/
def execHpardec (s : State) : Result :=
  s.withFb 0 8 fun B =>
    match hdrCorrect s.cfg B with
    | none => .next (s.complete Instr.hpardec.opcode .errHpar)
    | some H => .next ((s.storeFb 0 H).complete Instr.hpardec.opcode .ok)

/-- `HENC` (R130). -/
def execHenc (s : State) : Result :=
  .next ((s.storeFb 0 (headerEncode s.cfg s.frame)).complete Instr.henc.opcode .ok)

/-- `HDEC rx` (R131). -/
def execHdec (rx : Nat) (s : State) : Result :=
  let op := (Instr.hdec rx).opcode
  if s.rxOutOfRange rx then .next (s.complete op .errParam)
  else if s.frame.rxlen.toNat < hdrSize then .next (s.complete op .errLen)
  else
    s.receiveHeader op rx fun H => .next (((s.setHeader H).clearLenv).complete op .ok)

end Sys2Proof.Machine
end

