-- ==== Sys2Proof/Machine/Payload.lean ====
section
/-! DEFINITION. The length, payload and whole-frame commands (42_payload_fec.md R195, R197 to R200). -/

namespace Sys2Proof.Machine

/-- `LENC` (R195). -/
def execLenc (s : State) : Result :=
  let op := Instr.lenc.opcode
  match s.framingUsable with
  | .reserved => .next (s.setLenErr.complete op .errParam)
  | .star sub =>
    match starTxLen Config.star sub s.frame.mode s.frame.modeparm s.frame.len.toNat with
    | none => .next (s.setLenErr.complete op .errMode)
    | some n =>
      if n > fbSize then .next (s.setLenErr.complete op .errLen)
      else .next ((s.setLenOk 0 n).complete op .ok)
  | .primary => s.withFrameLen op fun _ s => .next (s.complete op .ok)

/-- `PENC` (R197). -/
def execPenc (s : State) : Result :=
  let op := Instr.penc.opcode
  if s.frame.maxpl < s.frame.len then .next (s.complete op .errParam)
  else s.withFrameLen op fun f s => s.sendPayload op f.entry

/-- `PDEC rx` (R198). -/
def execPdec (rx : Nat) (s : State) : Result :=
  let op := (Instr.pdec rx).opcode
  if s.rxOutOfRange rx then .next (s.complete op .errParam) else s.receivePayload op rx

/-- `FENC` (R199). -/
def execFenc (s : State) : Result :=
  let op := Instr.fenc.opcode
  match s.framingUsable with
  | .reserved => .next (s.complete op .errParam)
  | .star sub => s.starSend op sub
  | .primary =>
    if s.frame.maxpl < s.frame.len then .next (s.complete op .errParam)
    else
      s.withFrameLen op fun f s =>
        (s.storeFb 0 (headerEncode s.cfg s.frame)).sendPayload op f.entry

/-- `FDEC rx` (R200). -/
def execFdec (rx : Nat) (s : State) : Result :=
  let op := (Instr.fdec rx).opcode
  if s.rxOutOfRange rx then .next (s.complete op .errParam)
  else
    match s.framingUsable with
    | .reserved => .next (s.complete op .errParam)
    | .star sub => s.starRecv op rx sub
    | .primary =>
      if s.frame.rxlen.toNat < hdrSize then .next (s.complete op .errLen)
      else s.receiveHeader op rx fun H => (s.setHeader H).receivePayload op rx

end Sys2Proof.Machine
end

