-- ==== Sys2Proof/Machine/Star.lean ====
section
/-! DEFINITION. The legacy/STAR commands (43_star_legacy.md R236 to R238). Without the delegate they are
illegal commands (30_encoding.md R104). -/

namespace Sys2Proof.Machine

/-- `SLEN` (R236). -/
def execSlen (s : State) : Result :=
  let op := Instr.slen.opcode
  if s.cfg.starPresent then
    match framingOf s.frame.framing with
    | .star sub =>
      if fbSize < s.frame.rxlen.toNat then .next (s.setLenErr.complete op .errParam)
      else s.starLength op sub fun _ _ s => .next (s.complete op .ok)
    | .primary => .next (s.setLenErr.complete op .errParam)
    | .reserved => .next (s.setLenErr.complete op .errParam)
  else .next (s.complete op .errIllcmd)

/-- `SENC` (R237). -/
def execSenc (s : State) : Result :=
  let op := Instr.senc.opcode
  if s.cfg.starPresent then
    match framingOf s.frame.framing with
    | .star sub => s.starSend op sub
    | .primary => .next (s.complete op .errParam)
    | .reserved => .next (s.complete op .errParam)
  else .next (s.complete op .errIllcmd)

/-- `SDEC rx` (R238). -/
def execSdec (rx : Nat) (s : State) : Result :=
  let op := (Instr.sdec rx).opcode
  if s.cfg.starPresent then
    match framingOf s.frame.framing with
    | .star sub =>
      if s.rxOutOfRange rx then .next (s.complete op .errParam) else s.starRecv op rx sub
    | .primary => .next (s.complete op .errParam)
    | .reserved => .next (s.complete op .errParam)
  else .next (s.complete op .errIllcmd)

end Sys2Proof.Machine
end

