-- ==== Sys2Proof/Machine/System.lean ====
section
/-! DEFINITION. The system commands (45_system.md R290 to R292). -/

namespace Sys2Proof.Machine

/-- `NOP` (R290). -/
def execNop (s : State) : Result := .next (s.complete Instr.nop.opcode .ok)

/-- `CLRCNT rx` and `CLRCNT all` (R291). -/
def execClrcnt (rx : Nat) (all : Bool) (s : State) : Result :=
  let op := (Instr.clrcnt rx all).opcode
  if all then
    .next ({ s with counters := s.counters.map fun _ => countersZero }.complete op .ok)
  else if s.cfg.nRx ≤ rx then .next (s.complete op .errParam)
  else .next ({ s with counters := s.counters.set rx countersZero }.complete op .ok)

/-- `SRST` (R292). -/
def execSrst (s : State) : Result := .next (s.resetBlock.complete Instr.srst.opcode .ok)

end Sys2Proof.Machine
end

