-- ==== Sys2Proof/Machine/Thermal.lean ====
section
/-! DEFINITION. The thermal commands (44_thermal.md R255 to R259). -/

namespace Sys2Proof.Machine

/-- `TTXD` (R255). -/
def execTtxd (s : State) : Result :=
  let t := s.thermal
  let s' := { s with thermal := { t with pendB := pendAdd t.pendB t.txb, pendMs := pendAdd t.pendMs t.txms } }
  .next (s'.complete Instr.ttxd.opcode .ok)

/-- `TTICK` (R256, R257). -/
def execTtick (s : State) : Result :=
  let t := s.thermal
  let s' := { s with thermal := { t with vt := tickVt s.cfg.therm t, pendB := 0, pendMs := 0 } }
  .next (s'.evalEngaged.complete Instr.ttick.opcode .ok)

/-- `TBKOF` (R258). -/
def execTbkof (s : State) : Result :=
  let s' := { s with thermal := { s.thermal with backoff := backoffOf s } }
  .next (s'.complete Instr.tbkof.opcode .ok)

/-- `TCLR` (R259). -/
def execTclr (s : State) : Result :=
  let s' :=
    { s with
      thermal := { s.thermal with engcnt := 0 }
      status := { s.status with engaged := false } }
  .next (s'.complete Instr.tclr.opcode .ok)

end Sys2Proof.Machine
end

