-- ==== Sys2Proof/Machine/Dispatch.lean ====
section
/-! DEFINITION. One arm per command of the opcode table. -/

namespace Sys2Proof.Machine

def exec (i : Instr) (s : State) : Host.Outcome State Fault Refusal :=
  match i with
  | .nop => Sys2Proof.Machine.execNop s
  | .hpack => Sys2Proof.Machine.execHpack s
  | .hunpk => Sys2Proof.Machine.execHunpk s
  | .hcsgen => Sys2Proof.Machine.execHcsgen s
  | .hcschk => Sys2Proof.Machine.execHcschk s
  | .hpargen => Sys2Proof.Machine.execHpargen s
  | .hpardec => Sys2Proof.Machine.execHpardec s
  | .henc => Sys2Proof.Machine.execHenc s
  | .hdec rx => Sys2Proof.Machine.execHdec rx s
  | .lenc => Sys2Proof.Machine.execLenc s
  | .penc => Sys2Proof.Machine.execPenc s
  | .pdec rx => Sys2Proof.Machine.execPdec rx s
  | .fenc => Sys2Proof.Machine.execFenc s
  | .fdec rx => Sys2Proof.Machine.execFdec rx s
  | .slen => Sys2Proof.Machine.execSlen s
  | .senc => Sys2Proof.Machine.execSenc s
  | .sdec rx => Sys2Proof.Machine.execSdec rx s
  | .ttxd => Sys2Proof.Machine.execTtxd s
  | .ttick => Sys2Proof.Machine.execTtick s
  | .tbkof => Sys2Proof.Machine.execTbkof s
  | .tclr => Sys2Proof.Machine.execTclr s
  | .clrcnt rx all => Sys2Proof.Machine.execClrcnt rx all s
  | .srst => Sys2Proof.Machine.execSrst s

end Sys2Proof.Machine
end

