-- ==== Sys2Proof/Machine/Engine.lean ====
section
/-! DEFINITION. The command engine (10_state.md R44): what it does with the command word in progress.
There is no program counter and no fetch (R44, 20_memory.md R72). -/

namespace Sys2Proof.Machine

/-- Run a command word to its completion as one atomic step (20_memory.md R69). An illegal word
completes with `ERR_ILLCMD` and changes nothing else (60_exceptions.md R303). -/
def State.runWord (s : State) (w : Word) : Result :=
  match decode w with
  | .ok i => exec i s
  | .error _ => .next (s.complete (wordOp w) .errIllcmd)

/-- An engine slot: the command in progress, if there is one, runs; in `IDLE` the block does nothing
(60_exceptions.md R334). -/
def State.engineSlot (s : State) : Result :=
  match s.phase with
  | .idle => .next s
  | .busy w => s.runWord w

/-- One input, already taken off the list. -/
def State.takeInput (s : State) : Input → Result
  | .access a => s.access a
  | .engine => s.engineSlot
  | .reset => .next s.resetBlock

/-- The next input, or an engine slot when the host has nothing more to do: a command in progress
completes with no further input (70_reset_and_hazards.md R363). -/
def State.advance (s : State) : Result :=
  match s.inputs with
  | [] => s.engineSlot
  | e :: rest => { s with inputs := rest }.takeInput e

/-- `s` with a command word issued and the engine next to move (log entry 5). -/
def State.withCommand (s : State) (w : Word) : State :=
  { s with phase := .busy w, inputs := .engine :: s.inputs }

end Sys2Proof.Machine
end

