-- ==== Sys2Proof/Machine/Step.lean ====
section
/-! DEFINITION. One step of the machine, and how a command comes to be the next one run. -/

namespace Sys2Proof.Machine

/-- One step: one host access, one reset, or one whole command (20_memory.md R69, R70). -/
def step (s : State) : Host.Outcome State Fault Refusal := s.advance

/-- `s` with the table's word `w` of `nbits` bits as the command in progress, so that the next step runs
it: it stands for the host's write of `CMD` (log entry 5). -/
def State.withFetchWord (s : State) (nbits w : Nat) : State :=
  s.withCommand (BitVec.ofNat 32 (w % 2 ^ nbits))

end Sys2Proof.Machine
end

