-- ==== Sys2Proof/Safety.lean ====
section
/-! DEFINITION. The terms the claims use: which states are well formed, which buffer bytes have been
written, and which host programs run without a stop. -/

namespace Sys2Proof.Machine

/-- `FB[i .. i+n-1]` have all been written (10_state.md R47). -/
def FbWritten (s : State) (i n : Nat) : Prop := ∀ a, i ≤ a → a < i + n → Memory.read s.fb a ≠ none

/-- `PB[0 .. n-1]` have all been written (10_state.md R47). -/
def PbWritten (s : State) (n : Nat) : Prop := ∀ a, a < n → Memory.read s.pb a ≠ none

/-- The list of bytes `m[i .. i+n-1]` (00_scope.md R15), for bytes that have been written. -/
def bytesAt (m : Memory) (i n : Nat) : List Byte :=
  (List.range n).map fun j => (Memory.read m (i + j)).getD 0

/-- `m'` holds the bytes `bs` from index `i` on and everywhere else reads as `m` does. -/
def StoredAt (m m' : Memory) (i : Nat) (bs : List Byte) : Prop :=
  (∀ j, j < bs.length → Memory.read m' (i + j) = bs[j]?) ∧
    ∀ a, a < i ∨ i + bs.length ≤ a → Memory.read m' a = Memory.read m a

/-- The buffers are in canonical form and inside their sizes (10_state.md R42, R43). -/
def State.BuffersOk (s : State) : Prop :=
  Memory.wf s.fb ∧ Memory.within fbSize s.fb ∧ Memory.wf s.pb ∧ Memory.within pbSize s.pb

/-- There are `N_RX` triples of counters and every counter fits `CNT_W` bits (10_state.md R39, R40). -/
def State.CountersOk (s : State) : Prop :=
  s.counters.length = s.cfg.nRx ∧
    (∀ rx k, (s.counter k rx).toNat < 2 ^ cntBits s.cfg.cntW) ∧
    s.thermal.engcnt.toNat < 2 ^ cntBits s.cfg.cntW

/-- The invariant of every step: a valid configuration, buffers and counters as the spec has them. -/
def State.Inv (s : State) : Prop := Cfg.Valid s.cfg ∧ s.BuffersOk ∧ s.CountersOk

/-- `LENV = 1` means that `TOTLEN` and `SEGCNT` hold the length of the current `FRAMING`, `MODE`,
`MODEPARM`, `LEN` (10_state.md R22, R29); here for the primary format, `FRAMING = 0`. -/
def State.LengthFresh (s : State) : Prop :=
  s.status.lenv = true → s.frame.framing = 0 →
    ∃ f, s.frameLen = .ok f ∧ s.frame.totlen.toNat = f.tot ∧ s.frame.segcnt.toNat = f.segs

/-- The opcodes of R103. -/
def opcodeMap : List (BitVec 8) :=
  [0x00, 0x01, 0x02, 0x03, 0x04, 0x05, 0x06, 0x07, 0x08, 0x10, 0x11, 0x12, 0x13, 0x14,
    0x20, 0x21, 0x22, 0x30, 0x31, 0x32, 0x33, 0x3E, 0x3F]

/-- The opcodes that use the `RX` field (R102). -/
def rxOpcodes : List (BitVec 8) := [0x08, 0x12, 0x14, 0x22, 0x3E]

/-- An illegal command word in a configuration: the four cases of R104, on the bits of the word. -/
abbrev IllegalWord (c : Cfg) (w : Word) : Prop :=
  w.extractLsb' 0 8 ∉ opcodeMap ∨ w.extractLsb' 12 20 ≠ 0 ∨
    (w.extractLsb' 0 8 ∉ rxOpcodes ∧ w.extractLsb' 8 3 ≠ 0) ∨
    (w.extractLsb' 0 8 ≠ 0x3E ∧ w.getLsbD 11 = true) ∨
    (w.extractLsb' 0 8 ∈ [0x20#8, 0x21#8, 0x22#8] ∧ c.starPresent = false)

/-- `j` is the first index of `m[i .. i+n-1]` that nothing has written. -/
def FirstUnwritten (m : Memory) (i n j : Nat) : Prop :=
  i ≤ j ∧ j < i + n ∧ Memory.read m j = none ∧ ∀ a, i ≤ a → a < j → Memory.read m a ≠ none

/-- The offsets of the registers that are not failure counters (10_state.md section 8). -/
def namedOffsets : List (BitVec 12) :=
  [0x00, 0x04, 0x08, 0x0C, 0x10, 0x14, 0x18, 0x1C, 0x20, 0x24, 0x28, 0x2C,
    0x40, 0x44, 0x48, 0x4C, 0x50, 0x54, 0x58, 0x5C, 0x60]

/-- An aligned offset of `REG` at which the instance has no register (10_state.md R40, R48). -/
def Unassigned (c : Cfg) (offset : BitVec 12) : Prop :=
  offset.toNat < 0x100 ∧ offset.toNat % 4 = 0 ∧ offset ∉ namedOffsets ∧
    ∀ rx k, rx < c.nRx → k ∈ [0x0, 0x4, 0x8] → offset.toNat ≠ 0x80 + 0x10 * rx + k

/-- The registers whose write has a side effect beyond storing the value (20_memory.md R67). -/
def effectRegs : List Reg := [.cmd, .status, .mode, .modeparm, .len, .framing, .tCtrl]

/-- The commands that write `FB` (20_memory.md R68), and `SRST`, which empties it (45_system.md R292). -/
def Instr.writesFb : Instr → Bool
  | .hpack | .hcsgen | .hpargen | .hpardec | .henc | .penc | .fenc | .senc | .srst => true
  | .nop | .hunpk | .hcschk | .hdec _ | .lenc | .pdec _ | .fdec _ | .slen | .sdec _
  | .ttxd | .ttick | .tbkof | .tclr | .clrcnt _ _ => false

/-- The commands that write `PB` (R68), and `SRST`, which empties it. -/
def Instr.writesPb : Instr → Bool
  | .pdec _ | .fdec _ | .sdec _ | .srst => true
  | .nop | .hpack | .hunpk | .hcsgen | .hcschk | .hpargen | .hpardec | .henc | .hdec _ | .lenc
  | .penc | .fenc | .slen | .senc | .ttxd | .ttick | .tbkof | .tclr | .clrcnt _ _ => false

/-- The commands that increment failure counters, with the receiver they charge (10_state.md R40). -/
def Instr.chargedRx : Instr → Option Nat
  | .hdec rx | .pdec rx | .fdec rx | .sdec rx => some rx
  | .nop | .hpack | .hunpk | .hcsgen | .hcschk | .hpargen | .hpardec | .henc | .lenc | .penc
  | .fenc | .slen | .senc | .ttxd | .ttick | .tbkof | .tclr | .clrcnt _ _ | .srst => none

/-- The commands of the thermal unit, and `SRST`. -/
def Instr.thermalOrReset : Instr → Bool
  | .ttxd | .ttick | .tbkof | .tclr | .srst => true
  | .nop | .hpack | .hunpk | .hcsgen | .hcschk | .hpargen | .hpardec | .henc | .hdec _ | .lenc
  | .penc | .pdec _ | .fenc | .fdec _ | .slen | .senc | .sdec _ | .clrcnt _ _ => false

/-- The commands that clear state and never set `DIRTY` (10_state.md R22). -/
def Instr.clears : Instr → Bool
  | .tclr | .clrcnt _ _ | .srst => true
  | .nop | .hpack | .hunpk | .hcsgen | .hcschk | .hpargen | .hpardec | .henc | .hdec _ | .lenc
  | .penc | .pdec _ | .fenc | .fdec _ | .slen | .senc | .sdec _ | .ttxd | .ttick | .tbkof => false

/-- The symbols of a word are field elements of `GF(2^m)` (41_rs_primitive.md R161). -/
def IsWord (c : RsCfg) (w : List Nat) : Prop := ∀ x ∈ w, x < 2 ^ c.m

/-- In how many positions two words differ. -/
def differences (v w : List Nat) : Nat :=
  (List.range w.length).countP fun i => v.getD i 0 != w.getD i 0

/-- The eleven symbols of the header word in `FB[0..7]` (40_header_codec.md R123). -/
def headerWord (m : Memory) : List Nat :=
  symsOf 6 (bitsOf (bytesAt m 0 5)) ++ symsOf 6 (bitsOf (bytesAt m 5 3))

/-- The word `M_i ++ P_i` of segment `i` of a frame with `L` payload bytes (30_encoding.md R96,
42_payload_fec.md R196, R202): the symbols of its run of payload bits, then its parity symbols. -/
def segmentWord (e : ModeEntry) (L : Nat) (m : Memory) (i : Nat) : List Nat :=
  symsOf e.rs.m (((bitsOf (bytesAt m 8 L)).drop (i * e.capBits)).take e.capBits) ++
    symsOf e.rs.m ((bitsOf (bytesAt m (8 + L + i * parBytes e) (parBytes e))).take
      ((e.rs.n - e.rs.k) * e.rs.m))

/-- Two byte lists that differ in exactly one bit (40_header_codec.md R122). -/
def OneBitApart (B B' : List Byte) : Prop :=
  ∃ i bit : Nat, i < B.length ∧ bit < 8 ∧ B' = B.set i (B.getD i 0 ^^^ BitVec.twoPow 8 bit)

/-- What transmit of a STAR frame does (43_star_legacy.md R237), once `FRAMING` has given `sub`. -/
def StarSendResult (s t : State) (op : BitVec 8) (sub : StarSub) : Prop :=
  if s.frame.maxpl < s.frame.len then t = s.complete op .errParam
  else
    match starEncode Config.star sub s.frame.mode s.frame.modeparm
        (bytesAt s.pb 0 s.frame.len.toNat) with
    | none => t = s.setLenErr.complete op .errMode
    | some F =>
      if 1024 < F.length then t = s.setLenErr.complete op .errLen
      else
        StoredAt s.fb t.fb 0 F ∧ t = { (s.setLenOk 0 F.length).complete op .ok with fb := t.fb }

/-- What receive of a STAR frame does (43_star_legacy.md R238), once `FRAMING` has given `sub` and the
operand range checks have passed. -/
def StarRecvResult (s t : State) (op : BitVec 8) (rx : Nat) (sub : StarSub) : Prop :=
  if s.frame.rxlen.toNat < Config.star.hdrLen sub then t = s.setLenErr.complete op .errLen
  else
    match starRxLen Config.star sub (bytesAt s.fb 0 (Config.star.hdrLen sub)) with
    | .error c => t = s.setLenErr.complete op c
    | .ok (L, tot) =>
      if s.frame.rxlen.toNat < tot then t = ((s.setLen L).setLenOk 0 tot).complete op .errLen
      else
        match starReceive Config.star sub (bytesAt s.fb 0 (Config.star.hdrLen sub))
            (bytesAt s.fb 0 tot) with
        | .fecFail => t = (((s.setLen L).setLenOk 0 tot).countFailure .pld rx).complete op .errPld
        | .badFrame => t = (((s.setLen L).setLenOk 0 tot).countFailure .pld rx).complete op .errStar
        | .payload P =>
          StoredAt s.pb t.pb 0 P ∧
            t = { (((s.setLen L).setLenOk 0 tot).setLen P.length).complete op .ok with pb := t.pb }

/-- The bytes that receive of a STAR frame reads have been written (R238). -/
def StarRecvWritten (s : State) (sub : StarSub) : Prop :=
  s.frame.rxlen.toNat ≤ 1024 → Config.star.hdrLen sub ≤ s.frame.rxlen.toNat →
    FbWritten s 0 (Config.star.hdrLen sub) ∧
      ∀ L tot, starRxLen Config.star sub (bytesAt s.fb 0 (Config.star.hdrLen sub)) = .ok (L, tot) →
        tot ≤ s.frame.rxlen.toNat → FbWritten s 0 tot

/-- A step from `s` neither faults nor refuses. -/
def State.Safe (s : State) : Prop := ∃ t, step s = .next t

/-- `n` steps from `s` neither fault nor refuse. -/
def State.SafeRun (s : State) (n : Nat) : Prop := ∃ t, Sys2Proof.core.run n s = .next t

end Sys2Proof.Machine
end

