-- ==== Sys2Proof/Certificates/Slice0/Obligations.lean ====
section
/-! DEFINITION. The statements for the provers. Every statement holds for every configuration a state
can carry, unless it says otherwise. A statement `t = { … with fb := t.fb }` says that nothing but the
named fields differs; what those fields hold, the other clauses say. -/

open Sys2Proof Sys2Proof.Machine

/-! ## The command word -/

/-- 30_encoding.md R101 to R105: a word decodes to a command exactly when the command is well formed
and the word is its encoding. No bit of an encoding is dropped, and no two words name one command. -/
def Obligations.DecodeIsInverseOfEncode : Prop :=
  ∀ (i : Instr) (w : Word), decode w = .ok i ↔ Instr.WellFormed i ∧ encode i = w

/-- 60_exceptions.md R303 with the four cases of 30_encoding.md R104: an illegal word completes with
`ERR_ILLCMD` and changes nothing else; any other word runs the command it encodes. -/
def Obligations.IllegalWordOnlyCompletes : Prop :=
  ∀ (s : State) (w : Word),
    (IllegalWord s.cfg w →
      s.runWord w = .next
        { s with
          phase := .idle
          status :=
            { s.status with done := true, code := .errIllcmd, lastop := w.extractLsb' 0 8 } }) ∧
      (¬IllegalWord s.cfg w →
        ∃ i, Instr.WellFormed i ∧ encode i = w ∧ s.runWord w = exec i s)

/-- 95_test_vectors.md V64, V65: words written out in the spec decode as it says. -/
def Obligations.SampleWordsDecode : Prop :=
  decode 0x00000000 = .ok .nop ∧ decode 0x00000013 = .ok .fenc ∧
    decode 0x00000114 = .ok (.fdec 1) ∧ decode 0x00000108 = .ok (.hdec 1) ∧
    decode 0x00000012 = .ok (.pdec 0) ∧ decode 0x00000031 = .ok .ttick ∧
    decode 0x0000013E = .ok (.clrcnt 1 false) ∧ decode 0x0000083E = .ok (.clrcnt 0 true) ∧
    decode 0x0000003F = .ok .srst ∧
    decode 0x00000015 = .error (.unknownOpcode 0x15) ∧ decode 0x00000100 = .error .unusedRx ∧
    decode 0x00000813 = .error .unusedAll ∧ decode 0x00001000 = .error .reservedBits ∧
    decode 0x80000000 = .error .reservedBits ∧ decode 0x00000914 = .error .unusedAll

/-! ## The step -/

/-- 10_state.md R44, 20_memory.md R69: while a command word that decodes to `i` is in progress, a step
in which the engine is next (an engine slot heads the input list, or the list is empty: log entry 2)
is `exec i`, on the state whose list has lost that slot. -/
def Obligations.StepRunsTheDecodedCommand : Prop :=
  ∀ (s : State) (w : Word) (i : Instr), s.phase = .busy w → decode w = .ok i →
    (s.inputs = [] → step s = exec i s) ∧
      ∀ rest, s.inputs = .engine :: rest → step s = exec i { s with inputs := rest }

/-- 10_state.md R21: a write of `CMD` while idle issues the word, and only that; while busy it is
discarded and sets `OVR`; a read while idle returns 0. -/
def Obligations.CmdWriteIssuesTheWord : Prop :=
  ∀ (s : State) (v : Word),
    (s.phase = .idle →
      s.access (.write .word 0 v) = .next { s with phase := .busy v } ∧
        s.access (.read .word 0) = .next { s with rdata := some 0 }) ∧
      ∀ w, s.phase = .busy w →
        s.access (.write .word 0 v) = .next { s with status := { s.status with ovr := true } }

/-- 70_reset_and_hazards.md R352: while a command runs, every host write only sets `OVR`; a read of
`STATUS` answers it with `BUSY = 1`; any other read of an accepted shape answers the next unspecified
value and changes nothing. (That this holds of a reserved offset and of a buffer byte that nothing has
written too is the model's choice: log entry 22. A read of a refused shape follows R66 even while busy:
log entry 15.) -/
def Obligations.BusyAccesses : Prop :=
  ∀ (s : State) (w : Word), s.phase = .busy w →
    (∀ width offset v, s.access (.write width offset v) =
      .next { s with status := { s.status with ovr := true } }) ∧
      s.access (.read .word 4) = .next { s with rdata := some s.statusWord } ∧
      s.statusWord.getLsbD 0 = true ∧
      ∀ width offset, offset ≠ 4 → shapeAccepted width (regionOf offset) = true →
        s.access (.read width offset) =
          .next { s with rdata := some (Config.busyRead s.freeReads), freeReads := s.freeReads + 1 }

/-- 70_reset_and_hazards.md R363, 60_exceptions.md R302: with every buffer byte written, whatever word
was issued, the engine's next slot ends it: `IDLE`, `DONE = 1`, `LASTOP` the word's low byte. -/
def Obligations.EveryCommandWordCompletes : Prop :=
  ∀ (s : State) (w : Word), s.phase = .busy w → FbWritten s 0 fbSize → PbWritten s pbSize →
    ∃ t, s.engineSlot = .next t ∧ t.phase = .idle ∧ t.status.done = true ∧
      t.status.lastop = w.extractLsb' 0 8

/-- 10_state.md R47 with 93_implementation_defined.md U1: a command stops only by reading a buffer byte
that nothing has written, and nothing is refused; a header command that finds an unwritten byte in the
range its rule reads faults at the first one. -/
def Obligations.CommandsStopOnlyOnUnwrittenBytes : Prop :=
  ∀ (i : Instr) (s : State) (n : Nat),
    (exec i s = .fault (.unwrittenFb n) → n < fbSize ∧ Memory.read s.fb n = none) ∧
      (exec i s = .fault (.unwrittenPb n) → n < pbSize ∧ Memory.read s.pb n = none) ∧
      (∀ r, exec i s ≠ .refused r) ∧
      (FirstUnwritten s.fb 0 3 n → exec .hunpk s = .fault (.unwrittenFb n) ∧
        exec .hcsgen s = .fault (.unwrittenFb n)) ∧
      (FirstUnwritten s.fb 0 5 n → exec .hcschk s = .fault (.unwrittenFb n) ∧
        exec .hpargen s = .fault (.unwrittenFb n)) ∧
      (FirstUnwritten s.fb 0 8 n → exec .hpardec s = .fault (.unwrittenFb n))

/-- 70_reset_and_hazards.md R340, 10_state.md R47: a reset, in any phase, leaves every register at its
reset value, every buffer byte unwritten, `irq` low, and nothing of the command in progress. -/
def Obligations.ResetInputResets : Prop :=
  ∀ (s : State) (rest : List Input), s.inputs = .reset :: rest →
    ∃ t, step s = .next t ∧ t.phase = .idle ∧ t.statusWord = 0 ∧ t.irq = false ∧
      t.irqen = 0 ∧
      t.frame = { version := 0, mode := 0, modeparm := 0, len := 0, framing := 0, rxlen := 0,
                  totlen := 0, segcnt := 0, maxpl := 0xFF } ∧
      t.thermal = { protEn := false, vt := 0, pendB := 0, pendMs := 0, sensed := 0, txb := 0,
                    txms := 0, backoff := 0, engcnt := 0 } ∧
      t.counters = List.replicate s.cfg.nRx { hcs := 0, hpar := 0, pld := 0 } ∧
      (∀ a, Memory.read t.fb a = none) ∧ ∀ a, Memory.read t.pb a = none

/-! ## The registers, the flags and the window -/

/-- 10_state.md R22: where each field of `STATUS` is read; and the nine values of `CODE`
(60_exceptions.md R300). -/
def Obligations.StatusLayout : Prop :=
  (∀ s : State,
    s.statusWord.getLsbD 0 = s.busy ∧ s.statusWord.getLsbD 1 = s.status.done ∧
      s.statusWord.getLsbD 2 = decide (s.status.code ≠ .ok) ∧
      s.statusWord.getLsbD 3 = s.status.ovr ∧ s.statusWord.getLsbD 4 = s.status.dirty ∧
      s.statusWord.getLsbD 5 = s.status.engaged ∧ s.statusWord.getLsbD 6 = s.status.lenv ∧
      s.statusWord.getLsbD 7 = false ∧
      s.statusWord.extractLsb' 8 8 =
        (match s.status.code with
         | .ok => 0x00
         | .errIllcmd => 0x01
         | .errParam => 0x02
         | .errMode => 0x03
         | .errLen => 0x04
         | .errHcs => 0x10
         | .errHpar => 0x11
         | .errPld => 0x12
         | .errStar => 0x13) ∧
      s.statusWord.extractLsb' 16 8 = s.status.lastop ∧ s.statusWord.extractLsb' 24 8 = 0)

/-- 10_state.md R48 with the map of its section 8, by two steps of the machine (a write, then a read of
the same offset): a register of width `W` reads back the low `W` bits, zero-extended; a read-only
register keeps its value and the write changes nothing; an unassigned offset of `REG` reads 0 and its
write changes nothing. `CMD`, `STATUS` and `T_CTRL` have statements of their own. -/
def Obligations.RegisterWriteThenRead : Prop :=
  ∀ (s : State) (offset : BitVec 12) (w : Word) (rest : List Input), s.phase = .idle →
    s.CountersOk →
    s.inputs = .access (.write .word offset w) :: .access (.read .word offset) :: rest →
    (∀ W,
      (offset, W) ∈ ([(0x08, 4), (0x0C, 4), (0x10, 8), (0x14, 8), (0x18, 2), (0x1C, 11), (0x28, 8),
        (0x2C, 3), (0x44, 32), (0x50, 32), (0x54, 32), (0x58, 32), (0x60, cntBits s.cfg.cntW)] :
        List (BitVec 12 × Nat)) →
      ∃ t, Sys2Proof.core.run 2 s = .next t ∧
        t.rdata = some (BitVec.ofNat 32 (w.toNat % 2 ^ W))) ∧
      (∀ rx k, rx < s.cfg.nRx → k ∈ [0x0, 0x4, 0x8] → offset.toNat = 0x80 + 0x10 * rx + k →
        offset.toNat < 0x100 →
        ∃ t, Sys2Proof.core.run 2 s = .next t ∧
          t.rdata = some (BitVec.ofNat 32 (w.toNat % 2 ^ cntBits s.cfg.cntW))) ∧
      (∀ v,
        (offset, v) ∈ ([(0x20, s.frame.totlen.setWidth 32), (0x24, s.frame.segcnt.setWidth 32),
          (0x48, s.thermal.pendB), (0x4C, s.thermal.pendMs), (0x5C, s.thermal.backoff)] :
          List (BitVec 12 × Word)) →
        Sys2Proof.core.run 2 s = .next { s with inputs := rest, rdata := some v }) ∧
      (Unassigned s.cfg offset →
        Sys2Proof.core.run 2 s = .next { s with inputs := rest, rdata := some 0 })

/-- 10_state.md R48 with R23, R28, R31, R32, R34 to R40: the exact next state of an idle write of each
register without a side effect, and of a read-only register or an unassigned offset. -/
def Obligations.PlainWritesStore : Prop :=
  ∀ (s : State) (w : Word), s.phase = .idle →
    s.access (.write .word 0x08 w) =
        .next { s with frame := { s.frame with version := w.setWidth 4 } } ∧
      s.access (.write .word 0x1C w) =
        .next { s with frame := { s.frame with rxlen := w.setWidth 11 } } ∧
      s.access (.write .word 0x28 w) =
        .next { s with frame := { s.frame with maxpl := w.setWidth 8 } } ∧
      s.access (.write .word 0x2C w) = .next { s with irqen := w.setWidth 3 } ∧
      s.access (.write .word 0x44 w) = .next { s with thermal := { s.thermal with vt := w } } ∧
      s.access (.write .word 0x50 w) = .next { s with thermal := { s.thermal with sensed := w } } ∧
      s.access (.write .word 0x54 w) = .next { s with thermal := { s.thermal with txb := w } } ∧
      s.access (.write .word 0x58 w) = .next { s with thermal := { s.thermal with txms := w } } ∧
      s.access (.write .word 0x60 w) = .next
        { s with
          thermal :=
            { s.thermal with engcnt := BitVec.ofNat 32 (w.toNat % 2 ^ cntBits s.cfg.cntW) } } ∧
      (∀ offset : BitVec 12, offset ∈ [0x20#12, 0x24#12, 0x48#12, 0x4C#12, 0x5C#12] ∨
        Unassigned s.cfg offset → s.access (.write .word offset w) = .next s) ∧
      ∀ (rx : Nat) (offset : BitVec 12), rx < s.cfg.nRx → offset.toNat < 0x100 →
        let c := s.counters.getD rx countersZero
        let v := BitVec.ofNat 32 (w.toNat % 2 ^ cntBits s.cfg.cntW)
        (offset.toNat = 0x80 + 0x10 * rx → s.access (.write .word offset w) =
            .next { s with counters := s.counters.set rx { c with hcs := v } }) ∧
          (offset.toNat = 0x84 + 0x10 * rx → s.access (.write .word offset w) =
            .next { s with counters := s.counters.set rx { c with hpar := v } }) ∧
          (offset.toNat = 0x88 + 0x10 * rx → s.access (.write .word offset w) =
            .next { s with counters := s.counters.set rx { c with pld := v } })

/-- 20_memory.md R67, with the configuration's receivers: an idle write of a register without a side
effect leaves every other register as it reads, `STATUS` included; a read leaves the whole state but
the bus answer; neither reaches a buffer. -/
def Obligations.RegisterAccessFrame : Prop :=
  ∀ (s : State) (r : Reg) (w : Word),
    (r ∉ effectRegs →
      (∀ r', r' ≠ r → (s.writeReg r w).readReg r' = s.readReg r') ∧
        (s.writeReg r w).phase = s.phase) ∧
      (s.writeReg r w).fb = s.fb ∧ (s.writeReg r w).pb = s.pb ∧
      ∀ width offset t, s.phase = .idle → shapeAccepted width (regionOf offset) = true →
        s.access (.read width offset) = .next t → t = { s with rdata := t.rdata }

/-- 20_memory.md R67, the writes with a side effect other than `CMD`'s: `STATUS` (10_state.md R22,
60_exceptions.md R305: write 1 to clear, which is how the host acknowledges), `MODE`, `MODEPARM`, `LEN`,
`FRAMING` (R24 to R27: `LENV` is cleared, `TOTLEN` and `SEGCNT` keep their values) and `T_CTRL` (R33:
`ENGLOAD` loads `ENGAGED` from `ENGVAL`, changing no counter and not `DIRTY`). -/
def Obligations.WritesWithSideEffects : Prop :=
  ∀ (s : State) (w : Word), s.phase = .idle →
    s.access (.write .word 0x04 w) = .next
        { s with
          status :=
            { s.status with
              done := s.status.done && !w.getLsbD 1
              ovr := s.status.ovr && !w.getLsbD 3
              dirty := s.status.dirty && !w.getLsbD 4 } } ∧
      s.access (.write .word 0x0C w) = .next
        { s with frame := { s.frame with mode := w.setWidth 4 },
                 status := { s.status with lenv := false } } ∧
      s.access (.write .word 0x10 w) = .next
        { s with frame := { s.frame with modeparm := w.setWidth 8 },
                 status := { s.status with lenv := false } } ∧
      s.access (.write .word 0x14 w) = .next
        { s with frame := { s.frame with len := w.setWidth 8 },
                 status := { s.status with lenv := false } } ∧
      s.access (.write .word 0x18 w) = .next
        { s with frame := { s.frame with framing := w.setWidth 2 },
                 status := { s.status with lenv := false } } ∧
      s.access (.write .word 0x40 w) = .next
        { s with
          thermal := { s.thermal with protEn := w.getLsbD 0 }
          status :=
            { s.status with
              engaged := if w.getLsbD 1 = true then w.getLsbD 2 else s.status.engaged } }

/-- 10_state.md R33: a read of `T_CTRL` gives `PROT_EN` in bit 0, 0 for the strobe, `STATUS.ENGAGED` in
bit 2, and 0 above. -/
def Obligations.ThermalControlReads : Prop :=
  ∀ s : State, s.phase = .idle →
    ∃ v : Word, s.access (.read .word 0x40) = .next { s with rdata := some v } ∧
      v.getLsbD 0 = s.thermal.protEn ∧ v.getLsbD 1 = false ∧ v.getLsbD 2 = s.status.engaged ∧
      ∀ k, 3 ≤ k → v.getLsbD k = false

/-- 20_memory.md R66: an idle access of another width than its space accepts, or a misaligned one of
`REG`, is refused: a read answers 0, a write changes nothing, and `OVR` is set. (The model gives the
hardware's effect where R66 suggests that a model fault: log entry 14.) -/
def Obligations.BadlyShapedAccessIsRefused : Prop :=
  ∀ (s : State) (width : Width) (offset : BitVec 12) (w : Word), s.phase = .idle →
    (offset.toNat < 0x100 ∧ (width ≠ .word ∨ offset.toNat % 4 ≠ 0) ∨
      0x400 ≤ offset.toNat ∧ offset.toNat < 0x900 ∧ width ≠ .byte) →
    s.access (.read width offset) =
        .next { s with rdata := some 0, status := { s.status with ovr := true } } ∧
      s.access (.write width offset w) = .next { s with status := { s.status with ovr := true } }

/-- 20_memory.md R61: `FB[i]` stands at `0x400 + i` and `PB[i]` at `0x800 + i`; a reserved offset reads
0, ignores writes and sets no flag. That this holds of a reserved offset at EVERY width is not R61's,
which names no width, but the model's reading (DEDUCED, log entry 11; unsafe for exactly this claim):
R66 refuses `an access of another width`, with `OVR`, and names widths for `REG`, `FB` and `PB` only.
An aligned word of `REG` is the register that the map of 10_state.md section 8 puts there, and an
unassigned one reads 0 (R48). A byte that nothing has written faults (U1, log entry 6); a byte write
stores the low eight bits of its data (log entry 13). -/
def Obligations.WindowMap : Prop :=
  ∀ (s : State) (offset : BitVec 12) (width : Width) (w : Word), s.phase = .idle →
    (∀ i, i < fbSize → offset.toNat = 0x400 + i →
      (∀ b, Memory.read s.fb i = some b →
        s.access (.read .byte offset) = .next { s with rdata := some (b.setWidth 32) }) ∧
        (Memory.read s.fb i = none → s.access (.read .byte offset) = .fault (.unwrittenFb i)) ∧
        ∃ t, s.access (.write .byte offset w) = .next t ∧
          StoredAt s.fb t.fb i [w.setWidth 8] ∧ t = { s with fb := t.fb }) ∧
      (∀ i, i < pbSize → offset.toNat = 0x800 + i →
        (∀ b, Memory.read s.pb i = some b →
          s.access (.read .byte offset) = .next { s with rdata := some (b.setWidth 32) }) ∧
          (Memory.read s.pb i = none → s.access (.read .byte offset) = .fault (.unwrittenPb i)) ∧
          ∃ t, s.access (.write .byte offset w) = .next t ∧
            StoredAt s.pb t.pb i [w.setWidth 8] ∧ t = { s with pb := t.pb }) ∧
      (0x100 ≤ offset.toNat ∧ offset.toNat < 0x400 ∨ 0x900 ≤ offset.toNat →
        s.access (.read width offset) = .next { s with rdata := some 0 } ∧
          s.access (.write width offset w) = .next s) ∧
      (∀ v,
        (offset, v) ∈ ([(0x00, 0), (0x04, s.statusWord), (0x08, s.frame.version.setWidth 32),
          (0x0C, s.frame.mode.setWidth 32), (0x10, s.frame.modeparm.setWidth 32),
          (0x14, s.frame.len.setWidth 32), (0x18, s.frame.framing.setWidth 32),
          (0x1C, s.frame.rxlen.setWidth 32), (0x20, s.frame.totlen.setWidth 32),
          (0x24, s.frame.segcnt.setWidth 32), (0x28, s.frame.maxpl.setWidth 32),
          (0x2C, s.irqen.setWidth 32),
          (0x40, 0#29 ++ BitVec.ofBool s.status.engaged ++ 0#1 ++ BitVec.ofBool s.thermal.protEn),
          (0x44, s.thermal.vt), (0x48, s.thermal.pendB), (0x4C, s.thermal.pendMs),
          (0x50, s.thermal.sensed), (0x54, s.thermal.txb), (0x58, s.thermal.txms),
          (0x5C, s.thermal.backoff), (0x60, s.thermal.engcnt)] : List (BitVec 12 × Word)) →
        s.access (.read .word offset) = .next { s with rdata := some v }) ∧
      (∀ rx, rx < s.cfg.nRx → offset.toNat < 0x100 →
        let c := s.counters.getD rx countersZero
        (offset.toNat = 0x80 + 0x10 * rx →
          s.access (.read .word offset) = .next { s with rdata := some c.hcs }) ∧
          (offset.toNat = 0x84 + 0x10 * rx →
            s.access (.read .word offset) = .next { s with rdata := some c.hpar }) ∧
          (offset.toNat = 0x88 + 0x10 * rx →
            s.access (.read .word offset) = .next { s with rdata := some c.pld })) ∧
      (Unassigned s.cfg offset →
        s.access (.read .word offset) = .next { s with rdata := some 0 })

/-- 60_exceptions.md R310: the interrupt line is the three enabled sources, and an idle write of
`STATUS` clears exactly the sources it writes 1 to. -/
def Obligations.InterruptLine : Prop :=
  ∀ s : State,
    (s.irq = true ↔
      s.status.done = true ∧ s.irqen.getLsbD 0 = true ∨
        s.status.dirty = true ∧ s.irqen.getLsbD 1 = true ∨
        s.status.ovr = true ∧ s.irqen.getLsbD 2 = true) ∧
      ∀ w : Word, s.phase = .idle →
        ∃ t, s.access (.write .word 0x04 w) = .next t ∧ t.irqen = s.irqen ∧
          t.status.done = (s.status.done && !w.getLsbD 1) ∧
          t.status.ovr = (s.status.ovr && !w.getLsbD 3) ∧
          t.status.dirty = (s.status.dirty && !w.getLsbD 4)

/-! ## The header codec -/

/-- 40_header_codec.md R124: `HPACK` writes `FB[0..2]` and changes no other byte, register or flag. -/
def Obligations.HpackPacksTheFields : Prop :=
  encode .hpack = 0x00000001 ∧ ∀ s : State, ∃ t, exec .hpack s = .next t ∧
    StoredAt s.fb t.fb 0 [s.frame.version ++ s.frame.mode, s.frame.modeparm, s.frame.len] ∧
    t = { s.complete 0x01 .ok with fb := t.fb }

/-- 40_header_codec.md R125: `HUNPK` loads the four header registers from `FB[0..2]` and clears
`LENV`. -/
def Obligations.HunpkUnpacksTheFields : Prop :=
  encode .hunpk = 0x00000002 ∧
  ∀ (s : State) (b0 b1 b2 : Byte), Memory.read s.fb 0 = some b0 → Memory.read s.fb 1 = some b1 →
    Memory.read s.fb 2 = some b2 →
    exec .hunpk s = .next
      { s.complete 0x02 .ok with
        frame :=
          { s.frame with
            version := b0.extractLsb' 4 4, mode := b0.extractLsb' 0 4, modeparm := b1, len := b2 }
        status := { (s.complete 0x02 .ok).status with lenv := false } }

/-- 40_header_codec.md R126: `HCSGEN` stores the check sequence of `FB[0..2]` in `FB[3..4]`, its most
significant byte first exactly when `HCS_BIG`. -/
def Obligations.HcsgenStoresTheCheck : Prop :=
  encode .hcsgen = 0x00000003 ∧
  ∀ (s : State) (b0 b1 b2 : Byte), Memory.read s.fb 0 = some b0 → Memory.read s.fb 1 = some b1 →
    Memory.read s.fb 2 = some b2 →
    ∃ t, exec .hcsgen s = .next t ∧
      (let c := crc16 s.cfg.hcs [b0, b1, b2]
       StoredAt s.fb t.fb 3
         (if s.cfg.hcs.big = true then [c.extractLsb' 8 8, c.extractLsb' 0 8]
          else [c.extractLsb' 0 8, c.extractLsb' 8 8])) ∧
      t = { s.complete 0x03 .ok with fb := t.fb }

/-- 40_header_codec.md R127: `HCSCHK` compares the check sequence of `FB[0..2]` with `FB[3..4]`; it
touches no counter, no register and no byte. -/
def Obligations.HcschkComparesTheCheck : Prop :=
  encode .hcschk = 0x00000004 ∧
  ∀ (s : State) (b0 b1 b2 b3 b4 : Byte), Memory.read s.fb 0 = some b0 →
    Memory.read s.fb 1 = some b1 → Memory.read s.fb 2 = some b2 → Memory.read s.fb 3 = some b3 →
    Memory.read s.fb 4 = some b4 →
    exec .hcschk s = .next (s.complete 0x04
      (if crc16 s.cfg.hcs [b0, b1, b2] = (if s.cfg.hcs.big = true then b3 ++ b4 else b4 ++ b3)
       then .ok else .errHcs))

/-- 40_header_codec.md R122: flipping one bit of the three covered bytes changes the check sequence,
for every generator polynomial but 0. -/
def Obligations.OneFlippedBitChangesTheCheck : Prop :=
  ∀ (h : HcsCfg) (B B' : List Byte), h.poly ≠ 0 → B.length = 3 → OneBitApart B B' →
    crc16 h B' ≠ crc16 h B

/-- 40_header_codec.md R128: `HPARGEN` stores in `FB[5..7]` the packed parity symbols of the seven
symbols of `FB[0..4]`. -/
def Obligations.HpargenStoresTheParity : Prop :=
  encode .hpargen = 0x00000005 ∧
  ∀ s : State, HdrRsValid s.cfg.hdrRs → FbWritten s 0 5 →
    ∃ t P, exec .hpargen s = .next t ∧
      P = bytesOf (symBits 6 (rsParity s.cfg.hdrRs (symsOf 6 (bitsOf (bytesAt s.fb 0 5))))) ∧
      P.length = 3 ∧ StoredAt s.fb t.fb 5 P ∧ t = { s.complete 0x05 .ok with fb := t.fb }

/-- 40_header_codec.md R129: `HPARDEC` decodes the eleven symbols of `FB[0..7]`; on a failure, or a
nonzero pad bit, it completes with `ERR_HPAR` and changes no byte; otherwise it stores the corrected
eight bytes. -/
def Obligations.HpardecCorrectsInPlace : Prop :=
  encode .hpardec = 0x00000006 ∧
  ∀ s : State, HdrRsValid s.cfg.hdrRs → FbWritten s 0 8 →
    ∃ t, exec .hpardec s = .next t ∧
      match rsDecode s.cfg.hdrRs (symsOf 6 (bitsOf (bytesAt s.fb 0 5)) ++
          symsOf 6 (bitsOf (bytesAt s.fb 5 3))) with
      | none => t = s.complete 0x06 .errHpar
      | some r =>
        if (symBits 6 (r.take 7)).getD 40 false = true ∨ (symBits 6 (r.take 7)).getD 41 false = true
        then t = s.complete 0x06 .errHpar
        else
          (bytesOf ((symBits 6 (r.take 7)).take 40) ++ bytesOf (symBits 6 (r.drop 7))).length = 8 ∧
            StoredAt s.fb t.fb 0
              (bytesOf ((symBits 6 (r.take 7)).take 40) ++ bytesOf (symBits 6 (r.drop 7))) ∧
            t = { s.complete 0x06 .ok with fb := t.fb }

/-- 40_header_codec.md R130: `HENC` is `HPACK`, then `HCSGEN`, then `HPARGEN`, as one step. -/
def Obligations.HencIsPackCheckParity : Prop :=
  encode .henc = 0x00000007 ∧ ∀ s : State,
    ∃ t u v, exec .hpack s = .next t ∧ exec .hcsgen t = .next u ∧
    exec .hpargen u = .next v ∧ exec .henc s = .next (v.complete 0x07 .ok)

/-- 40_header_codec.md R131: `HDEC rx`, with its errors in order and what each changes. -/
def Obligations.HdecDecodesTheHeader : Prop :=
  (∀ n : BitVec 3, encode (.hdec n.toNat) = 0#20 ++ 0#1 ++ n ++ 0x08#8) ∧
  ∀ (s : State) (rx : Nat),
    (rx < s.cfg.nRx → 8 ≤ s.frame.rxlen.toNat → s.frame.rxlen.toNat ≤ 1024 → FbWritten s 0 8) →
    exec (.hdec rx) s = .next
      (if s.cfg.nRx ≤ rx ∨ 1024 < s.frame.rxlen.toNat then s.complete 0x08 .errParam
       else if s.frame.rxlen.toNat < 8 then s.complete 0x08 .errLen
       else
         match hdrCorrect s.cfg (bytesAt s.fb 0 8) with
         | none => (s.countFailure .hpar rx).complete 0x08 .errHpar
         | some h =>
           if crc16 s.cfg.hcs (h.take 3) ≠ hcsLoad s.cfg.hcs (h.getD 3 0) (h.getD 4 0) then
             (s.countFailure .hcs rx).complete 0x08 .errHcs
           else
             { s.complete 0x08 .ok with
               frame :=
                 { s.frame with
                   version := (h.getD 0 0).extractLsb' 4 4, mode := (h.getD 0 0).extractLsb' 0 4
                   modeparm := h.getD 1 0, len := h.getD 2 0 }
               status := { (s.complete 0x08 .ok).status with lenv := false } })

/-- 10_state.md R41, R22: a counted failure increments that counter of that receiver, saturating at
`2^CNT_W - 1`, sets `DIRTY` if the value changed, and changes nothing else. -/
def Obligations.FailureIsCounted : Prop :=
  ∀ (s : State) (k : CntKind) (rx : Nat), s.CountersOk → rx < s.cfg.nRx →
    (∀ k' rx', ((s.countFailure k rx).counter k' rx').toNat =
        if k' = k ∧ rx' = rx then min ((s.counter k rx).toNat + 1) (2 ^ cntBits s.cfg.cntW - 1)
        else (s.counter k' rx').toNat) ∧
      (s.countFailure k rx).status =
        { s.status with
          dirty := s.status.dirty ||
            decide ((s.counter k rx).toNat ≠ 2 ^ cntBits s.cfg.cntW - 1) } ∧
      s.countFailure k rx =
        { s with counters := (s.countFailure k rx).counters,
                 status := (s.countFailure k rx).status }

/-! ## The Reed-Solomon primitive -/

/-- 41_rs_primitive.md R163: the message followed by its `r` parity symbols is a codeword. -/
def Obligations.ParityMakesACodeword : Prop :=
  ∀ (c : RsCfg) (M : List Nat), RsCfg.Valid c → IsWord c M → 1 ≤ M.length → M.length ≤ c.k →
    (rsParity c M).length = c.n - c.k ∧ IsWord c (rsParity c M) ∧ isCodeword c (M ++ rsParity c M) = true

/-- 41_rs_primitive.md R165 P1 and R166 P3: what the decoder returns is a codeword of the same length
in at most `t` positions from the word it was given, so it fails when there is none; a codeword is
returned unchanged. -/
def Obligations.DecoderStaysWithinTheRadius : Prop :=
  ∀ (c : RsCfg) (R : List Nat),
    (∀ C, rsDecode c R = some C → C.length = R.length ∧ isCodeword c C = true ∧
      differences R C ≤ (c.n - c.k) / 2) ∧
      (isCodeword c R = true → rsDecode c R = some R)

/-- 41_rs_primitive.md R165 P2: a codeword in at most `t` positions from the received word is what the
decoder returns. -/
def Obligations.DecoderCorrectsUpToTheRadius : Prop :=
  ∀ (c : RsCfg) (R C : List Nat), RsCfg.Valid c → IsWord c R → IsWord c C →
    R.length = C.length → c.n - c.k < R.length → R.length ≤ c.n → isCodeword c C = true →
    differences R C ≤ (c.n - c.k) / 2 → rsDecode c R = some C

/-! ## Length, payload and whole frames -/

/-- 42_payload_fec.md R195 with R192 and R194: `LENC`. A STAR format without the delegate is
`ERR_PARAM`. -/
def Obligations.LencComputesTheLength : Prop :=
  encode .lenc = 0x00000010 ∧ ∀ s : State,
    exec .lenc s = .next
      (match framingOf s.frame.framing with
       | .primary =>
         match modeEntry s.cfg s.frame.mode s.frame.modeparm with
         | none => s.setLenErr.complete 0x10 .errMode
         | some e =>
           let S := ceilDiv (8 * s.frame.len.toNat) e.capBits
           let tot := 8 + s.frame.len.toNat + S * ceilDiv ((e.rs.n - e.rs.k) * e.rs.m) 8
           if 1024 < tot then s.setLenErr.complete 0x10 .errLen
           else
             { s.complete 0x10 .ok with
               frame := { s.frame with segcnt := BitVec.ofNat 11 S, totlen := BitVec.ofNat 11 tot }
               status := { (s.complete 0x10 .ok).status with lenv := true } }
       | .star sub =>
         if s.cfg.starPresent = true then
           match starTxLen Config.star sub s.frame.mode s.frame.modeparm s.frame.len.toNat with
           | none => s.setLenErr.complete 0x10 .errMode
           | some n =>
             if 1024 < n then s.setLenErr.complete 0x10 .errLen
             else (s.setLenOk 0 n).complete 0x10 .ok
         else s.setLenErr.complete 0x10 .errParam
       | .reserved => s.setLenErr.complete 0x10 .errParam)

/-- 42_payload_fec.md R197: `PENC`. The bytes stored are those of `payload_encode` (R196); in a valid
configuration they are `FB[8 .. TOTLEN-1]`. -/
def Obligations.PencEncodesThePayload : Prop :=
  encode .penc = 0x00000011 ∧ ∀ s : State,
    (∀ f, s.frame.len ≤ s.frame.maxpl → s.frameLen = .ok f → PbWritten s s.frame.len.toNat) →
    ∃ t, exec .penc s = .next t ∧
      if s.frame.maxpl < s.frame.len then t = s.complete 0x11 .errParam
      else
        match s.frameLen with
        | .error c => t = s.setLenErr.complete 0x11 c
        | .ok f =>
          StoredAt s.fb t.fb 8 (payloadEncode f.entry (bytesAt s.pb 0 s.frame.len.toNat)) ∧
            (Cfg.Valid s.cfg →
              (payloadEncode f.entry (bytesAt s.pb 0 s.frame.len.toNat)).length = f.tot - 8) ∧
            t = { (s.setLenOk f.segs f.tot).complete 0x11 .ok with fb := t.fb }

/-- 42_payload_fec.md R198: `PDEC rx`, with its errors in order and what each changes. -/
def Obligations.PdecDecodesThePayload : Prop :=
  (∀ n : BitVec 3, encode (.pdec n.toNat) = 0#20 ++ 0#1 ++ n ++ 0x12#8) ∧
  ∀ (s : State) (rx : Nat),
    (∀ f, rx < s.cfg.nRx → s.frame.rxlen.toNat ≤ 1024 → s.frameLen = .ok f →
      f.tot ≤ s.frame.rxlen.toNat → FbWritten s 8 (f.tot - 8)) →
    ∃ t, exec (.pdec rx) s = .next t ∧
      if s.cfg.nRx ≤ rx ∨ 1024 < s.frame.rxlen.toNat then t = s.complete 0x12 .errParam
      else
        match s.frameLen with
        | .error c => t = s.setLenErr.complete 0x12 c
        | .ok f =>
          if s.frame.rxlen.toNat < f.tot then
            t = (s.setLenOk f.segs f.tot).complete 0x12 .errLen
          else
            match payloadDecode f.entry s.frame.len.toNat (bytesAt s.fb 8 (f.tot - 8)) with
            | none => t = ((s.setLenOk f.segs f.tot).countFailure .pld rx).complete 0x12 .errPld
            | some P =>
              (Cfg.Valid s.cfg → P.length = s.frame.len.toNat) ∧ StoredAt s.pb t.pb 0 P ∧
                t = { (s.setLenOk f.segs f.tot).complete 0x12 .ok with pb := t.pb }

/-- 42_payload_fec.md R199: `FENC`, with its errors in order and what each changes. With the delegate
and `FRAMING` 1 or 2 it does what `SENC` does (R237). -/
def Obligations.FencEncodesTheFrame : Prop :=
  encode .fenc = 0x00000013 ∧ ∀ s : State,
    (∀ sub, framingOf s.frame.framing = .star sub → s.cfg.starPresent = true →
      s.frame.len ≤ s.frame.maxpl → PbWritten s s.frame.len.toNat) →
    (∀ f, s.frame.framing = 0 → s.frame.len ≤ s.frame.maxpl → s.frameLen = .ok f →
      PbWritten s s.frame.len.toNat) →
    ∃ t, exec .fenc s = .next t ∧
      match framingOf s.frame.framing with
      | .reserved => t = s.complete 0x13 .errParam
      | .star sub =>
        if s.cfg.starPresent = false then t = s.complete 0x13 .errParam
        else StarSendResult s t 0x13 sub
      | .primary =>
        if s.frame.maxpl < s.frame.len then t = s.complete 0x13 .errParam
        else
          match s.frameLen with
          | .error c => t = s.setLenErr.complete 0x13 c
          | .ok f =>
            t = { (s.setLenOk f.segs f.tot).complete 0x13 .ok with fb := t.fb } ∧
              (Cfg.Valid s.cfg →
                StoredAt s.fb t.fb 0
                  (headerEncode s.cfg s.frame ++
                    payloadEncode f.entry (bytesAt s.pb 0 s.frame.len.toNat)) ∧
                  (headerEncode s.cfg s.frame).length = 8 ∧
                  (payloadEncode f.entry (bytesAt s.pb 0 s.frame.len.toNat)).length = f.tot - 8)

/-- 30_encoding.md R95, R96 with R97: in what `payload_encode` stores, byte `i < LEN` is payload byte
`i`, and segment `i`'s parity bytes stand at `LEN + i * PAR_BYTES`, computed from its run of payload
bits alone. -/
def Obligations.PayloadWireLayout : Prop :=
  ∀ (e : ModeEntry) (P : List Byte), ModeEntry.Valid e →
    (payloadEncode e P).length = P.length + segCount e P.length * parBytes e ∧
      (∀ i, i < P.length → (payloadEncode e P)[i]? = P[i]?) ∧
      ∀ i j, i < segCount e P.length → j < parBytes e →
        (payloadEncode e P)[P.length + i * parBytes e + j]? =
          (bytesOf (symBits e.rs.m
            (rsParity e.rs (symsOf e.rs.m (((bitsOf P).drop (i * e.capBits)).take e.capBits)))))[j]?

/-- 42_payload_fec.md R200: `FDEC rx`, with its errors in order and what each changes. With the
delegate and `FRAMING` 1 or 2 it does what `SDEC rx` does (R238). -/
def Obligations.FdecDecodesTheFrame : Prop :=
  (∀ n : BitVec 3, encode (.fdec n.toNat) = 0#20 ++ 0#1 ++ n ++ 0x14#8) ∧
  ∀ (s : State) (rx : Nat),
    (∀ sub, framingOf s.frame.framing = .star sub → s.cfg.starPresent = true → rx < s.cfg.nRx →
      StarRecvWritten s sub) →
    (s.frame.framing = 0 → rx < s.cfg.nRx → 8 ≤ s.frame.rxlen.toNat →
      s.frame.rxlen.toNat ≤ 1024 → FbWritten s 0 8 ∧
        ∀ h f, hdrCorrect s.cfg (bytesAt s.fb 0 8) = some h → hcsMatches s.cfg h = true →
          (s.setHeader h).frameLen = .ok f → f.tot ≤ s.frame.rxlen.toNat → FbWritten s 0 f.tot) →
    ∃ t, exec (.fdec rx) s = .next t ∧
      if s.cfg.nRx ≤ rx ∨ 1024 < s.frame.rxlen.toNat then t = s.complete 0x14 .errParam
      else
        match framingOf s.frame.framing with
        | .reserved => t = s.complete 0x14 .errParam
        | .star sub =>
          if s.cfg.starPresent = false then t = s.complete 0x14 .errParam
          else StarRecvResult s t 0x14 rx sub
        | .primary =>
          if s.frame.rxlen.toNat < 8 then t = s.complete 0x14 .errLen
          else
            match hdrCorrect s.cfg (bytesAt s.fb 0 8) with
            | none => t = (s.countFailure .hpar rx).complete 0x14 .errHpar
            | some h =>
              if crc16 s.cfg.hcs (h.take 3) ≠ hcsLoad s.cfg.hcs (h.getD 3 0) (h.getD 4 0) then
                t = (s.countFailure .hcs rx).complete 0x14 .errHcs
              else
                match (s.setHeader h).frameLen with
                | .error c => t = (s.setHeader h).setLenErr.complete 0x14 c
                | .ok f =>
                  if s.frame.rxlen.toNat < f.tot then
                    t = ((s.setHeader h).setLenOk f.segs f.tot).complete 0x14 .errLen
                  else
                    match payloadDecode f.entry (h.getD 2 0).toNat
                        (bytesAt s.fb 8 (f.tot - 8)) with
                    | none =>
                      t = (((s.setHeader h).setLenOk f.segs f.tot).countFailure .pld rx).complete
                        0x14 .errPld
                    | some P =>
                      (Cfg.Valid s.cfg → P.length = (h.getD 2 0).toNat) ∧ StoredAt s.pb t.pb 0 P ∧
                        t = { ((s.setHeader h).setLenOk f.segs f.tot).complete 0x14 .ok with
                              pb := t.pb }

/-- 42_payload_fec.md R201: after `FENC` of a frame of the primary format, `RXLEN <- TOTLEN` and
`FDEC rx` complete with `OK`, give back the header registers and the payload, and change no counter,
whatever `VERSION`, `MODE`, `MODEPARM`, `LEN` and `PB` hold before `FDEC`. -/
def Obligations.FrameRoundTrip : Prop :=
  ∀ (s : State) (rx : Nat) (f : FrameLen) (version mode : BitVec 4) (modeparm len : BitVec 8)
    (m : Memory), Cfg.Valid s.cfg → s.frame.framing = 0 →
    rx < s.cfg.nRx → s.frame.len ≤ s.frame.maxpl → s.frameLen = .ok f →
    PbWritten s s.frame.len.toNat →
    ∃ t u, exec .fenc s = .next t ∧ t.status.code = .ok ∧
      exec (.fdec rx)
        { t with
          frame :=
            { t.frame with
              rxlen := t.frame.totlen, version := version, mode := mode, modeparm := modeparm
              len := len }
          pb := m } = .next u ∧
      u.status.code = .ok ∧ u.frame.version = s.frame.version ∧ u.frame.mode = s.frame.mode ∧
      u.frame.modeparm = s.frame.modeparm ∧ u.frame.len = s.frame.len ∧
      u.counters = s.counters ∧ ∀ a, a < s.frame.len.toNat → Memory.read u.pb a = Memory.read s.pb a

/-- 42_payload_fec.md R202: of the bytes that `FENC` left in `FB`, altered so that the header word has
at most 2 wrong symbols and each segment's word at most `t`, `FDEC rx` in any state that holds them
completes with `OK`, gives the original header fields and payload, and changes no counter. -/
def Obligations.FrameCorrection : Prop :=
  ∀ (s t r : State) (rx : Nat) (f : FrameLen), Cfg.Valid s.cfg → s.frame.framing = 0 →
    s.frameLen = .ok f → exec .fenc s = .next t → t.status.code = .ok →
    r.cfg = s.cfg → r.frame.framing = 0 → rx < r.cfg.nRx → f.tot ≤ r.frame.rxlen.toNat →
    r.frame.rxlen.toNat ≤ 1024 → FbWritten r 0 f.tot →
    differences (headerWord t.fb) (headerWord r.fb) ≤ 2 →
    (∀ i, i < f.segs →
      differences (segmentWord f.entry s.frame.len.toNat t.fb i)
        (segmentWord f.entry s.frame.len.toNat r.fb i) ≤ (f.entry.rs.n - f.entry.rs.k) / 2) →
    ∃ u, exec (.fdec rx) r = .next u ∧ u.status.code = .ok ∧
      u.frame.version = s.frame.version ∧ u.frame.mode = s.frame.mode ∧
      u.frame.modeparm = s.frame.modeparm ∧ u.frame.len = s.frame.len ∧ u.counters = r.counters ∧
      ∀ a, a < s.frame.len.toNat → Memory.read u.pb a = Memory.read s.pb a

/-! ## The STAR delegate: the statements hold for every lawful `StarCfg` (log entry 10) -/

/-- 43_star_legacy.md R230: without the delegate the STAR commands are illegal commands, and `LENC`,
`FENC`, `FDEC` with `FRAMING` 1 (sub-format A) or 2 (sub-format B) complete with `ERR_PARAM`; `LENC`
alone zeroes the length. -/
def Obligations.StarAbsent : Prop :=
  framingOf 1 = .star .a ∧ framingOf 2 = .star .b ∧
  ∀ (s : State) (rx : Nat), s.cfg.starPresent = false →
    exec .slen s = .next (s.complete 0x20 .errIllcmd) ∧
      exec .senc s = .next (s.complete 0x21 .errIllcmd) ∧
      exec (.sdec rx) s = .next (s.complete 0x22 .errIllcmd) ∧
      (s.frame.framing = 1 ∨ s.frame.framing = 2 →
        exec .lenc s = .next (s.setLenErr.complete 0x10 .errParam) ∧
          exec .fenc s = .next (s.complete 0x13 .errParam) ∧
          exec (.fdec rx) s = .next (s.complete 0x14 .errParam))

/-- 43_star_legacy.md R236: `SLEN`; an illegal command without the delegate. -/
def Obligations.SlenComputesTheLength : Prop :=
  encode .slen = 0x00000020 ∧ ∀ s : State,
    (∀ sub, framingOf s.frame.framing = .star sub → s.cfg.starPresent = true →
      s.frame.rxlen.toNat ≤ 1024 → Config.star.hdrLen sub ≤ s.frame.rxlen.toNat →
      FbWritten s 0 (Config.star.hdrLen sub)) →
    exec .slen s = .next
      (if s.cfg.starPresent = false then s.complete 0x20 .errIllcmd
       else
         match framingOf s.frame.framing with
         | .primary => s.setLenErr.complete 0x20 .errParam
         | .reserved => s.setLenErr.complete 0x20 .errParam
         | .star sub =>
           if 1024 < s.frame.rxlen.toNat then s.setLenErr.complete 0x20 .errParam
           else if s.frame.rxlen.toNat < Config.star.hdrLen sub then
             s.setLenErr.complete 0x20 .errLen
           else
             let H := bytesAt s.fb 0 (Config.star.hdrLen sub)
             match Config.star.lenOfHdr sub H with
             | none => s.setLenErr.complete 0x20 .errMode
             | some L =>
               let tot := (Config.star.assemble sub H (List.replicate L 0) 0).length +
                 if (H.getD 2 0 &&& Config.star.fecMask) = 0 then Config.star.fecLen else 0
               if 255 < L then s.setLenErr.complete 0x20 .errMode
               else if 1024 < tot then s.setLenErr.complete 0x20 .errLen
               else ((s.setLen L).setLenOk 0 tot).complete 0x20 .ok)

/-- 43_star_legacy.md R237: `SENC`; an illegal command without the delegate. -/
def Obligations.SencEncodesTheFrame : Prop :=
  encode .senc = 0x00000021 ∧ ∀ s : State,
    (∀ sub, framingOf s.frame.framing = .star sub → s.cfg.starPresent = true →
      s.frame.len ≤ s.frame.maxpl → PbWritten s s.frame.len.toNat) →
    ∃ t, exec .senc s = .next t ∧
      if s.cfg.starPresent = false then t = s.complete 0x21 .errIllcmd
      else
        match framingOf s.frame.framing with
        | .primary => t = s.complete 0x21 .errParam
        | .reserved => t = s.complete 0x21 .errParam
        | .star sub => StarSendResult s t 0x21 sub

/-- 43_star_legacy.md R238: `SDEC rx`; an illegal command without the delegate. -/
def Obligations.SdecDecodesTheFrame : Prop :=
  (∀ n : BitVec 3, encode (.sdec n.toNat) = 0#20 ++ 0#1 ++ n ++ 0x22#8) ∧
  ∀ (s : State) (rx : Nat),
    (∀ sub, framingOf s.frame.framing = .star sub → s.cfg.starPresent = true → rx < s.cfg.nRx →
      StarRecvWritten s sub) →
    ∃ t, exec (.sdec rx) s = .next t ∧
      if s.cfg.starPresent = false then t = s.complete 0x22 .errIllcmd
      else
        match framingOf s.frame.framing with
        | .primary => t = s.complete 0x22 .errParam
        | .reserved => t = s.complete 0x22 .errParam
        | .star sub =>
          if s.cfg.nRx ≤ rx ∨ 1024 < s.frame.rxlen.toNat then t = s.complete 0x22 .errParam
          else StarRecvResult s t 0x22 rx sub

/-- 43_star_legacy.md R239: where `SENC` completes with `OK`, `SDEC rx` of its output with
`RXLEN = TOTLEN` completes with `OK` and returns the payload and its length. (That the round trip is
asked with this `RXLEN`, and of every frame with which `SENC` completes with `OK`, is the model's
reading of R239: log entry 10.) -/
def Obligations.StarRoundTrip : Prop :=
  ∀ (s : State) (rx : Nat) (m : Memory), s.cfg.starPresent = true →
    s.frame.framing = 1 ∨ s.frame.framing = 2 → rx < s.cfg.nRx → s.frame.len ≤ s.frame.maxpl →
    PbWritten s s.frame.len.toNat →
    ∃ t, exec .senc s = .next t ∧
      (t.status.code = .ok →
        ∃ u, exec (.sdec rx)
            { t with frame := { t.frame with rxlen := t.frame.totlen }, pb := m } = .next u ∧
          u.status.code = .ok ∧ u.frame.len = s.frame.len ∧ u.counters = s.counters ∧
          ∀ a, a < s.frame.len.toNat → Memory.read u.pb a = Memory.read s.pb a)

/-! ## The thermal unit -/

/-- 44_thermal.md R255: `TTXD` adds the operands to the pending pair, saturating at `2^32 - 1`. -/
def Obligations.TtxdAccumulates : Prop :=
  encode .ttxd = 0x00000030 ∧ ∀ s : State, ∃ t, exec .ttxd s = .next t ∧
    t.thermal.pendB.toNat = min (2 ^ 32 - 1) (s.thermal.pendB.toNat + s.thermal.txb.toNat) ∧
    t.thermal.pendMs.toNat = min (2 ^ 32 - 1) (s.thermal.pendMs.toNat + s.thermal.txms.toNat) ∧
    t = { s.complete 0x30 .ok with
          thermal := { s.thermal with pendB := t.thermal.pendB, pendMs := t.thermal.pendMs } }

/-- 44_thermal.md R256 and R257: `TTICK` adds the pending rise, decays, applies the floor and clears the
pending pair, in exact integers saturated to 32 signed bits; then the flag is evaluated on the new
temperature, its count moves on the rising edge only, and `DIRTY` is set on either edge. -/
def Obligations.TtickIntegratesAndEvaluates : Prop :=
  encode .ttick = 0x00000031 ∧ ∀ s : State, ∃ t, exec .ttick s = .next t ∧
    (let v1 := satS32 (s.thermal.vt.toInt +
        (s.thermal.pendB.toNat * s.cfg.therm.kByte + s.thermal.pendMs.toNat * s.cfg.therm.kMs))
     let d : Int := if v1 > s.cfg.therm.tTrans then s.cfg.therm.dFast else s.cfg.therm.dSlow
     t.thermal.vt.toInt = max (satS32 (v1 - d)) s.thermal.sensed.toInt) ∧
    (t.status.engaged = true ↔ s.thermal.protEn = true ∧
      (t.thermal.vt.toInt > s.cfg.therm.tLimit ∨
        s.status.engaged = true ∧ t.thermal.vt.toInt > s.cfg.therm.tRelease)) ∧
    t.thermal.engcnt =
      (if t.status.engaged = true ∧ s.status.engaged = false then
        satInc s.cfg.cntW s.thermal.engcnt
       else s.thermal.engcnt) ∧
    (t.status.dirty = true ↔ s.status.dirty = true ∨ t.status.engaged ≠ s.status.engaged) ∧
    t = { s.complete 0x31 .ok with
          thermal :=
            { s.thermal with
              vt := t.thermal.vt, pendB := 0, pendMs := 0, engcnt := t.thermal.engcnt }
          status :=
            { (s.complete 0x31 .ok).status with
              engaged := t.status.engaged, dirty := t.status.dirty } }

/-- 44_thermal.md R258: `TBKOF` computes the delay from how far the projected temperature is over each
regime's threshold, raised to `MIN_BACKOFF` while the flag is set, 0 while protection is off; nothing
else changes. -/
def Obligations.TbkofComputesTheDelay : Prop :=
  encode .tbkof = 0x00000032 ∧ ∀ s : State, ∃ t, exec .tbkof s = .next t ∧
    (let th := s.cfg.therm
     let tp := satS32 (s.thermal.vt.toInt +
        (s.thermal.pendB.toNat * th.kByte + s.thermal.pendMs.toNat * th.kMs) +
        (s.thermal.txb.toNat * th.kByte + s.thermal.txms.toNat * th.kMs))
     let xFast := max 0 (tp - th.thFast)
     let xSlow := max 0 (min tp th.thFast - th.thSlow)
     let delay := (xFast + th.dFast - 1) / th.dFast + (xSlow + th.dSlow - 1) / th.dSlow
     (t.thermal.backoff.toNat : Int) =
       if s.thermal.protEn = true then
         min (2 ^ 32 - 1) (if s.status.engaged = true then max delay th.minBackoff else delay)
       else 0) ∧
    t = { s.complete 0x32 .ok with thermal := { s.thermal with backoff := t.thermal.backoff } }

/-- 44_thermal.md R259: `TCLR` clears the flag and its count and nothing else. -/
def Obligations.TclrClearsTheFlag : Prop :=
  encode .tclr = 0x00000033 ∧ ∀ s : State, exec .tclr s = .next
    { s.complete 0x33 .ok with
      thermal := { s.thermal with engcnt := 0 }
      status := { (s.complete 0x33 .ok).status with engaged := false } }

/-! ## The system commands -/

/-- 45_system.md R290: `NOP` completes with `OK`. -/
def Obligations.NopOnlyCompletes : Prop :=
  encode .nop = 0x00000000 ∧ ∀ s : State, exec .nop s = .next
    { s with phase := .idle, status := { s.status with done := true, code := .ok, lastop := 0x00 } }

/-- 45_system.md R291: `CLRCNT` clears the counters of one receiver, or of all whatever `RX` is; a
receiver the instance does not have is `ERR_PARAM` and clears nothing. -/
def Obligations.ClrcntClearsCounters : Prop :=
  (∀ (n : BitVec 3) (all : Bool),
    encode (.clrcnt n.toNat all) = 0#20 ++ BitVec.ofBool all ++ n ++ 0x3E#8) ∧
  ∀ (s : State) (rx : Nat) (all : Bool), ∃ t, exec (.clrcnt rx all) s = .next t ∧
    if all = false ∧ s.cfg.nRx ≤ rx then t = s.complete 0x3E .errParam
    else
      (∀ k r, t.counter k r = if all = true ∨ r = rx then 0 else s.counter k r) ∧
        t.counters.length = s.counters.length ∧
        t = { s.complete 0x3E .ok with counters := t.counters }

/-- 45_system.md R292: `SRST` leaves `STATUS = 0x003F0002`, every other register and counter at its
reset value, the buffers unwritten and `irq` low. -/
def Obligations.SrstResets : Prop :=
  encode .srst = 0x0000003F ∧ ∀ s : State,
    ∃ t, exec .srst s = .next t ∧ t.statusWord = 0x003F0002 ∧ t.irq = false ∧
    (∀ r, r ≠ .status → t.readReg r = (State.resetWith s.cfg).readReg r) ∧
    (∀ a, Memory.read t.fb a = none) ∧ (∀ a, Memory.read t.pb a = none) ∧ t.phase = .idle

/-! ## The whole machine -/

/-- 60_exceptions.md R304, 20_memory.md R68, 10_state.md R42: a command that completes with an error has
written no byte of `FB` or `PB`; a command outside the lists of R68 writes none of that buffer, so the
receive commands never modify `FB`. -/
def Obligations.BuffersChangeOnlyAsListed : Prop :=
  ∀ (i : Instr) (s t : State), exec i s = .next t →
    (t.status.code ≠ .ok ∨ Instr.writesFb i = false →
      ∀ a, Memory.read t.fb a = Memory.read s.fb a) ∧
      (t.status.code ≠ .ok ∨ Instr.writesPb i = false →
        ∀ a, Memory.read t.pb a = Memory.read s.pb a)

/-- 10_state.md R40 with 42_payload_fec.md R200: apart from `CLRCNT` and `SRST`, only a receive command
changes a failure counter, and then one counter, of the receiver it names, by a saturating increment. -/
def Obligations.CountersMoveOneAtATime : Prop :=
  ∀ (i : Instr) (s t : State), exec i s = .next t → Instr.clears i = false →
    t.counters = s.counters ∨
      ∃ rx k, Instr.chargedRx i = some rx ∧ rx < s.cfg.nRx ∧ t.status.code ≠ .ok ∧
        t.counters = (s.countFailure k rx).counters

/-- 10_state.md R22: through a command other than `CLRCNT`, `TCLR` and `SRST`, `DIRTY` becomes set
exactly when a failure counter, `T_ENGCNT` or `ENGAGED` changes value; those three never set it. -/
def Obligations.DirtyExactlyOnChange : Prop :=
  ∀ (i : Instr) (s t : State), s.CountersOk → exec i s = .next t →
    if Instr.clears i = true then t.status.dirty = true → s.status.dirty = true
    else
      (t.status.dirty = true ↔ s.status.dirty = true ∨ t.counters ≠ s.counters ∨
        t.thermal.engcnt ≠ s.thermal.engcnt ∨ t.status.engaged ≠ s.status.engaged)

/-- 70_reset_and_hazards.md R354 with 10_state.md R27, R28, R36, R37, R45: no command but `SRST` writes
`FRAMING`, `MAXPL`, `RXLEN`, `IRQEN`, `PROT_EN`, `T_SENSED`, `T_TXB`, `T_TXMS` or `OVR`; only the thermal
commands and `SRST` change a thermal register or `ENGAGED`. (That these rules leave `SRST` out is the
model's reading: log entry 17.) -/
def Obligations.CommandsLeaveTheHostsRegisters : Prop :=
  ∀ (i : Instr) (s t : State), exec i s = .next t →
    (i ≠ .srst →
      t.frame.framing = s.frame.framing ∧ t.frame.maxpl = s.frame.maxpl ∧
        t.frame.rxlen = s.frame.rxlen ∧ t.irqen = s.irqen ∧
        t.thermal.protEn = s.thermal.protEn ∧ t.thermal.sensed = s.thermal.sensed ∧
        t.thermal.txb = s.thermal.txb ∧ t.thermal.txms = s.thermal.txms ∧
        t.status.ovr = s.status.ovr) ∧
      (Instr.thermalOrReset i = false →
        t.thermal = s.thermal ∧ t.status.engaged = s.status.engaged)

/-- 10_state.md R49 and 20_memory.md R70: no step changes the configuration, and a step takes exactly
the head of the input list, the model's own way to hold the host's order (log entry 2). -/
def Obligations.ConfigurationNeverChanges : Prop :=
  ∀ s t : State, step s = .next t → t.cfg = s.cfg ∧ t.inputs = s.inputs.tail

/-- 10_state.md R39 to R43 with 00_scope.md R7 to R12, an invariant that every step keeps: a valid
configuration, buffers in canonical form and inside their sizes, `N_RX` triples of counters, every
counter below `2^CNT_W`. (That a STAR receive stays inside `PB` rests on R43 as a law of the delegate,
`decoded_le`: log entry 10.) -/
def Obligations.EveryStepKeepsTheInvariant : Prop :=
  ∀ s t : State, s.Inv → step s = .next t → t.Inv

/-- The invariant holds after reset, in every valid configuration and in the one the model's reset
carries (log entry 1). -/
def Obligations.ResetHasTheInvariant : Prop :=
  (∀ c : Cfg, Cfg.Valid c → (State.resetWith c).Inv) ∧ State.reset.Inv

/-- 10_state.md R22, R29 and 70_reset_and_hazards.md R351, an invariant that every step keeps: while
`LENV = 1` and `FRAMING = 0`, `TOTLEN` and `SEGCNT` are the length of the frame that the current `MODE`,
`MODEPARM`, `LEN` describe. It holds after reset. -/
def Obligations.EveryStepKeepsTheLengthFresh : Prop :=
  (∀ s t : State, s.LengthFresh → step s = .next t → t.LengthFresh) ∧
    ∀ c : Cfg, (State.resetWith c).LengthFresh
end

