-- ==== Sys2Proof/Laws/Memory.lean ====
section
/-! SUPPORT. The laws of a buffer: reading after writing, and the canonical form. -/

namespace Sys2Proof.Machine

@[simp] theorem read_nil (i : Nat) : Memory.read [] i = none := rfl

theorem read_cons (a : Nat) (b : Byte) (m : Memory) (i : Nat) :
    Memory.read ((a, b) :: m) i = if i = a then some b else Memory.read m i := rfl

/-- A read after a write gives the byte written at its index, and elsewhere what was there. -/
theorem read_write (m : Memory) (i : Nat) (v : Byte) (j : Nat) :
    Memory.read (Memory.write m i v) j = if j = i then some v else Memory.read m j := by
  induction m with
  | nil => rfl
  | cons p m ih =>
    obtain ⟨a, b⟩ := p
    simp only [Memory.write]
    split
    · simp only [read_cons]
    · split
      · subst_vars; simp only [read_cons]; split <;> rfl
      · simp only [read_cons, ih]
        by_cases hja : j = a
        · have : j ≠ i := by omega
          simp [hja]; intro; omega
        · simp [hja]

@[simp] theorem read_write_same (m : Memory) (i : Nat) (v : Byte) :
    Memory.read (Memory.write m i v) i = some v := by simp [read_write]

theorem read_write_other (m : Memory) {i j : Nat} (v : Byte) (h : j ≠ i) :
    Memory.read (Memory.write m i v) j = Memory.read m j := by simp [read_write, h]

/-- Everything a consecutive write does to reads. -/
theorem read_writeBytes (bs : List Byte) (m : Memory) (i j : Nat) :
    Memory.read (Memory.writeBytes m i bs) j =
      if i ≤ j ∧ j < i + bs.length then bs[j - i]? else Memory.read m j := by
  induction bs generalizing m i with
  | nil => simp [Memory.writeBytes]
  | cons b bs ih =>
    simp only [Memory.writeBytes, ih, read_write, List.length_cons]
    by_cases hji : j = i
    · subst hji; simp
    · by_cases hin : i + 1 ≤ j ∧ j < i + 1 + bs.length
      · have h1 : i ≤ j ∧ j < i + (bs.length + 1) := by omega
        have h2 : j - i = (j - (i + 1)) + 1 := by omega
        simp [hin, h1, h2]
      · have h1 : ¬(i ≤ j ∧ j < i + (bs.length + 1)) := by omega
        rw [if_neg hin, if_neg hji, if_neg h1]

/-- A consecutive write stores its bytes and nothing else. -/
theorem writeBytes_storedAt (m : Memory) (i : Nat) (bs : List Byte) :
    StoredAt m (Memory.writeBytes m i bs) i bs := by
  constructor
  · intro j hj
    have : i ≤ i + j ∧ i + j < i + bs.length := by omega
    simp [read_writeBytes, this]
  · intro a ha
    have : ¬(i ≤ a ∧ a < i + bs.length) := by omega
    simp [read_writeBytes, this]

/-- Writing one run and then the next is writing them together. -/
theorem writeBytes_append (m : Memory) (i : Nat) (as bs : List Byte) :
    Memory.writeBytes m i (as ++ bs) =
      Memory.writeBytes (Memory.writeBytes m i as) (i + as.length) bs := by
  induction as generalizing m i with
  | nil => simp [Memory.writeBytes]
  | cons a as ih =>
    have : i + 1 + as.length = i + (as.length + 1) := by omega
    simp [Memory.writeBytes, ih, this]

theorem mem_write {m : Memory} {i : Nat} {v : Byte} {p : Host.Cell}
    (h : p ∈ Memory.write m i v) : p = (i, v) ∨ p ∈ m := by
  induction m with
  | nil => simpa [Memory.write] using h
  | cons q m ih =>
    obtain ⟨a, b⟩ := q
    simp only [Memory.write] at h
    split at h
    · simpa using h
    · split at h
      · rcases List.mem_cons.mp h with h | h
        · exact .inl h
        · exact .inr (List.mem_cons_of_mem _ h)
      · rcases List.mem_cons.mp h with h | h
        · exact .inr (h ▸ List.mem_cons_self)
        · exact (ih h).imp id (List.mem_cons_of_mem _)

/-- A write keeps the canonical form. -/
theorem write_wf {m : Memory} (hm : Memory.wf m) (i : Nat) (v : Byte) :
    Memory.wf (Memory.write m i v) := by
  induction m with
  | nil => simp [Memory.write, Memory.wf]
  | cons q m ih =>
    obtain ⟨a, b⟩ := q
    obtain ⟨hq, hm'⟩ := List.pairwise_cons.mp hm
    simp only [Memory.write]
    split
    · refine List.pairwise_cons.mpr ⟨fun p hp => ?_, hm⟩
      rcases List.mem_cons.mp hp with rfl | hp
      · assumption
      · exact Nat.lt_trans ‹i < a› (hq p hp)
    · split
      · subst_vars; exact List.pairwise_cons.mpr ⟨hq, hm'⟩
      · refine List.pairwise_cons.mpr ⟨fun p hp => ?_, ih hm'⟩
        rcases mem_write hp with rfl | hp
        · show a < i; omega
        · exact hq p hp

/-- A consecutive write keeps the canonical form. -/
theorem writeBytes_wf {m : Memory} (hm : Memory.wf m) (i : Nat) (bs : List Byte) :
    Memory.wf (Memory.writeBytes m i bs) := by
  induction bs generalizing m i with
  | nil => exact hm
  | cons b bs ih => exact ih (write_wf hm i b) (i + 1)

/-- A write inside the buffer keeps every index inside it. -/
theorem write_within {size : Nat} {m : Memory} (hm : Memory.within size m) {i : Nat} (hi : i < size)
    (v : Byte) : Memory.within size (Memory.write m i v) := fun p hp =>
  (mem_write hp).elim (fun h => h ▸ hi) (hm p)

/-- A consecutive write inside the buffer keeps every index inside it. -/
theorem writeBytes_within {size : Nat} {m : Memory} (hm : Memory.within size m) (i : Nat)
    (bs : List Byte) (h : i + bs.length ≤ size) :
    Memory.within size (Memory.writeBytes m i bs) := by
  induction bs generalizing m i with
  | nil => exact hm
  | cons b bs ih =>
    simp only [List.length_cons] at h
    exact ih (write_within hm (by omega) b) (i + 1) (by omega)

@[simp] theorem bytesAt_length (m : Memory) (i n : Nat) : (bytesAt m i n).length = n := by simp [bytesAt]

/-- The first `k` of a run of bytes. -/
theorem bytesAt_take (m : Memory) (i : Nat) {n k : Nat} (h : k ≤ n) :
    (bytesAt m i n).take k = bytesAt m i k := by
  simp [bytesAt, ← List.map_take, List.take_range, Nat.min_eq_left h]

/-- A run of bytes without its first `k`. -/
theorem bytesAt_drop (m : Memory) (i n k : Nat) :
    (bytesAt m i n).drop k = bytesAt m (i + k) (n - k) := by
  apply List.ext_getElem
  · simp
  · intro j h1 h2; simp [bytesAt, Nat.add_assoc]

theorem bytesAt_succ (m : Memory) (i n : Nat) :
    bytesAt m i (n + 1) = (Memory.read m i).getD 0 :: bytesAt m (i + 1) n := by
  simp only [bytesAt, List.range_succ_eq_map, List.map_cons, Nat.add_zero, List.map_map]
  congr 1
  apply List.map_congr_left
  intro j _
  have : i + (j + 1) = i + 1 + j := by omega
  simp [this]

/-- Reading a run of written bytes gives them. -/
theorem readBytes_written (m : Memory) (i n : Nat)
    (h : ∀ a, i ≤ a → a < i + n → Memory.read m a ≠ none) :
    Memory.readBytes m i n = .ok (bytesAt m i n) := by
  induction n generalizing i with
  | zero => rfl
  | succ n ih =>
    have h0 := h i (Nat.le_refl i) (by omega)
    obtain ⟨b, hb⟩ := Option.ne_none_iff_exists'.mp h0
    have hr := ih (i + 1) fun a h1 h2 => h a (by omega) (by omega)
    simp only [Memory.readBytes, hb, hr, bytesAt_succ, Option.getD_some]

/-- A run that reads gives the bytes of the buffer, all of them written. -/
theorem readBytes_ok {m : Memory} {i n : Nat} {bs : List Byte} (h : Memory.readBytes m i n = .ok bs) :
    bs = bytesAt m i n ∧ ∀ a, i ≤ a → a < i + n → Memory.read m a ≠ none := by
  induction n generalizing i bs with
  | zero => cases h; exact ⟨rfl, fun a _ _ => by omega⟩
  | succ n ih =>
    simp only [Memory.readBytes] at h
    split at h
    · cases h
    · rename_i b hb
      split at h
      · cases h
      · rename_i bs' hbs
        cases h
        obtain ⟨hbs', hw⟩ := ih hbs
        refine ⟨by rw [bytesAt_succ, hb, ← hbs', Option.getD_some], fun a h1 h2 => ?_⟩
        by_cases ha : a = i
        · rw [ha, hb]; exact Option.some_ne_none b
        · exact hw a (by omega) (by omega)

theorem readBytes_length {m : Memory} {i n : Nat} {bs : List Byte}
    (h : Memory.readBytes m i n = .ok bs) : bs.length = n := by
  rw [(readBytes_ok h).1, bytesAt_length]

/-- Reading back exactly the run just written gives its bytes. -/
theorem readBytes_writeBytes_same (m : Memory) (i : Nat) (bs : List Byte) :
    Memory.readBytes (Memory.writeBytes m i bs) i bs.length = .ok bs := by
  have hread : ∀ a, i ≤ a → a < i + bs.length →
      Memory.read (Memory.writeBytes m i bs) a = bs[a - i]? := fun a h1 h2 => by
    simp [read_writeBytes, h1, h2]
  rw [readBytes_written]
  · congr 1
    apply List.ext_getElem (by simp [bytesAt])
    intro j h1 h2
    simp only [bytesAt, List.getElem_map, List.getElem_range]
    rw [hread (i + j) (by omega) (by omega)]
    simp [h2]
  · intro a h1 h2
    rw [hread a h1 h2]
    simp; omega

/-- A run outside a write reads as before. -/
theorem readBytes_congr {m m' : Memory} {i n : Nat}
    (h : ∀ a, i ≤ a → a < i + n → Memory.read m' a = Memory.read m a) :
    Memory.readBytes m' i n = Memory.readBytes m i n := by
  induction n generalizing i with
  | zero => rfl
  | succ n ih =>
    have h0 := h i (Nat.le_refl i) (by omega)
    have hr := ih (i := i + 1) fun a h1 h2 => h a (by omega) (by omega)
    simp only [Memory.readBytes, h0, hr]

end Sys2Proof.Machine
end

