-- ==== Sys2Proof/Laws/State.lean ====
section
/-! SUPPORT. What each named update leaves in each field of the state: one lemma per field, true by
`rfl`, so that no later proof unfolds an update. -/

namespace Sys2Proof.Machine

variable (s : State)


@[simp] theorem complete_cfg (op : BitVec 8) (c : ResultCode) : (s.complete op c).cfg = s.cfg := rfl
@[simp] theorem complete_phase (op : BitVec 8) (c : ResultCode) :
    (s.complete op c).phase = .idle := rfl
@[simp] theorem complete_status_done (op : BitVec 8) (c : ResultCode) :
    (s.complete op c).status.done = true := rfl
@[simp] theorem complete_status_ovr (op : BitVec 8) (c : ResultCode) :
    (s.complete op c).status.ovr = s.status.ovr := rfl
@[simp] theorem complete_status_dirty (op : BitVec 8) (c : ResultCode) :
    (s.complete op c).status.dirty = s.status.dirty := rfl
@[simp] theorem complete_status_engaged (op : BitVec 8) (c : ResultCode) :
    (s.complete op c).status.engaged = s.status.engaged := rfl
@[simp] theorem complete_status_lenv (op : BitVec 8) (c : ResultCode) :
    (s.complete op c).status.lenv = s.status.lenv := rfl
@[simp] theorem complete_status_code (op : BitVec 8) (c : ResultCode) :
    (s.complete op c).status.code = c := rfl
@[simp] theorem complete_status_lastop (op : BitVec 8) (c : ResultCode) :
    (s.complete op c).status.lastop = op := rfl
@[simp] theorem complete_frame (op : BitVec 8) (c : ResultCode) :
    (s.complete op c).frame = s.frame := rfl
@[simp] theorem complete_irqen (op : BitVec 8) (c : ResultCode) :
    (s.complete op c).irqen = s.irqen := rfl
@[simp] theorem complete_thermal (op : BitVec 8) (c : ResultCode) :
    (s.complete op c).thermal = s.thermal := rfl
@[simp] theorem complete_counters (op : BitVec 8) (c : ResultCode) :
    (s.complete op c).counters = s.counters := rfl
@[simp] theorem complete_fb (op : BitVec 8) (c : ResultCode) : (s.complete op c).fb = s.fb := rfl
@[simp] theorem complete_pb (op : BitVec 8) (c : ResultCode) : (s.complete op c).pb = s.pb := rfl
@[simp] theorem complete_inputs (op : BitVec 8) (c : ResultCode) :
    (s.complete op c).inputs = s.inputs := rfl
@[simp] theorem complete_rdata (op : BitVec 8) (c : ResultCode) :
    (s.complete op c).rdata = s.rdata := rfl
@[simp] theorem complete_freeReads (op : BitVec 8) (c : ResultCode) :
    (s.complete op c).freeReads = s.freeReads := rfl

@[simp] theorem acknowledge_cfg (w : Word) : (s.acknowledge w).cfg = s.cfg := rfl
@[simp] theorem acknowledge_phase (w : Word) : (s.acknowledge w).phase = s.phase := rfl
@[simp] theorem acknowledge_status_done (w : Word) :
    (s.acknowledge w).status.done = (s.status.done && !w.getLsbD 1) := rfl
@[simp] theorem acknowledge_status_ovr (w : Word) :
    (s.acknowledge w).status.ovr = (s.status.ovr && !w.getLsbD 3) := rfl
@[simp] theorem acknowledge_status_dirty (w : Word) :
    (s.acknowledge w).status.dirty = (s.status.dirty && !w.getLsbD 4) := rfl
@[simp] theorem acknowledge_status_engaged (w : Word) :
    (s.acknowledge w).status.engaged = s.status.engaged := rfl
@[simp] theorem acknowledge_status_lenv (w : Word) :
    (s.acknowledge w).status.lenv = s.status.lenv := rfl
@[simp] theorem acknowledge_status_code (w : Word) :
    (s.acknowledge w).status.code = s.status.code := rfl
@[simp] theorem acknowledge_status_lastop (w : Word) :
    (s.acknowledge w).status.lastop = s.status.lastop := rfl
@[simp] theorem acknowledge_frame (w : Word) : (s.acknowledge w).frame = s.frame := rfl
@[simp] theorem acknowledge_irqen (w : Word) : (s.acknowledge w).irqen = s.irqen := rfl
@[simp] theorem acknowledge_thermal (w : Word) : (s.acknowledge w).thermal = s.thermal := rfl
@[simp] theorem acknowledge_counters (w : Word) : (s.acknowledge w).counters = s.counters := rfl
@[simp] theorem acknowledge_fb (w : Word) : (s.acknowledge w).fb = s.fb := rfl
@[simp] theorem acknowledge_pb (w : Word) : (s.acknowledge w).pb = s.pb := rfl
@[simp] theorem acknowledge_inputs (w : Word) : (s.acknowledge w).inputs = s.inputs := rfl
@[simp] theorem acknowledge_rdata (w : Word) : (s.acknowledge w).rdata = s.rdata := rfl
@[simp] theorem acknowledge_freeReads (w : Word) : (s.acknowledge w).freeReads = s.freeReads := rfl

@[simp] theorem setOvr_cfg : (s.setOvr).cfg = s.cfg := rfl
@[simp] theorem setOvr_phase : (s.setOvr).phase = s.phase := rfl
@[simp] theorem setOvr_status_done : (s.setOvr).status.done = s.status.done := rfl
@[simp] theorem setOvr_status_ovr : (s.setOvr).status.ovr = true := rfl
@[simp] theorem setOvr_status_dirty : (s.setOvr).status.dirty = s.status.dirty := rfl
@[simp] theorem setOvr_status_engaged : (s.setOvr).status.engaged = s.status.engaged := rfl
@[simp] theorem setOvr_status_lenv : (s.setOvr).status.lenv = s.status.lenv := rfl
@[simp] theorem setOvr_status_code : (s.setOvr).status.code = s.status.code := rfl
@[simp] theorem setOvr_status_lastop : (s.setOvr).status.lastop = s.status.lastop := rfl
@[simp] theorem setOvr_frame : (s.setOvr).frame = s.frame := rfl
@[simp] theorem setOvr_irqen : (s.setOvr).irqen = s.irqen := rfl
@[simp] theorem setOvr_thermal : (s.setOvr).thermal = s.thermal := rfl
@[simp] theorem setOvr_counters : (s.setOvr).counters = s.counters := rfl
@[simp] theorem setOvr_fb : (s.setOvr).fb = s.fb := rfl
@[simp] theorem setOvr_pb : (s.setOvr).pb = s.pb := rfl
@[simp] theorem setOvr_inputs : (s.setOvr).inputs = s.inputs := rfl
@[simp] theorem setOvr_rdata : (s.setOvr).rdata = s.rdata := rfl
@[simp] theorem setOvr_freeReads : (s.setOvr).freeReads = s.freeReads := rfl

@[simp] theorem clearLenv_cfg : (s.clearLenv).cfg = s.cfg := rfl
@[simp] theorem clearLenv_phase : (s.clearLenv).phase = s.phase := rfl
@[simp] theorem clearLenv_status_done : (s.clearLenv).status.done = s.status.done := rfl
@[simp] theorem clearLenv_status_ovr : (s.clearLenv).status.ovr = s.status.ovr := rfl
@[simp] theorem clearLenv_status_dirty : (s.clearLenv).status.dirty = s.status.dirty := rfl
@[simp] theorem clearLenv_status_engaged : (s.clearLenv).status.engaged = s.status.engaged := rfl
@[simp] theorem clearLenv_status_lenv : (s.clearLenv).status.lenv = false := rfl
@[simp] theorem clearLenv_status_code : (s.clearLenv).status.code = s.status.code := rfl
@[simp] theorem clearLenv_status_lastop : (s.clearLenv).status.lastop = s.status.lastop := rfl
@[simp] theorem clearLenv_frame : (s.clearLenv).frame = s.frame := rfl
@[simp] theorem clearLenv_irqen : (s.clearLenv).irqen = s.irqen := rfl
@[simp] theorem clearLenv_thermal : (s.clearLenv).thermal = s.thermal := rfl
@[simp] theorem clearLenv_counters : (s.clearLenv).counters = s.counters := rfl
@[simp] theorem clearLenv_fb : (s.clearLenv).fb = s.fb := rfl
@[simp] theorem clearLenv_pb : (s.clearLenv).pb = s.pb := rfl
@[simp] theorem clearLenv_inputs : (s.clearLenv).inputs = s.inputs := rfl
@[simp] theorem clearLenv_rdata : (s.clearLenv).rdata = s.rdata := rfl
@[simp] theorem clearLenv_freeReads : (s.clearLenv).freeReads = s.freeReads := rfl

@[simp] theorem setLenOk_cfg (segs tot : Nat) : (s.setLenOk segs tot).cfg = s.cfg := rfl
@[simp] theorem setLenOk_phase (segs tot : Nat) : (s.setLenOk segs tot).phase = s.phase := rfl
@[simp] theorem setLenOk_status_done (segs tot : Nat) :
    (s.setLenOk segs tot).status.done = s.status.done := rfl
@[simp] theorem setLenOk_status_ovr (segs tot : Nat) :
    (s.setLenOk segs tot).status.ovr = s.status.ovr := rfl
@[simp] theorem setLenOk_status_dirty (segs tot : Nat) :
    (s.setLenOk segs tot).status.dirty = s.status.dirty := rfl
@[simp] theorem setLenOk_status_engaged (segs tot : Nat) :
    (s.setLenOk segs tot).status.engaged = s.status.engaged := rfl
@[simp] theorem setLenOk_status_lenv (segs tot : Nat) :
    (s.setLenOk segs tot).status.lenv = true := rfl
@[simp] theorem setLenOk_status_code (segs tot : Nat) :
    (s.setLenOk segs tot).status.code = s.status.code := rfl
@[simp] theorem setLenOk_status_lastop (segs tot : Nat) :
    (s.setLenOk segs tot).status.lastop = s.status.lastop := rfl
@[simp] theorem setLenOk_frame_version (segs tot : Nat) :
    (s.setLenOk segs tot).frame.version = s.frame.version := rfl
@[simp] theorem setLenOk_frame_mode (segs tot : Nat) :
    (s.setLenOk segs tot).frame.mode = s.frame.mode := rfl
@[simp] theorem setLenOk_frame_modeparm (segs tot : Nat) :
    (s.setLenOk segs tot).frame.modeparm = s.frame.modeparm := rfl
@[simp] theorem setLenOk_frame_len (segs tot : Nat) :
    (s.setLenOk segs tot).frame.len = s.frame.len := rfl
@[simp] theorem setLenOk_frame_framing (segs tot : Nat) :
    (s.setLenOk segs tot).frame.framing = s.frame.framing := rfl
@[simp] theorem setLenOk_frame_rxlen (segs tot : Nat) :
    (s.setLenOk segs tot).frame.rxlen = s.frame.rxlen := rfl
@[simp] theorem setLenOk_frame_totlen (segs tot : Nat) :
    (s.setLenOk segs tot).frame.totlen = BitVec.ofNat 11 tot := rfl
@[simp] theorem setLenOk_frame_segcnt (segs tot : Nat) :
    (s.setLenOk segs tot).frame.segcnt = BitVec.ofNat 11 segs := rfl
@[simp] theorem setLenOk_frame_maxpl (segs tot : Nat) :
    (s.setLenOk segs tot).frame.maxpl = s.frame.maxpl := rfl
@[simp] theorem setLenOk_irqen (segs tot : Nat) : (s.setLenOk segs tot).irqen = s.irqen := rfl
@[simp] theorem setLenOk_thermal (segs tot : Nat) : (s.setLenOk segs tot).thermal = s.thermal := rfl
@[simp] theorem setLenOk_counters (segs tot : Nat) :
    (s.setLenOk segs tot).counters = s.counters := rfl
@[simp] theorem setLenOk_fb (segs tot : Nat) : (s.setLenOk segs tot).fb = s.fb := rfl
@[simp] theorem setLenOk_pb (segs tot : Nat) : (s.setLenOk segs tot).pb = s.pb := rfl
@[simp] theorem setLenOk_inputs (segs tot : Nat) : (s.setLenOk segs tot).inputs = s.inputs := rfl
@[simp] theorem setLenOk_rdata (segs tot : Nat) : (s.setLenOk segs tot).rdata = s.rdata := rfl
@[simp] theorem setLenOk_freeReads (segs tot : Nat) :
    (s.setLenOk segs tot).freeReads = s.freeReads := rfl

@[simp] theorem setLenErr_cfg : (s.setLenErr).cfg = s.cfg := rfl
@[simp] theorem setLenErr_phase : (s.setLenErr).phase = s.phase := rfl
@[simp] theorem setLenErr_status_done : (s.setLenErr).status.done = s.status.done := rfl
@[simp] theorem setLenErr_status_ovr : (s.setLenErr).status.ovr = s.status.ovr := rfl
@[simp] theorem setLenErr_status_dirty : (s.setLenErr).status.dirty = s.status.dirty := rfl
@[simp] theorem setLenErr_status_engaged : (s.setLenErr).status.engaged = s.status.engaged := rfl
@[simp] theorem setLenErr_status_lenv : (s.setLenErr).status.lenv = false := rfl
@[simp] theorem setLenErr_status_code : (s.setLenErr).status.code = s.status.code := rfl
@[simp] theorem setLenErr_status_lastop : (s.setLenErr).status.lastop = s.status.lastop := rfl
@[simp] theorem setLenErr_frame_version : (s.setLenErr).frame.version = s.frame.version := rfl
@[simp] theorem setLenErr_frame_mode : (s.setLenErr).frame.mode = s.frame.mode := rfl
@[simp] theorem setLenErr_frame_modeparm : (s.setLenErr).frame.modeparm = s.frame.modeparm := rfl
@[simp] theorem setLenErr_frame_len : (s.setLenErr).frame.len = s.frame.len := rfl
@[simp] theorem setLenErr_frame_framing : (s.setLenErr).frame.framing = s.frame.framing := rfl
@[simp] theorem setLenErr_frame_rxlen : (s.setLenErr).frame.rxlen = s.frame.rxlen := rfl
@[simp] theorem setLenErr_frame_totlen : (s.setLenErr).frame.totlen = 0 := rfl
@[simp] theorem setLenErr_frame_segcnt : (s.setLenErr).frame.segcnt = 0 := rfl
@[simp] theorem setLenErr_frame_maxpl : (s.setLenErr).frame.maxpl = s.frame.maxpl := rfl
@[simp] theorem setLenErr_irqen : (s.setLenErr).irqen = s.irqen := rfl
@[simp] theorem setLenErr_thermal : (s.setLenErr).thermal = s.thermal := rfl
@[simp] theorem setLenErr_counters : (s.setLenErr).counters = s.counters := rfl
@[simp] theorem setLenErr_fb : (s.setLenErr).fb = s.fb := rfl
@[simp] theorem setLenErr_pb : (s.setLenErr).pb = s.pb := rfl
@[simp] theorem setLenErr_inputs : (s.setLenErr).inputs = s.inputs := rfl
@[simp] theorem setLenErr_rdata : (s.setLenErr).rdata = s.rdata := rfl
@[simp] theorem setLenErr_freeReads : (s.setLenErr).freeReads = s.freeReads := rfl

@[simp] theorem setCounter_cfg (k : CntKind) (rx : Nat) (v : Word) :
    (s.setCounter k rx v).cfg = s.cfg := rfl
@[simp] theorem setCounter_phase (k : CntKind) (rx : Nat) (v : Word) :
    (s.setCounter k rx v).phase = s.phase := rfl
@[simp] theorem setCounter_status (k : CntKind) (rx : Nat) (v : Word) :
    (s.setCounter k rx v).status = s.status := rfl
@[simp] theorem setCounter_frame (k : CntKind) (rx : Nat) (v : Word) :
    (s.setCounter k rx v).frame = s.frame := rfl
@[simp] theorem setCounter_irqen (k : CntKind) (rx : Nat) (v : Word) :
    (s.setCounter k rx v).irqen = s.irqen := rfl
@[simp] theorem setCounter_thermal (k : CntKind) (rx : Nat) (v : Word) :
    (s.setCounter k rx v).thermal = s.thermal := rfl
@[simp] theorem setCounter_counters (k : CntKind) (rx : Nat) (v : Word) :
    (s.setCounter k rx v).counters = s.counters.set rx (RxCounters.put (s.rxCounters rx) k v) := rfl
@[simp] theorem setCounter_fb (k : CntKind) (rx : Nat) (v : Word) :
    (s.setCounter k rx v).fb = s.fb := rfl
@[simp] theorem setCounter_pb (k : CntKind) (rx : Nat) (v : Word) :
    (s.setCounter k rx v).pb = s.pb := rfl
@[simp] theorem setCounter_inputs (k : CntKind) (rx : Nat) (v : Word) :
    (s.setCounter k rx v).inputs = s.inputs := rfl
@[simp] theorem setCounter_rdata (k : CntKind) (rx : Nat) (v : Word) :
    (s.setCounter k rx v).rdata = s.rdata := rfl
@[simp] theorem setCounter_freeReads (k : CntKind) (rx : Nat) (v : Word) :
    (s.setCounter k rx v).freeReads = s.freeReads := rfl

@[simp] theorem countFailure_cfg (k : CntKind) (rx : Nat) : (s.countFailure k rx).cfg = s.cfg := rfl
@[simp] theorem countFailure_phase (k : CntKind) (rx : Nat) :
    (s.countFailure k rx).phase = s.phase := rfl
@[simp] theorem countFailure_status_done (k : CntKind) (rx : Nat) :
    (s.countFailure k rx).status.done = s.status.done := rfl
@[simp] theorem countFailure_status_ovr (k : CntKind) (rx : Nat) :
    (s.countFailure k rx).status.ovr = s.status.ovr := rfl
@[simp] theorem countFailure_status_dirty (k : CntKind) (rx : Nat) :
    (s.countFailure k rx).status.dirty = (s.status.dirty || satInc s.cfg.cntW (s.counter k rx) != s.counter k rx) := rfl
@[simp] theorem countFailure_status_engaged (k : CntKind) (rx : Nat) :
    (s.countFailure k rx).status.engaged = s.status.engaged := rfl
@[simp] theorem countFailure_status_lenv (k : CntKind) (rx : Nat) :
    (s.countFailure k rx).status.lenv = s.status.lenv := rfl
@[simp] theorem countFailure_status_code (k : CntKind) (rx : Nat) :
    (s.countFailure k rx).status.code = s.status.code := rfl
@[simp] theorem countFailure_status_lastop (k : CntKind) (rx : Nat) :
    (s.countFailure k rx).status.lastop = s.status.lastop := rfl
@[simp] theorem countFailure_frame (k : CntKind) (rx : Nat) :
    (s.countFailure k rx).frame = s.frame := rfl
@[simp] theorem countFailure_irqen (k : CntKind) (rx : Nat) :
    (s.countFailure k rx).irqen = s.irqen := rfl
@[simp] theorem countFailure_thermal (k : CntKind) (rx : Nat) :
    (s.countFailure k rx).thermal = s.thermal := rfl
@[simp] theorem countFailure_counters (k : CntKind) (rx : Nat) :
    (s.countFailure k rx).counters = (s.setCounter k rx (satInc s.cfg.cntW (s.counter k rx))).counters := rfl
@[simp] theorem countFailure_fb (k : CntKind) (rx : Nat) : (s.countFailure k rx).fb = s.fb := rfl
@[simp] theorem countFailure_pb (k : CntKind) (rx : Nat) : (s.countFailure k rx).pb = s.pb := rfl
@[simp] theorem countFailure_inputs (k : CntKind) (rx : Nat) :
    (s.countFailure k rx).inputs = s.inputs := rfl
@[simp] theorem countFailure_rdata (k : CntKind) (rx : Nat) :
    (s.countFailure k rx).rdata = s.rdata := rfl
@[simp] theorem countFailure_freeReads (k : CntKind) (rx : Nat) :
    (s.countFailure k rx).freeReads = s.freeReads := rfl

@[simp] theorem evalEngaged_cfg : (s.evalEngaged).cfg = s.cfg := rfl
@[simp] theorem evalEngaged_phase : (s.evalEngaged).phase = s.phase := rfl
@[simp] theorem evalEngaged_status_done : (s.evalEngaged).status.done = s.status.done := rfl
@[simp] theorem evalEngaged_status_ovr : (s.evalEngaged).status.ovr = s.status.ovr := rfl
@[simp] theorem evalEngaged_status_dirty :
    (s.evalEngaged).status.dirty = (s.status.dirty || (s.engageOver || s.engageHold) != s.status.engaged) := rfl
@[simp] theorem evalEngaged_status_engaged :
    (s.evalEngaged).status.engaged = (s.engageOver || s.engageHold) := rfl
@[simp] theorem evalEngaged_status_lenv : (s.evalEngaged).status.lenv = s.status.lenv := rfl
@[simp] theorem evalEngaged_status_code : (s.evalEngaged).status.code = s.status.code := rfl
@[simp] theorem evalEngaged_status_lastop : (s.evalEngaged).status.lastop = s.status.lastop := rfl
@[simp] theorem evalEngaged_frame : (s.evalEngaged).frame = s.frame := rfl
@[simp] theorem evalEngaged_irqen : (s.evalEngaged).irqen = s.irqen := rfl
@[simp] theorem evalEngaged_thermal_protEn :
    (s.evalEngaged).thermal.protEn = s.thermal.protEn := rfl
@[simp] theorem evalEngaged_thermal_vt : (s.evalEngaged).thermal.vt = s.thermal.vt := rfl
@[simp] theorem evalEngaged_thermal_pendB : (s.evalEngaged).thermal.pendB = s.thermal.pendB := rfl
@[simp] theorem evalEngaged_thermal_pendMs :
    (s.evalEngaged).thermal.pendMs = s.thermal.pendMs := rfl
@[simp] theorem evalEngaged_thermal_sensed :
    (s.evalEngaged).thermal.sensed = s.thermal.sensed := rfl
@[simp] theorem evalEngaged_thermal_txb : (s.evalEngaged).thermal.txb = s.thermal.txb := rfl
@[simp] theorem evalEngaged_thermal_txms : (s.evalEngaged).thermal.txms = s.thermal.txms := rfl
@[simp] theorem evalEngaged_thermal_backoff :
    (s.evalEngaged).thermal.backoff = s.thermal.backoff := rfl
@[simp] theorem evalEngaged_thermal_engcnt :
    (s.evalEngaged).thermal.engcnt = (if (s.engageOver || s.engageHold) && !s.status.engaged then satInc s.cfg.cntW s.thermal.engcnt else s.thermal.engcnt) := rfl
@[simp] theorem evalEngaged_counters : (s.evalEngaged).counters = s.counters := rfl
@[simp] theorem evalEngaged_fb : (s.evalEngaged).fb = s.fb := rfl
@[simp] theorem evalEngaged_pb : (s.evalEngaged).pb = s.pb := rfl
@[simp] theorem evalEngaged_inputs : (s.evalEngaged).inputs = s.inputs := rfl
@[simp] theorem evalEngaged_rdata : (s.evalEngaged).rdata = s.rdata := rfl
@[simp] theorem evalEngaged_freeReads : (s.evalEngaged).freeReads = s.freeReads := rfl

@[simp] theorem storeFb_cfg (i : Nat) (bs : List Byte) : (s.storeFb i bs).cfg = s.cfg := rfl
@[simp] theorem storeFb_phase (i : Nat) (bs : List Byte) : (s.storeFb i bs).phase = s.phase := rfl
@[simp] theorem storeFb_status (i : Nat) (bs : List Byte) :
    (s.storeFb i bs).status = s.status := rfl
@[simp] theorem storeFb_frame (i : Nat) (bs : List Byte) : (s.storeFb i bs).frame = s.frame := rfl
@[simp] theorem storeFb_irqen (i : Nat) (bs : List Byte) : (s.storeFb i bs).irqen = s.irqen := rfl
@[simp] theorem storeFb_thermal (i : Nat) (bs : List Byte) :
    (s.storeFb i bs).thermal = s.thermal := rfl
@[simp] theorem storeFb_counters (i : Nat) (bs : List Byte) :
    (s.storeFb i bs).counters = s.counters := rfl
@[simp] theorem storeFb_fb (i : Nat) (bs : List Byte) :
    (s.storeFb i bs).fb = Memory.writeBytes s.fb i bs := rfl
@[simp] theorem storeFb_pb (i : Nat) (bs : List Byte) : (s.storeFb i bs).pb = s.pb := rfl
@[simp] theorem storeFb_inputs (i : Nat) (bs : List Byte) :
    (s.storeFb i bs).inputs = s.inputs := rfl
@[simp] theorem storeFb_rdata (i : Nat) (bs : List Byte) : (s.storeFb i bs).rdata = s.rdata := rfl
@[simp] theorem storeFb_freeReads (i : Nat) (bs : List Byte) :
    (s.storeFb i bs).freeReads = s.freeReads := rfl

@[simp] theorem storePb_cfg (bs : List Byte) : (s.storePb bs).cfg = s.cfg := rfl
@[simp] theorem storePb_phase (bs : List Byte) : (s.storePb bs).phase = s.phase := rfl
@[simp] theorem storePb_status (bs : List Byte) : (s.storePb bs).status = s.status := rfl
@[simp] theorem storePb_frame (bs : List Byte) : (s.storePb bs).frame = s.frame := rfl
@[simp] theorem storePb_irqen (bs : List Byte) : (s.storePb bs).irqen = s.irqen := rfl
@[simp] theorem storePb_thermal (bs : List Byte) : (s.storePb bs).thermal = s.thermal := rfl
@[simp] theorem storePb_counters (bs : List Byte) : (s.storePb bs).counters = s.counters := rfl
@[simp] theorem storePb_fb (bs : List Byte) : (s.storePb bs).fb = s.fb := rfl
@[simp] theorem storePb_pb (bs : List Byte) : (s.storePb bs).pb = Memory.writeBytes s.pb 0 bs := rfl
@[simp] theorem storePb_inputs (bs : List Byte) : (s.storePb bs).inputs = s.inputs := rfl
@[simp] theorem storePb_rdata (bs : List Byte) : (s.storePb bs).rdata = s.rdata := rfl
@[simp] theorem storePb_freeReads (bs : List Byte) : (s.storePb bs).freeReads = s.freeReads := rfl

@[simp] theorem setHeader_cfg (H : List Byte) : (s.setHeader H).cfg = s.cfg := rfl
@[simp] theorem setHeader_phase (H : List Byte) : (s.setHeader H).phase = s.phase := rfl
@[simp] theorem setHeader_status (H : List Byte) : (s.setHeader H).status = s.status := rfl
@[simp] theorem setHeader_frame_version (H : List Byte) :
    (s.setHeader H).frame.version = (H.getD 0 0).extractLsb' 4 4 := rfl
@[simp] theorem setHeader_frame_mode (H : List Byte) :
    (s.setHeader H).frame.mode = (H.getD 0 0).extractLsb' 0 4 := rfl
@[simp] theorem setHeader_frame_modeparm (H : List Byte) :
    (s.setHeader H).frame.modeparm = H.getD 1 0 := rfl
@[simp] theorem setHeader_frame_len (H : List Byte) : (s.setHeader H).frame.len = H.getD 2 0 := rfl
@[simp] theorem setHeader_frame_framing (H : List Byte) :
    (s.setHeader H).frame.framing = s.frame.framing := rfl
@[simp] theorem setHeader_frame_rxlen (H : List Byte) :
    (s.setHeader H).frame.rxlen = s.frame.rxlen := rfl
@[simp] theorem setHeader_frame_totlen (H : List Byte) :
    (s.setHeader H).frame.totlen = s.frame.totlen := rfl
@[simp] theorem setHeader_frame_segcnt (H : List Byte) :
    (s.setHeader H).frame.segcnt = s.frame.segcnt := rfl
@[simp] theorem setHeader_frame_maxpl (H : List Byte) :
    (s.setHeader H).frame.maxpl = s.frame.maxpl := rfl
@[simp] theorem setHeader_irqen (H : List Byte) : (s.setHeader H).irqen = s.irqen := rfl
@[simp] theorem setHeader_thermal (H : List Byte) : (s.setHeader H).thermal = s.thermal := rfl
@[simp] theorem setHeader_counters (H : List Byte) : (s.setHeader H).counters = s.counters := rfl
@[simp] theorem setHeader_fb (H : List Byte) : (s.setHeader H).fb = s.fb := rfl
@[simp] theorem setHeader_pb (H : List Byte) : (s.setHeader H).pb = s.pb := rfl
@[simp] theorem setHeader_inputs (H : List Byte) : (s.setHeader H).inputs = s.inputs := rfl
@[simp] theorem setHeader_rdata (H : List Byte) : (s.setHeader H).rdata = s.rdata := rfl
@[simp] theorem setHeader_freeReads (H : List Byte) : (s.setHeader H).freeReads = s.freeReads := rfl

@[simp] theorem setLen_cfg (L : Nat) : (s.setLen L).cfg = s.cfg := rfl
@[simp] theorem setLen_phase (L : Nat) : (s.setLen L).phase = s.phase := rfl
@[simp] theorem setLen_status (L : Nat) : (s.setLen L).status = s.status := rfl
@[simp] theorem setLen_frame_version (L : Nat) : (s.setLen L).frame.version = s.frame.version := rfl
@[simp] theorem setLen_frame_mode (L : Nat) : (s.setLen L).frame.mode = s.frame.mode := rfl
@[simp] theorem setLen_frame_modeparm (L : Nat) :
    (s.setLen L).frame.modeparm = s.frame.modeparm := rfl
@[simp] theorem setLen_frame_len (L : Nat) : (s.setLen L).frame.len = BitVec.ofNat 8 L := rfl
@[simp] theorem setLen_frame_framing (L : Nat) : (s.setLen L).frame.framing = s.frame.framing := rfl
@[simp] theorem setLen_frame_rxlen (L : Nat) : (s.setLen L).frame.rxlen = s.frame.rxlen := rfl
@[simp] theorem setLen_frame_totlen (L : Nat) : (s.setLen L).frame.totlen = s.frame.totlen := rfl
@[simp] theorem setLen_frame_segcnt (L : Nat) : (s.setLen L).frame.segcnt = s.frame.segcnt := rfl
@[simp] theorem setLen_frame_maxpl (L : Nat) : (s.setLen L).frame.maxpl = s.frame.maxpl := rfl
@[simp] theorem setLen_irqen (L : Nat) : (s.setLen L).irqen = s.irqen := rfl
@[simp] theorem setLen_thermal (L : Nat) : (s.setLen L).thermal = s.thermal := rfl
@[simp] theorem setLen_counters (L : Nat) : (s.setLen L).counters = s.counters := rfl
@[simp] theorem setLen_fb (L : Nat) : (s.setLen L).fb = s.fb := rfl
@[simp] theorem setLen_pb (L : Nat) : (s.setLen L).pb = s.pb := rfl
@[simp] theorem setLen_inputs (L : Nat) : (s.setLen L).inputs = s.inputs := rfl
@[simp] theorem setLen_rdata (L : Nat) : (s.setLen L).rdata = s.rdata := rfl
@[simp] theorem setLen_freeReads (L : Nat) : (s.setLen L).freeReads = s.freeReads := rfl

@[simp] theorem resetBlock_cfg : (s.resetBlock).cfg = s.cfg := rfl
@[simp] theorem resetBlock_phase : (s.resetBlock).phase = .idle := rfl
@[simp] theorem resetBlock_status : (s.resetBlock).status = statusReset := rfl
@[simp] theorem resetBlock_frame : (s.resetBlock).frame = frameReset := rfl
@[simp] theorem resetBlock_irqen : (s.resetBlock).irqen = 0 := rfl
@[simp] theorem resetBlock_thermal : (s.resetBlock).thermal = thermalReset := rfl
@[simp] theorem resetBlock_counters :
    (s.resetBlock).counters = List.replicate s.cfg.nRx countersZero := rfl
@[simp] theorem resetBlock_fb : (s.resetBlock).fb = [] := rfl
@[simp] theorem resetBlock_pb : (s.resetBlock).pb = [] := rfl
@[simp] theorem resetBlock_inputs : (s.resetBlock).inputs = s.inputs := rfl
@[simp] theorem resetBlock_rdata : (s.resetBlock).rdata = s.rdata := rfl
@[simp] theorem resetBlock_freeReads : (s.resetBlock).freeReads = s.freeReads := rfl

@[simp] theorem issue_cfg (w : Word) : (s.issue w).cfg = s.cfg := rfl
@[simp] theorem issue_phase (w : Word) : (s.issue w).phase = .busy w := rfl
@[simp] theorem issue_status (w : Word) : (s.issue w).status = s.status := rfl
@[simp] theorem issue_frame (w : Word) : (s.issue w).frame = s.frame := rfl
@[simp] theorem issue_irqen (w : Word) : (s.issue w).irqen = s.irqen := rfl
@[simp] theorem issue_thermal (w : Word) : (s.issue w).thermal = s.thermal := rfl
@[simp] theorem issue_counters (w : Word) : (s.issue w).counters = s.counters := rfl
@[simp] theorem issue_fb (w : Word) : (s.issue w).fb = s.fb := rfl
@[simp] theorem issue_pb (w : Word) : (s.issue w).pb = s.pb := rfl
@[simp] theorem issue_inputs (w : Word) : (s.issue w).inputs = s.inputs := rfl
@[simp] theorem issue_rdata (w : Word) : (s.issue w).rdata = s.rdata := rfl
@[simp] theorem issue_freeReads (w : Word) : (s.issue w).freeReads = s.freeReads := rfl

@[simp] theorem writeTCtrl_cfg (w : Word) : (s.writeTCtrl w).cfg = s.cfg := rfl
@[simp] theorem writeTCtrl_phase (w : Word) : (s.writeTCtrl w).phase = s.phase := rfl
@[simp] theorem writeTCtrl_status_done (w : Word) :
    (s.writeTCtrl w).status.done = s.status.done := rfl
@[simp] theorem writeTCtrl_status_ovr (w : Word) : (s.writeTCtrl w).status.ovr = s.status.ovr := rfl
@[simp] theorem writeTCtrl_status_dirty (w : Word) :
    (s.writeTCtrl w).status.dirty = s.status.dirty := rfl
@[simp] theorem writeTCtrl_status_engaged (w : Word) :
    (s.writeTCtrl w).status.engaged = (if w.getLsbD 1 then w.getLsbD 2 else s.status.engaged) := rfl
@[simp] theorem writeTCtrl_status_lenv (w : Word) :
    (s.writeTCtrl w).status.lenv = s.status.lenv := rfl
@[simp] theorem writeTCtrl_status_code (w : Word) :
    (s.writeTCtrl w).status.code = s.status.code := rfl
@[simp] theorem writeTCtrl_status_lastop (w : Word) :
    (s.writeTCtrl w).status.lastop = s.status.lastop := rfl
@[simp] theorem writeTCtrl_frame (w : Word) : (s.writeTCtrl w).frame = s.frame := rfl
@[simp] theorem writeTCtrl_irqen (w : Word) : (s.writeTCtrl w).irqen = s.irqen := rfl
@[simp] theorem writeTCtrl_thermal_protEn (w : Word) :
    (s.writeTCtrl w).thermal.protEn = w.getLsbD 0 := rfl
@[simp] theorem writeTCtrl_thermal_vt (w : Word) : (s.writeTCtrl w).thermal.vt = s.thermal.vt := rfl
@[simp] theorem writeTCtrl_thermal_pendB (w : Word) :
    (s.writeTCtrl w).thermal.pendB = s.thermal.pendB := rfl
@[simp] theorem writeTCtrl_thermal_pendMs (w : Word) :
    (s.writeTCtrl w).thermal.pendMs = s.thermal.pendMs := rfl
@[simp] theorem writeTCtrl_thermal_sensed (w : Word) :
    (s.writeTCtrl w).thermal.sensed = s.thermal.sensed := rfl
@[simp] theorem writeTCtrl_thermal_txb (w : Word) :
    (s.writeTCtrl w).thermal.txb = s.thermal.txb := rfl
@[simp] theorem writeTCtrl_thermal_txms (w : Word) :
    (s.writeTCtrl w).thermal.txms = s.thermal.txms := rfl
@[simp] theorem writeTCtrl_thermal_backoff (w : Word) :
    (s.writeTCtrl w).thermal.backoff = s.thermal.backoff := rfl
@[simp] theorem writeTCtrl_thermal_engcnt (w : Word) :
    (s.writeTCtrl w).thermal.engcnt = s.thermal.engcnt := rfl
@[simp] theorem writeTCtrl_counters (w : Word) : (s.writeTCtrl w).counters = s.counters := rfl
@[simp] theorem writeTCtrl_fb (w : Word) : (s.writeTCtrl w).fb = s.fb := rfl
@[simp] theorem writeTCtrl_pb (w : Word) : (s.writeTCtrl w).pb = s.pb := rfl
@[simp] theorem writeTCtrl_inputs (w : Word) : (s.writeTCtrl w).inputs = s.inputs := rfl
@[simp] theorem writeTCtrl_rdata (w : Word) : (s.writeTCtrl w).rdata = s.rdata := rfl
@[simp] theorem writeTCtrl_freeReads (w : Word) : (s.writeTCtrl w).freeReads = s.freeReads := rfl

@[simp] theorem answer_cfg (v : Word) : (s.answer v).cfg = s.cfg := rfl
@[simp] theorem answer_phase (v : Word) : (s.answer v).phase = s.phase := rfl
@[simp] theorem answer_status (v : Word) : (s.answer v).status = s.status := rfl
@[simp] theorem answer_frame (v : Word) : (s.answer v).frame = s.frame := rfl
@[simp] theorem answer_irqen (v : Word) : (s.answer v).irqen = s.irqen := rfl
@[simp] theorem answer_thermal (v : Word) : (s.answer v).thermal = s.thermal := rfl
@[simp] theorem answer_counters (v : Word) : (s.answer v).counters = s.counters := rfl
@[simp] theorem answer_fb (v : Word) : (s.answer v).fb = s.fb := rfl
@[simp] theorem answer_pb (v : Word) : (s.answer v).pb = s.pb := rfl
@[simp] theorem answer_inputs (v : Word) : (s.answer v).inputs = s.inputs := rfl
@[simp] theorem answer_rdata (v : Word) : (s.answer v).rdata = some v := rfl
@[simp] theorem answer_freeReads (v : Word) : (s.answer v).freeReads = s.freeReads := rfl

@[simp] theorem answerByte_cfg (v : Byte) : (s.answerByte v).cfg = s.cfg := rfl
@[simp] theorem answerByte_phase (v : Byte) : (s.answerByte v).phase = s.phase := rfl
@[simp] theorem answerByte_status (v : Byte) : (s.answerByte v).status = s.status := rfl
@[simp] theorem answerByte_frame (v : Byte) : (s.answerByte v).frame = s.frame := rfl
@[simp] theorem answerByte_irqen (v : Byte) : (s.answerByte v).irqen = s.irqen := rfl
@[simp] theorem answerByte_thermal (v : Byte) : (s.answerByte v).thermal = s.thermal := rfl
@[simp] theorem answerByte_counters (v : Byte) : (s.answerByte v).counters = s.counters := rfl
@[simp] theorem answerByte_fb (v : Byte) : (s.answerByte v).fb = s.fb := rfl
@[simp] theorem answerByte_pb (v : Byte) : (s.answerByte v).pb = s.pb := rfl
@[simp] theorem answerByte_inputs (v : Byte) : (s.answerByte v).inputs = s.inputs := rfl
@[simp] theorem answerByte_rdata (v : Byte) : (s.answerByte v).rdata = some (v.setWidth 32) := rfl
@[simp] theorem answerByte_freeReads (v : Byte) : (s.answerByte v).freeReads = s.freeReads := rfl

@[simp] theorem withCommand_cfg (w : Word) : (s.withCommand w).cfg = s.cfg := rfl
@[simp] theorem withCommand_phase (w : Word) : (s.withCommand w).phase = .busy w := rfl
@[simp] theorem withCommand_status (w : Word) : (s.withCommand w).status = s.status := rfl
@[simp] theorem withCommand_frame (w : Word) : (s.withCommand w).frame = s.frame := rfl
@[simp] theorem withCommand_irqen (w : Word) : (s.withCommand w).irqen = s.irqen := rfl
@[simp] theorem withCommand_thermal (w : Word) : (s.withCommand w).thermal = s.thermal := rfl
@[simp] theorem withCommand_counters (w : Word) : (s.withCommand w).counters = s.counters := rfl
@[simp] theorem withCommand_fb (w : Word) : (s.withCommand w).fb = s.fb := rfl
@[simp] theorem withCommand_pb (w : Word) : (s.withCommand w).pb = s.pb := rfl
@[simp] theorem withCommand_inputs (w : Word) :
    (s.withCommand w).inputs = .engine :: s.inputs := rfl
@[simp] theorem withCommand_rdata (w : Word) : (s.withCommand w).rdata = s.rdata := rfl
@[simp] theorem withCommand_freeReads (w : Word) : (s.withCommand w).freeReads = s.freeReads := rfl

/-- The buffers after reset have the canonical form (10_state.md R47). -/
theorem reset_buffers_wf : Memory.wf State.reset.fb ∧ Memory.wf State.reset.pb :=
  ⟨List.Pairwise.nil, List.Pairwise.nil⟩

end Sys2Proof.Machine
end

