-- ==== Sys2Proof/Laws/Ops.lean ====
section
/-! SUPPORT. One lemma per shared operation that says once everything it can do: what follows if it
answers a next state, and when it does. -/

namespace Sys2Proof.Machine

variable {s t : State}

/-- Reading `FB` answers next only through its continuation, on written bytes. -/
theorem withFb_next {i n : Nat} {k : List Byte → Result} (h : s.withFb i n k = .next t) :
    FbWritten s i n ∧ k (bytesAt s.fb i n) = .next t := by
  unfold State.withFb at h
  split at h
  · rename_i bs hbs
    obtain ⟨rfl, hw⟩ := readBytes_ok hbs
    exact ⟨hw, h⟩
  · cases h

/-- Written bytes of `FB` reach the continuation. -/
theorem withFb_written {i n : Nat} (h : FbWritten s i n) (k : List Byte → Result) :
    s.withFb i n k = k (bytesAt s.fb i n) := by
  simp only [State.withFb, readBytes_written s.fb i n h]

/-- Reading `PB` answers next only through its continuation, on written bytes. -/
theorem withPb_next {n : Nat} {k : List Byte → Result} (h : s.withPb n k = .next t) :
    PbWritten s n ∧ k (bytesAt s.pb 0 n) = .next t := by
  unfold State.withPb at h
  split at h
  · rename_i bs hbs
    obtain ⟨rfl, hw⟩ := readBytes_ok hbs
    exact ⟨fun a ha => hw a (Nat.zero_le a) (by omega), h⟩
  · cases h

/-- Written bytes of `PB` reach the continuation. -/
theorem withPb_written {n : Nat} (h : PbWritten s n) (k : List Byte → Result) :
    s.withPb n k = k (bytesAt s.pb 0 n) := by
  have hw : ∀ a, 0 ≤ a → a < 0 + n → Memory.read s.pb a ≠ none := fun a _ ha => h a (by omega)
  simp only [State.withPb, readBytes_written s.pb 0 n hw]

/-- `primary_len` answers `Ok` exactly with a mode entry and a frame that fits (R194). -/
theorem primaryLen_ok {c : Cfg} {mode : BitVec 4} {mp : BitVec 8} {L : Nat} {f : FrameLen} :
    primaryLen c mode mp L = .ok f ↔
      modeEntry c mode mp = some f.entry ∧ f.segs = segCount f.entry L ∧
        f.tot = hdrSize + L + f.segs * parBytes f.entry ∧ f.tot ≤ fbSize := by
  unfold primaryLen
  split
  · rename_i h; simp [h]
  · rename_i e h
    rw [h]
    by_cases hgt : hdrSize + L + segCount e L * parBytes e > fbSize
    · simp only [hgt, if_true, reduceCtorEq, false_iff, Option.some.injEq]
      rintro ⟨rfl, h1, h2, h3⟩
      rw [h1] at h2
      omega
    · simp only [hgt, if_false, Except.ok.injEq, Option.some.injEq]
      constructor
      · rintro rfl; exact ⟨rfl, rfl, rfl, Nat.le_of_not_lt hgt⟩
      · obtain ⟨segs, tot, entry⟩ := f
        rintro ⟨rfl, h1, h2, -⟩
        simp only at h1 h2
        rw [h2, h1]

/-- `primary_len` fails with `ERR_MODE` or `ERR_LEN`, no other code (R194). -/
theorem primaryLen_error {c : Cfg} {mode : BitVec 4} {mp : BitVec 8} {L : Nat} {r : ResultCode}
    (h : primaryLen c mode mp L = .error r) :
    (r = .errMode ∧ modeEntry c mode mp = none) ∨
      (r = .errLen ∧ ∃ e, modeEntry c mode mp = some e ∧
        fbSize < hdrSize + L + segCount e L * parBytes e) := by
  unfold primaryLen at h
  split at h
  · rename_i he; cases h; exact .inl ⟨rfl, he⟩
  · rename_i e he
    by_cases hgt : hdrSize + L + segCount e L * parBytes e > fbSize
    · simp only [hgt, if_true, Except.error.injEq] at h
      exact .inr ⟨h.symm, e, he, hgt⟩
    · simp only [hgt, if_false, reduceCtorEq] at h

/-- The shared length computation: an error completes with it, a length reaches the continuation. -/
theorem withFrameLen_next {op : BitVec 8} {k : FrameLen → State → Result}
    (h : s.withFrameLen op k = .next t) :
    (∃ c, s.frameLen = .error c ∧ t = s.setLenErr.complete op c) ∨
      ∃ f, s.frameLen = .ok f ∧ k f (s.setLenOk f.segs f.tot) = .next t := by
  unfold State.withFrameLen at h
  split at h
  · rename_i c hc; cases h; exact .inl ⟨c, hc, rfl⟩
  · rename_i f hf; exact .inr ⟨f, hf, h⟩

/-- The shared header steps: a failure counts and completes, an accepted header reaches the
continuation (R131). -/
theorem receiveHeader_next {op : BitVec 8} {rx : Nat} {k : List Byte → Result}
    (h : s.receiveHeader op rx k = .next t) :
    FbWritten s 0 8 ∧
      ((hdrCorrect s.cfg (bytesAt s.fb 0 8) = none ∧
          t = (s.countFailure .hpar rx).complete op .errHpar) ∨
        ∃ H, hdrCorrect s.cfg (bytesAt s.fb 0 8) = some H ∧
          ((hcsMatches s.cfg H = false ∧ t = (s.countFailure .hcs rx).complete op .errHcs) ∨
            (hcsMatches s.cfg H = true ∧ k H = .next t))) := by
  obtain ⟨hw, h⟩ := withFb_next h
  refine ⟨hw, ?_⟩
  split at h
  · rename_i hn; cases h; exact .inl ⟨hn, rfl⟩
  · rename_i H hH
    refine .inr ⟨H, hH, ?_⟩
    split at h
    · rename_i hm; exact .inr ⟨hm, h⟩
    · rename_i hm; cases h; exact .inl ⟨Bool.eq_false_iff.mpr hm, rfl⟩

/-- The shared transmit step (R196). -/
theorem sendPayload_next {op : BitVec 8} {e : ModeEntry} (h : s.sendPayload op e = .next t) :
    PbWritten s s.frame.len.toNat ∧
      t = (s.storeFb hdrSize (payloadEncode e (bytesAt s.pb 0 s.frame.len.toNat))).complete op .ok := by
  obtain ⟨hw, h⟩ := withPb_next h
  cases h
  exact ⟨hw, rfl⟩

/-- The shared receive steps of a payload (R198, R200). -/
theorem receivePayload_next {op : BitVec 8} {rx : Nat} (h : s.receivePayload op rx = .next t) :
    (∃ c, s.frameLen = .error c ∧ t = s.setLenErr.complete op c) ∨
      ∃ f, s.frameLen = .ok f ∧
        ((s.frame.rxlen.toNat < f.tot ∧ t = (s.setLenOk f.segs f.tot).complete op .errLen) ∨
          (f.tot ≤ s.frame.rxlen.toNat ∧ FbWritten s hdrSize (f.tot - hdrSize) ∧
            ((payloadDecode f.entry s.frame.len.toNat
                  (bytesAt s.fb hdrSize (f.tot - hdrSize)) = none ∧
                t = ((s.setLenOk f.segs f.tot).countFailure .pld rx).complete op .errPld) ∨
              ∃ P, payloadDecode f.entry s.frame.len.toNat
                  (bytesAt s.fb hdrSize (f.tot - hdrSize)) = some P ∧
                t = ((s.setLenOk f.segs f.tot).storePb P).complete op .ok))) := by
  rcases withFrameLen_next h with ⟨c, hc, rfl⟩ | ⟨f, hf, h⟩
  · exact .inl ⟨c, hc, rfl⟩
  · refine .inr ⟨f, hf, ?_⟩
    split at h
    · rename_i hlt; cases h; exact .inl ⟨hlt, rfl⟩
    · rename_i hlt
      obtain ⟨hw, h⟩ := withFb_next h
      refine .inr ⟨Nat.le_of_not_lt hlt, hw, ?_⟩
      split at h
      · rename_i hn; cases h; exact .inl ⟨hn, rfl⟩
      · rename_i P hP; cases h; exact .inr ⟨P, hP, rfl⟩

/-- The shared STAR length steps (R236). -/
theorem starLength_next {op : BitVec 8} {sub : StarSub} {k : List Byte → Nat → State → Result}
    (h : s.starLength op sub k = .next t) :
    (s.frame.rxlen.toNat < Config.star.hdrLen sub ∧ t = s.setLenErr.complete op .errLen) ∨
      (Config.star.hdrLen sub ≤ s.frame.rxlen.toNat ∧ FbWritten s 0 (Config.star.hdrLen sub) ∧
        ((∃ c, starRxLen Config.star sub (bytesAt s.fb 0 (Config.star.hdrLen sub)) = .error c ∧
            t = s.setLenErr.complete op c) ∨
          ∃ L tot, starRxLen Config.star sub (bytesAt s.fb 0 (Config.star.hdrLen sub)) =
              .ok (L, tot) ∧
            k (bytesAt s.fb 0 (Config.star.hdrLen sub)) tot ((s.setLen L).setLenOk 0 tot) =
              .next t)) := by
  unfold State.starLength at h
  split at h
  · rename_i hlt; cases h; exact .inl ⟨hlt, rfl⟩
  · rename_i hlt
    obtain ⟨hw, h⟩ := withFb_next h
    refine .inr ⟨Nat.le_of_not_lt hlt, hw, ?_⟩
    split at h
    · rename_i c hc; cases h; exact .inl ⟨c, hc, rfl⟩
    · rename_i L tot hLt; exact .inr ⟨L, tot, hLt, h⟩

/-- The shared STAR transmit steps (R237). -/
theorem starSend_next {op : BitVec 8} {sub : StarSub} (h : s.starSend op sub = .next t) :
    (s.frame.maxpl < s.frame.len ∧ t = s.complete op .errParam) ∨
      (¬s.frame.maxpl < s.frame.len ∧ PbWritten s s.frame.len.toNat ∧
        ((starEncode Config.star sub s.frame.mode s.frame.modeparm
              (bytesAt s.pb 0 s.frame.len.toNat) = none ∧
            t = s.setLenErr.complete op .errMode) ∨
          ∃ F, starEncode Config.star sub s.frame.mode s.frame.modeparm
              (bytesAt s.pb 0 s.frame.len.toNat) = some F ∧
            ((fbSize < F.length ∧ t = s.setLenErr.complete op .errLen) ∨
              (F.length ≤ fbSize ∧
                t = ((s.storeFb 0 F).setLenOk 0 F.length).complete op .ok)))) := by
  unfold State.starSend at h
  split at h
  · rename_i hlt; cases h; exact .inl ⟨hlt, rfl⟩
  · rename_i hlt
    obtain ⟨hw, h⟩ := withPb_next h
    refine .inr ⟨hlt, hw, ?_⟩
    split at h
    · rename_i hn; cases h; exact .inl ⟨hn, rfl⟩
    · rename_i F hF
      refine .inr ⟨F, hF, ?_⟩
      split at h
      · rename_i hgt; cases h; exact .inl ⟨hgt, rfl⟩
      · rename_i hgt; cases h; exact .inr ⟨Nat.le_of_not_lt hgt, rfl⟩

/-- The shared STAR receive steps (R238). -/
theorem starRecv_next {op : BitVec 8} {rx : Nat} {sub : StarSub}
    (h : s.starRecv op rx sub = .next t) :
    (∃ c, t = s.setLenErr.complete op c ∧ c ≠ .ok) ∨
      Config.star.hdrLen sub ≤ s.frame.rxlen.toNat ∧ ∃ L tot,
        starRxLen Config.star sub (bytesAt s.fb 0 (Config.star.hdrLen sub)) = .ok (L, tot) ∧
        ((s.frame.rxlen.toNat < tot ∧ t = ((s.setLen L).setLenOk 0 tot).complete op .errLen) ∨
          (tot ≤ s.frame.rxlen.toNat ∧
            ((∃ c, (c = .errPld ∨ c = .errStar) ∧
                t = (((s.setLen L).setLenOk 0 tot).countFailure .pld rx).complete op c) ∨
              ∃ P, starReceive Config.star sub (bytesAt s.fb 0 (Config.star.hdrLen sub))
                  (bytesAt s.fb 0 tot) = .payload P ∧
                t = ((((s.setLen L).setLenOk 0 tot).storePb P).setLen P.length).complete op .ok))) := by
  rcases starLength_next h with ⟨-, rfl⟩ | ⟨hn, -, ⟨c, hc, rfl⟩ | ⟨L, tot, hLt, h⟩⟩
  · exact .inl ⟨.errLen, rfl, by decide⟩
  · refine .inl ⟨c, rfl, ?_⟩
    rintro rfl
    unfold starRxLen at hc
    split at hc
    · cases hc
    · split at hc
      · cases hc
      · dsimp only at hc; split at hc <;> cases hc
  · refine .inr ⟨hn, L, tot, hLt, ?_⟩
    split at h
    · rename_i hlt; cases h; exact .inl ⟨hlt, rfl⟩
    · rename_i hlt
      obtain ⟨-, h⟩ := withFb_next h
      refine .inr ⟨Nat.le_of_not_lt hlt, ?_⟩
      split at h
      · cases h; exact .inl ⟨.errPld, .inl rfl, rfl⟩
      · cases h; exact .inl ⟨.errStar, .inr rfl, rfl⟩
      · rename_i P hP; cases h; exact .inr ⟨P, hP, rfl⟩

/-- A received STAR length is the one the header gives, at most 255, and its `TOT` fits in `FB`
(R236). -/
theorem starRxLen_ok {sc : StarCfg} {sub : StarSub} {H : List Byte} {L tot : Nat}
    (h : starRxLen sc sub H = .ok (L, tot)) :
    sc.lenOfHdr sub H = some L ∧ L ≤ 255 ∧ tot = starFrameLen sc sub H L ∧ tot ≤ fbSize := by
  unfold starRxLen at h
  split at h
  · cases h
  · rename_i L' hL'
    split at h
    · cases h
    · dsimp only at h
      split at h <;> cases h
      exact ⟨hL', by omega, rfl, by omega⟩

/-- Receive of a STAR frame never comes to more than 255 payload bytes, so `PB[255]` is never written
(10_state.md R43, log entry 10). -/
theorem starReceive_le {sub : StarSub} {L tot : Nat} {P : List Byte}
    (hr : s.frame.rxlen.toNat ≤ fbSize) (hn : Config.star.hdrLen sub ≤ s.frame.rxlen.toNat)
    (hLt : starRxLen Config.star sub (bytesAt s.fb 0 (Config.star.hdrLen sub)) = .ok (L, tot))
    (htot : tot ≤ s.frame.rxlen.toNat)
    (hP : starReceive Config.star sub (bytesAt s.fb 0 (Config.star.hdrLen sub))
      (bytesAt s.fb 0 tot) = .payload P) : P.length ≤ 255 := by
  obtain ⟨hL, hL255, rfl, -⟩ := starRxLen_ok hLt
  refine Config.star_lawful.decoded_le sub (bytesAt s.fb 0 s.frame.rxlen.toNat) P (by simpa using hr)
    ⟨L, ?_⟩
  simp only [bytesAt_take _ _ hn, bytesAt_take _ _ htot, bytesAt_length]
  exact ⟨hn, hL, hL255, htot, hP⟩

/-- What one step does with its input list (R70, R340, R363). -/
theorem step_eq (s : State) :
    step s = (match s.inputs with
      | [] => s.engineSlot
      | e :: rest => State.takeInput { s with inputs := rest } e) := rfl

/-- While a command runs, a host write only sets `OVR` (R352). -/
theorem hostWrite_busy {w : Word} (h : s.phase = .busy w) (width : Width) (offset : BitVec 12)
    (v : Word) : s.hostWrite width offset v = s.setOvr := by simp [State.hostWrite, h]

/-- A counter after its failure is counted (R41). -/
theorem countFailure_counter (k : CntKind) {rx : Nat} (h : rx < s.counters.length) (k' : CntKind)
    (rx' : Nat) :
    (s.countFailure k rx).counter k' rx' =
      if k' = k ∧ rx' = rx then satInc s.cfg.cntW (s.counter k rx) else s.counter k' rx' := by
  simp only [State.counter, State.rxCounters, countFailure_counters, setCounter_counters]
  by_cases hr : rx' = rx
  · subst hr
    rw [List.getD_eq_getElem?_getD, List.getElem?_set_self h, Option.getD_some]
    cases k <;> cases k' <;> simp [RxCounters.get, RxCounters.put]
  · have hr' : rx ≠ rx' := fun h => hr h.symm
    simp [hr, List.getD_eq_getElem?_getD, List.getElem?_set_ne hr']

/-- A saturating increment stays within the counter's width and never wraps (R16, R41). -/
theorem satInc_le (w : CntWidth) {c : Word} (h : c.toNat < 2 ^ cntBits w) :
    c.toNat ≤ (satInc w c).toNat ∧ (satInc w c).toNat < 2 ^ cntBits w := by
  unfold satInc
  split
  · exact ⟨Nat.le_refl _, h⟩
  · have h32 : 2 ^ cntBits w ≤ 2 ^ 32 := by cases w <;> decide
    have hadd : (c + 1).toNat = c.toNat + 1 := by
      rw [BitVec.toNat_add]; simp; omega
    omega

/-- A saturating increment in numbers (R16, R41). -/
theorem satInc_toNat (w : CntWidth) {c : Word} (h : c.toNat < 2 ^ cntBits w) :
    (satInc w c).toNat = min (c.toNat + 1) (2 ^ cntBits w - 1) := by
  have h32 : 2 ^ cntBits w ≤ 2 ^ 32 := by cases w <;> decide
  have hadd : (c + 1).toNat = (c.toNat + 1) % 2 ^ 32 := by simp [BitVec.toNat_add]
  unfold satInc
  split <;> omega

/-- The operand range check of the receive commands (60_exceptions.md R320). -/
theorem rxOutOfRange_iff (rx : Nat) :
    s.rxOutOfRange rx = true ↔ s.cfg.nRx ≤ rx ∨ 1024 < s.frame.rxlen.toNat := by
  simp only [State.rxOutOfRange, Bool.or_eq_true, decide_eq_true_eq]

end Sys2Proof.Machine
end

