-- ==== Sys2Proof/Laws/Bus.lean ====
section
/-! SUPPORT. The register map: which register stands at an offset (10_state.md section 8, R40, R48), and
what an idle access of it does. -/

namespace Sys2Proof.Machine

/-- Offsets of `REG` are below 0x100 (20_memory.md R61). -/
theorem regionOf_reg {offset : BitVec 12} (h : offset.toNat < 0x100) :
    regionOf offset = .reg offset.toNat := by simp [regionOf, h]

/-- Only the offsets of the map name a register below the counters. -/
theorem namedAt_none {n : Nat} (hn : ∀ o ∈ namedOffsets, n ≠ BitVec.toNat o) :
    namedAt n = none := by
  simp only [namedOffsets, List.forall_mem_cons] at hn
  unfold namedAt
  split <;> first | rfl | (exfalso; revert hn; decide)

/-- The counters of receiver `rx` (R40). -/
theorem regAt_counter (nRx rx : Nat) {k : Nat} (hk : k < 0x10) :
    regAt nRx (0x80 + 0x10 * rx + k) = counterAt nRx rx k := by
  have h1 : (0x80 + 0x10 * rx + k - 0x80) / 0x10 = rx := by omega
  have h2 : (0x80 + 0x10 * rx + k - 0x80) % 0x10 = k := by omega
  have h3 : ¬0x80 + 0x10 * rx + k < 0x80 := by omega
  simp only [regAt, h1, h2, if_neg h3]

/-- An unassigned offset names no register (R48). -/
theorem regAt_unassigned {c : Cfg} {offset : BitVec 12} (h : Unassigned c offset) :
    regAt c.nRx offset.toNat = none := by
  obtain ⟨-, h4, hn, hc⟩ := h
  have hn' : ∀ o ∈ namedOffsets, offset.toNat ≠ BitVec.toNat o := fun o ho he =>
    hn (BitVec.eq_of_toNat_eq he ▸ ho)
  generalize offset.toNat = n at *
  unfold regAt
  split
  · exact namedAt_none hn'
  · unfold counterAt
    split
    · rename_i hr
      have hk : ∀ k ∈ [0x0, 0x4, 0x8], (n - 0x80) % 0x10 ≠ k := fun k hk he =>
        hc ((n - 0x80) / 0x10) k hr hk (by omega)
      simp only [List.mem_cons, List.not_mem_nil, or_false, forall_eq_or_imp, forall_eq] at hk
      split
      · exact absurd (by assumption) hk.1
      · exact absurd (by assumption) hk.2.1
      · exact absurd (by assumption) hk.2.2
      · rfl
    · rfl

/-- An idle write of an aligned word of `REG` (R48). -/
theorem access_write_reg {s : State} (hp : s.phase = .idle) {offset : BitVec 12} (w : Word)
    (h : offset.toNat < 0x100) (h4 : offset.toNat % 4 = 0) :
    s.access (.write .word offset w) =
      .next ((regAt s.cfg.nRx offset.toNat).elim s fun r => s.writeReg r w) := by
  simp only [State.access, State.hostWrite, hp, regionOf_reg h, shapeAccepted, h4, State.writeIdle]
  cases regAt s.cfg.nRx offset.toNat <;> rfl

/-- An idle read of an aligned word of `REG` (R48). -/
theorem access_read_reg {s : State} (hp : s.phase = .idle) {offset : BitVec 12}
    (h : offset.toNat < 0x100) (h4 : offset.toNat % 4 = 0) :
    s.access (.read .word offset) =
      .next (s.answer ((regAt s.cfg.nRx offset.toNat).elim 0 s.readReg)) := by
  simp only [State.access, State.hostRead, hp, regionOf_reg h, shapeAccepted, h4, State.readIdle]
  cases regAt s.cfg.nRx offset.toNat <;> rfl

end Sys2Proof.Machine
end

