-- ==== Sys2Proof/Laws/Codec.lean ====
section
/-! SUPPORT. The lengths the codec functions produce: how many symbols, bits and bytes. -/

namespace Sys2Proof.Machine

@[simp] theorem natBits_length (w v : Nat) : (natBits w v).length = w := by
  induction w with
  | zero => rfl
  | succ w ih => simp [natBits, ih]

@[simp] theorem chunks_length {α : Type} (m n : Nat) (X : List α) : (chunks m n X).length = n := by
  induction n generalizing X with
  | zero => rfl
  | succ n ih => simp [chunks, ih]

@[simp] theorem bitsOf_length (B : List Byte) : (bitsOf B).length = 8 * B.length := by
  simp [bitsOf, List.length_flatMap, Nat.mul_comm]

@[simp] theorem symBits_length (m : Nat) (S : List Nat) : (symBits m S).length = m * S.length := by
  simp [symBits, List.length_flatMap, Nat.mul_comm]

@[simp] theorem symsOf_length (m : Nat) (X : List Bool) :
    (symsOf m X).length = ceilDiv X.length m := by simp [symsOf]

@[simp] theorem bytesOf_length (X : List Bool) : (bytesOf X).length = ceilDiv X.length 8 := by
  simp [bytesOf]

theorem ceilDiv_mul (a b : Nat) (hb : 0 < b) : ceilDiv (b * a) b = a := by
  unfold ceilDiv
  rw [Nat.add_sub_assoc hb, Nat.mul_add_div hb, Nat.div_eq_of_lt (by omega), Nat.add_zero]

/-- The sum of two lists is as long as the longer. -/
@[simp] theorem xorLists_length (xs ys : List Nat) :
    (xorLists xs ys).length = max xs.length ys.length := by
  induction xs generalizing ys with
  | nil => simp [xorLists]
  | cons x xs ih => cases ys <;> simp [xorLists, ih]

@[simp] theorem gfScale_length (c : RsCfg) (a : Nat) (xs : List Nat) :
    (gfScale c a xs).length = xs.length := by simp [gfScale]

/-- The generator polynomial has degree `r` (R162). -/
theorem genPrefix_length (c : RsCfg) (i : Nat) : (genPrefix c i).length = i + 1 := by
  induction i with
  | zero => rfl
  | succ i ih => simp [genPrefix, ih]

theorem parityStep_length (c : RsCfg) {taps rem : List Nat} {n : Nat} (ht : taps.length = n)
    (hr : rem.length = n) (hn : 0 < n) (s : Nat) : (parityStep c taps rem s).length = n := by
  simp [parityStep, ht, hr]; omega

/-- `RSParity` gives `r` symbols (R163). -/
theorem rsParity_length (c : RsCfg) (h : 0 < RsCfg.par c) (M : List Nat) :
    (rsParity c M).length = RsCfg.par c := by
  have ht : (generator c).tail.length = RsCfg.par c := by simp [generator, genPrefix_length]
  suffices H : ∀ rem : List Nat, rem.length = RsCfg.par c →
      (M.foldl (parityStep c (generator c).tail) rem).length = RsCfg.par c from H _ (by simp)
  induction M with
  | nil => exact fun rem hr => hr
  | cons s M ih => exact fun rem hr => ih _ (parityStep_length c ht hr h s)

@[simp] theorem applyErrors_length (w : List Nat) (es : List (Nat × Nat)) :
    (applyErrors w es).length = w.length := by
  induction es generalizing w with
  | nil => rfl
  | cons e es ih => simp [applyErrors, ih]

/-- What `RSDecode` can answer: the word itself when it is a codeword, or a codeword reached by adding
error values at no more than `t` positions (R165, R168). -/
theorem rsDecode_some {c : RsCfg} {R C : List Nat} (h : rsDecode c R = some C) :
    (C = R ∧ isCodeword c R = true) ∨
      ∃ pos : List Nat, ∃ vals : List Nat, pos.length ≤ RsCfg.cap c ∧ C = applyErrors R (pos.zip vals) ∧
        isCodeword c C = true := by
  unfold rsDecode at h
  dsimp only at h
  split at h
  · rename_i hz; cases h; exact .inl ⟨rfl, hz⟩
  · split at h
    · cases h
    · rename_i hcap
      split at h
      · cases h
      · rename_i hpos
        unfold rsCorrect at h
        split at h
        · cases h
        · rename_i vals _
          split at h
          · cases h
          · dsimp only at h
            split at h
            · rename_i hcw
              cases h
              exact .inr ⟨_, vals, by omega, rfl, hcw⟩
            · cases h

/-- `RSDecode` keeps the word's length (R165). -/
theorem rsDecode_length {c : RsCfg} {R C : List Nat} (h : rsDecode c R = some C) :
    C.length = R.length := by
  rcases rsDecode_some h with ⟨rfl, -⟩ | ⟨pos, vals, -, rfl, -⟩
  · rfl
  · simp

/-- The bytes of one segment's parity (R169). -/
theorem segmentParity_length (rs : RsCfg) (h : 0 < RsCfg.par rs) (seg : List Bool) :
    (segmentParity rs seg).length = ceilDiv (RsCfg.par rs * rs.m) 8 := by
  simp [segmentParity, rsParity_length rs h, Nat.mul_comm]

theorem flatMap_length_const {α β : Type} (f : α → List β) (n : Nat) (xs : List α)
    (h : ∀ x ∈ xs, (f x).length = n) : (xs.flatMap f).length = xs.length * n := by
  induction xs with
  | nil => simp
  | cons x xs ih =>
    have hx := h x List.mem_cons_self
    have := ih fun y hy => h y (List.mem_cons_of_mem x hy)
    simp [this, hx, Nat.add_mul, Nat.add_comm]

/-- `payload_encode` gives the bytes after the header, `LEN + S * PAR_BYTES` of them (R90, R196). -/
theorem payloadEncode_length (e : ModeEntry) (h : 0 < RsCfg.par e.rs) (P : List Byte) :
    (payloadEncode e P).length = P.length + segCount e P.length * parBytes e := by
  have := flatMap_length_const (segmentParity e.rs) (parBytes e) (segments e P)
    fun seg _ => segmentParity_length e.rs h seg
  simp only [payloadEncode, List.length_append, this]
  simp [segments]

/-- A decoded segment is as long as the segment (R196). -/
theorem segmentDecode_length {rs : RsCfg} (hm : 0 < rs.m) {seg : List Bool} {parity : List Byte}
    {Y : List Bool} (h : segmentDecode rs seg parity = some Y) : Y.length = seg.length := by
  unfold segmentDecode at h
  dsimp only at h
  split at h
  · cases h
  · rename_i R hR
    split at h
    · cases h
    · cases h
      have hl := rsDecode_length hR
      have hj : seg.length ≤ rs.m * ceilDiv seg.length rs.m := by
        unfold ceilDiv
        have h1 := Nat.div_add_mod (seg.length + rs.m - 1) rs.m
        have h2 := Nat.mod_lt (seg.length + rs.m - 1) hm
        omega
      simp only [List.length_append, symsOf_length] at hl
      simp only [List.length_take, symBits_length, symsOf_length]
      rw [Nat.min_eq_left (by omega : ceilDiv seg.length rs.m ≤ R.length)]
      omega

/-- The decoded segments together are as long as the segments (R196). -/
theorem segmentsDecode_length {e : ModeEntry} (hm : 0 < e.rs.m) {segs : List (List Bool)}
    {parity : List Byte} {Y : List Bool} (h : segmentsDecode e segs parity = some Y) :
    Y.length = segs.flatten.length := by
  induction segs generalizing parity Y with
  | nil => cases h; rfl
  | cons seg segs ih =>
    simp only [segmentsDecode] at h
    split at h
    · cases h
    · rename_i Z hZ
      obtain ⟨W, hW, rfl⟩ := Option.map_eq_some_iff.mp h
      simp [segmentDecode_length hm hZ, ih hW]

/-- Cutting a list into enough groups loses nothing. -/
theorem chunks_flatten {α : Type} (m n : Nat) (X : List α) (h : X.length ≤ n * m) :
    (chunks m n X).flatten = X := by
  induction n generalizing X with
  | zero => simp only [Nat.zero_mul, Nat.le_zero, List.length_eq_zero_iff] at h; simp [chunks, h]
  | succ n ih =>
    have : (X.drop m).length ≤ n * m := by
      rw [List.length_drop, Nat.succ_mul] at *; omega
    simp [chunks, ih _ this]

/-- The segments are exactly the payload's bits (R193). -/
theorem segments_flatten {e : ModeEntry} (hc : 0 < e.capBits) (P : List Byte) :
    (segments e P).flatten = bitsOf P := by
  refine chunks_flatten _ _ _ ?_
  unfold segCount ceilDiv
  have h1 := Nat.div_add_mod (8 * P.length + e.capBits - 1) e.capBits
  have h2 := Nat.mod_lt (8 * P.length + e.capBits - 1) hc
  rw [bitsOf_length, Nat.mul_comm _ e.capBits]
  omega

/-- `payload_decode` returns exactly `L` bytes (R196). -/
theorem payloadDecode_length {e : ModeEntry} (he : ModeEntry.Valid e) {L : Nat} {B P : List Byte}
    (hB : L ≤ B.length) (h : payloadDecode e L B = some P) : P.length = L := by
  obtain ⟨Y, hY, rfl⟩ := Option.map_eq_some_iff.mp h
  have hm : 0 < e.rs.m := Nat.lt_of_lt_of_le (by decide) he.1.1
  rw [bytesOf_length, segmentsDecode_length hm hY, segments_flatten he.2.1, bitsOf_length,
    List.length_take, Nat.min_eq_left hB, ceilDiv_mul _ _ (by decide)]

/-- Three field bytes (R92). -/
@[simp] theorem headerFields_length (f : FrameRegs) : (headerFields f).length = 3 := rfl

/-- Two bytes of header check sequence (R93). -/
@[simp] theorem headerHcs_length (c : Cfg) (B : List Byte) : (headerHcs c B).length = 2 := by
  unfold headerHcs hcsStore; split <;> rfl

/-- Three bytes of header parity (R94). -/
theorem headerParity_length (c : Cfg) (h : RsCfg.par c.hdrRs = 4) (B : List Byte) :
    (headerParity c B).length = 3 := by
  simp [headerParity, rsParity_length c.hdrRs (by omega), h, ceilDiv]

/-- The header is eight bytes (R91). -/
theorem headerEncode_length (c : Cfg) (h : RsCfg.par c.hdrRs = 4) (f : FrameRegs) :
    (headerEncode c f).length = 8 := by
  simp [headerEncode, headerParity_length c h]

/-- A corrected header is eight bytes (R129). -/
theorem hdrCorrect_length {c : Cfg} {B H : List Byte} (hB : B.length = 8)
    (h : hdrCorrect c B = some H) : H.length = 8 := by
  unfold hdrCorrect at h
  split at h
  · cases h
  · rename_i r hr
    dsimp only at h
    split at h
    · cases h
    · cases h
      have := rsDecode_length hr
      simp [hdrData, hdrPar, hB, ceilDiv] at this
      simp [ceilDiv, this]

/-- The header code has four parity symbols (R9, R171). -/
theorem hdrRs_par {c : Cfg} (h : Cfg.Valid c) : RsCfg.par c.hdrRs = 4 := by
  have h1 := h.2.2.1.2.1
  have h2 := h.2.2.1.2.2.1
  simp [RsCfg.par, h1, h2]

/-- The entry a mode lookup finds stands in a row of the table. -/
theorem modeLookup_mem {rows : List ModeRow} {mode : BitVec 4} {mp : BitVec 8} {e : ModeEntry}
    (h : modeLookup rows mode mp = some e) : ∃ row ∈ rows, row.entry = some e := by
  induction rows with
  | nil => cases h
  | cons row rows ih =>
    simp only [modeLookup] at h
    split at h
    · exact ⟨row, List.mem_cons_self, h⟩
    · obtain ⟨r, hr, he⟩ := ih h
      exact ⟨r, List.mem_cons_of_mem row hr, he⟩

/-- Every mode entry of a valid configuration is valid (R10). -/
theorem modeEntry_valid {c : Cfg} (hc : Cfg.Valid c) {mode : BitVec 4} {mp : BitVec 8}
    {e : ModeEntry} (h : modeEntry c mode mp = some e) : ModeEntry.Valid e := by
  obtain ⟨row, hr, he⟩ := modeLookup_mem h
  exact hc.2.2.2.1 row hr e he

/-- A valid code has parity symbols (R160). -/
theorem par_pos {c : RsCfg} (h : RsCfg.Valid c) : 0 < RsCfg.par c := by
  have := h.2.2.2.2.2.1
  simp only [RsCfg.par]; omega

end Sys2Proof.Machine
end

