-- ==== Sys2Proof/Laws/Exec.lean ====
section
/-! SUPPORT. One lemma per command with more than one outcome: everything the next state of a command can
be. The commands not listed have one outcome, by `rfl`. -/

namespace Sys2Proof.Machine

variable {s t : State}

/-- What `HUNPK` does (40_header_codec.md R125). -/
theorem execHunpk_next (h : execHunpk s = .next t) :
    t = (((s.setHeader (bytesAt s.fb 0 3)).clearLenv).complete 0x02 .ok) := by
  obtain ⟨-, h⟩ := withFb_next h; cases h; rfl

/-- What `HCSGEN` does (R126). -/
theorem execHcsgen_next (h : execHcsgen s = .next t) :
    t = (s.storeFb 3 (headerHcs s.cfg (bytesAt s.fb 0 3))).complete 0x03 .ok := by
  obtain ⟨-, h⟩ := withFb_next h; cases h; rfl

/-- What `HCSCHK` does (R127). -/
theorem execHcschk_next (h : execHcschk s = .next t) :
    t = s.complete 0x04 .ok ∨ t = s.complete 0x04 .errHcs := by
  obtain ⟨-, h⟩ := withFb_next h
  split at h <;> cases h
  · exact .inl rfl
  · exact .inr rfl

/-- What `HPARGEN` does (R128). -/
theorem execHpargen_next (h : execHpargen s = .next t) :
    t = (s.storeFb 5 (headerParity s.cfg (bytesAt s.fb 0 5))).complete 0x05 .ok := by
  obtain ⟨-, h⟩ := withFb_next h; cases h; rfl

/-- What `HPARDEC` does (R129). -/
theorem execHpardec_next (h : execHpardec s = .next t) :
    t = s.complete 0x06 .errHpar ∨
      ∃ H, hdrCorrect s.cfg (bytesAt s.fb 0 8) = some H ∧ t = (s.storeFb 0 H).complete 0x06 .ok := by
  obtain ⟨-, h⟩ := withFb_next h
  split at h
  · cases h; exact .inl rfl
  · rename_i H hH; cases h; exact .inr ⟨H, hH, rfl⟩

/-- What `HDEC rx` does (R131). -/
theorem execHdec_next {rx : Nat} (h : execHdec rx s = .next t) :
    (∃ c, c ≠ .ok ∧ t = s.complete 0x08 c) ∨
      (rx < s.cfg.nRx ∧ ∃ k c, c ≠ .ok ∧ t = (s.countFailure k rx).complete 0x08 c) ∨
      ∃ H, t = ((s.setHeader H).clearLenv).complete 0x08 .ok := by
  unfold execHdec at h
  dsimp only at h
  split at h
  · cases h; exact .inl ⟨.errParam, by decide, rfl⟩
  · rename_i hr
    have hrx : rx < s.cfg.nRx := by
      simp only [State.rxOutOfRange, Bool.or_eq_true, decide_eq_true_eq, not_or] at hr; omega
    split at h
    · cases h; exact .inl ⟨.errLen, by decide, rfl⟩
    · rcases (receiveHeader_next h).2 with ⟨-, rfl⟩ | ⟨H, -, ⟨-, rfl⟩ | ⟨-, h⟩⟩
      · exact .inr (.inl ⟨hrx, .hpar, .errHpar, by decide, rfl⟩)
      · exact .inr (.inl ⟨hrx, .hcs, .errHcs, by decide, rfl⟩)
      · cases h; exact .inr (.inr ⟨H, rfl⟩)

/-- What `LENC` does (42_payload_fec.md R195). -/
theorem execLenc_next (h : execLenc s = .next t) :
    (∃ c, c ≠ .ok ∧ t = s.setLenErr.complete 0x10 c) ∨
      (∃ n, s.frame.framing ≠ 0 ∧ t = (s.setLenOk 0 n).complete 0x10 .ok) ∨
      ∃ f, s.frameLen = .ok f ∧ t = (s.setLenOk f.segs f.tot).complete 0x10 .ok := by
  unfold execLenc at h
  dsimp only at h
  split at h
  · cases h; exact .inl ⟨.errParam, by decide, rfl⟩
  · rename_i sub hsub
    have hf : s.frame.framing ≠ 0 := by
      rintro hf; simp [State.framingUsable, framingOf, hf] at hsub
    split at h
    · cases h; exact .inl ⟨.errMode, by decide, rfl⟩
    · rename_i n _
      split at h
      · cases h; exact .inl ⟨.errLen, by decide, rfl⟩
      · cases h; exact .inr (.inl ⟨n, hf, rfl⟩)
  · rcases withFrameLen_next h with ⟨c, hc, rfl⟩ | ⟨f, hf, h⟩
    · refine .inl ⟨c, ?_, rfl⟩
      rcases primaryLen_error hc with ⟨rfl, -⟩ | ⟨rfl, -⟩ <;> decide
    · cases h; exact .inr (.inr ⟨f, hf, rfl⟩)

/-- A failed length computation is never `OK` (R194). -/
theorem frameLen_error_ne {c : ResultCode} (h : s.frameLen = .error c) : c ≠ .ok := by
  rcases primaryLen_error h with ⟨rfl, -⟩ | ⟨rfl, -⟩ <;> decide

/-- What `PENC` does (R197). -/
theorem execPenc_next (h : execPenc s = .next t) :
    t = s.complete 0x11 .errParam ∨ (∃ c, c ≠ .ok ∧ t = s.setLenErr.complete 0x11 c) ∨
      ∃ f, s.frameLen = .ok f ∧
        t = ((s.setLenOk f.segs f.tot).storeFb hdrSize
          (payloadEncode f.entry (bytesAt s.pb 0 s.frame.len.toNat))).complete 0x11 .ok := by
  unfold execPenc at h
  dsimp only at h
  split at h
  · cases h; exact .inl rfl
  · rcases withFrameLen_next h with ⟨c, hc, rfl⟩ | ⟨f, hf, h⟩
    · exact .inr (.inl ⟨c, frameLen_error_ne hc, rfl⟩)
    · obtain ⟨-, rfl⟩ := sendPayload_next h; exact .inr (.inr ⟨f, hf, rfl⟩)

/-- What the payload part of a receive command does to a state (R198, R200). -/
theorem receivePayload_outcome {op : BitVec 8} {rx : Nat} (h : s.receivePayload op rx = .next t) :
    (∃ c, c ≠ .ok ∧ t = s.setLenErr.complete op c) ∨
      ∃ f, s.frameLen = .ok f ∧
        (t = (s.setLenOk f.segs f.tot).complete op .errLen ∨
          t = ((s.setLenOk f.segs f.tot).countFailure .pld rx).complete op .errPld ∨
          ∃ P, payloadDecode f.entry s.frame.len.toNat
              (bytesAt s.fb hdrSize (f.tot - hdrSize)) = some P ∧
            t = ((s.setLenOk f.segs f.tot).storePb P).complete op .ok) := by
  rcases receivePayload_next h with ⟨c, hc, rfl⟩ | ⟨f, hf, h⟩
  · exact .inl ⟨c, frameLen_error_ne hc, rfl⟩
  · refine .inr ⟨f, hf, ?_⟩
    rcases h with ⟨-, rfl⟩ | ⟨-, -, ⟨-, rfl⟩ | ⟨P, hP, rfl⟩⟩
    · exact .inl rfl
    · exact .inr (.inl rfl)
    · exact .inr (.inr ⟨P, hP, rfl⟩)

/-- The range checks of a receive command passed. -/
theorem rx_lt_of_inRange {rx : Nat} (h : ¬s.rxOutOfRange rx = true) : rx < s.cfg.nRx := by
  simp only [State.rxOutOfRange, Bool.or_eq_true, decide_eq_true_eq, not_or] at h; omega

theorem rxlen_le_of_inRange {rx : Nat} (h : ¬s.rxOutOfRange rx = true) :
    s.frame.rxlen.toNat ≤ fbSize := by
  simp only [State.rxOutOfRange, Bool.or_eq_true, decide_eq_true_eq, not_or] at h; omega

/-- What `PDEC rx` does (R198). -/
theorem execPdec_next {rx : Nat} (h : execPdec rx s = .next t) :
    t = s.complete 0x12 .errParam ∨
      rx < s.cfg.nRx ∧ s.receivePayload 0x12 rx = .next t := by
  unfold execPdec at h
  dsimp only at h
  split at h
  · cases h; exact .inl rfl
  · rename_i hr; exact .inr ⟨rx_lt_of_inRange hr, h⟩

/-- What `FENC` does (R199). -/
theorem execFenc_next (h : execFenc s = .next t) :
    t = s.complete 0x13 .errParam ∨ (∃ c, c ≠ .ok ∧ t = s.setLenErr.complete 0x13 c) ∨
      (∃ sub, s.frame.framing ≠ 0 ∧ s.starSend 0x13 sub = .next t) ∨
      ∃ f, s.frameLen = .ok f ∧
        t = ((((s.setLenOk f.segs f.tot).storeFb 0 (headerEncode s.cfg s.frame)).storeFb hdrSize
          (payloadEncode f.entry (bytesAt s.pb 0 s.frame.len.toNat))).complete 0x13 .ok) := by
  unfold execFenc at h
  dsimp only at h
  split at h
  · cases h; exact .inl rfl
  · rename_i sub hsub
    refine .inr (.inr (.inl ⟨sub, ?_, h⟩))
    rintro hf; simp [State.framingUsable, framingOf, hf] at hsub
  · split at h
    · cases h; exact .inl rfl
    · rcases withFrameLen_next h with ⟨c, hc, rfl⟩ | ⟨f, hf, h⟩
      · exact .inr (.inl ⟨c, frameLen_error_ne hc, rfl⟩)
      · obtain ⟨-, rfl⟩ := sendPayload_next h; exact .inr (.inr (.inr ⟨f, hf, rfl⟩))

/-- What `FDEC rx` does (R200). -/
theorem execFdec_next {rx : Nat} (h : execFdec rx s = .next t) :
    (∃ c, c ≠ .ok ∧ t = s.complete 0x14 c) ∨
      (rx < s.cfg.nRx ∧ ∃ k c, c ≠ .ok ∧ t = (s.countFailure k rx).complete 0x14 c) ∨
      (∃ sub, s.frame.framing ≠ 0 ∧ rx < s.cfg.nRx ∧ s.frame.rxlen.toNat ≤ fbSize ∧
        s.starRecv 0x14 rx sub = .next t) ∨
      ∃ H, rx < s.cfg.nRx ∧ (s.setHeader H).receivePayload 0x14 rx = .next t := by
  unfold execFdec at h
  dsimp only at h
  split at h
  · cases h; exact .inl ⟨.errParam, by decide, rfl⟩
  · rename_i hr
    have hrx := rx_lt_of_inRange hr
    split at h
    · cases h; exact .inl ⟨.errParam, by decide, rfl⟩
    · rename_i sub hsub
      refine .inr (.inr (.inl ⟨sub, ?_, hrx, rxlen_le_of_inRange hr, h⟩))
      rintro hf; simp [State.framingUsable, framingOf, hf] at hsub
    · split at h
      · cases h; exact .inl ⟨.errLen, by decide, rfl⟩
      · rcases (receiveHeader_next h).2 with ⟨-, rfl⟩ | ⟨H, -, ⟨-, rfl⟩ | ⟨-, h⟩⟩
        · exact .inr (.inl ⟨hrx, .hpar, .errHpar, by decide, rfl⟩)
        · exact .inr (.inl ⟨hrx, .hcs, .errHcs, by decide, rfl⟩)
        · exact .inr (.inr (.inr ⟨H, hrx, h⟩))

/-- A failed STAR length is never `OK` (43_star_legacy.md R236). -/
theorem starRxLen_error_ne {sc : StarCfg} {sub : StarSub} {H : List Byte} {c : ResultCode}
    (h : starRxLen sc sub H = .error c) : c ≠ .ok := by
  rintro rfl
  unfold starRxLen at h
  split at h
  · cases h
  · split at h
    · cases h
    · dsimp only at h; split at h <;> cases h

/-- What `SLEN` does (R236). -/
theorem execSlen_next (h : execSlen s = .next t) :
    t = s.complete 0x20 .errIllcmd ∨ (∃ c, c ≠ .ok ∧ t = s.setLenErr.complete 0x20 c) ∨
      ∃ L tot, s.frame.framing ≠ 0 ∧ t = ((s.setLen L).setLenOk 0 tot).complete 0x20 .ok := by
  unfold execSlen at h
  dsimp only at h
  split at h
  · split at h
    · rename_i sub hsub
      have hf : s.frame.framing ≠ 0 := by rintro hf; simp [framingOf, hf] at hsub
      split at h
      · cases h; exact .inr (.inl ⟨.errParam, by decide, rfl⟩)
      · rcases starLength_next h with ⟨-, rfl⟩ | ⟨-, -, ⟨c, hc, rfl⟩ | ⟨L, tot, -, h⟩⟩
        · exact .inr (.inl ⟨.errLen, by decide, rfl⟩)
        · exact .inr (.inl ⟨c, starRxLen_error_ne hc, rfl⟩)
        · cases h; exact .inr (.inr ⟨L, tot, hf, rfl⟩)
    · cases h; exact .inr (.inl ⟨.errParam, by decide, rfl⟩)
    · cases h; exact .inr (.inl ⟨.errParam, by decide, rfl⟩)
  · cases h; exact .inl rfl

/-- What `SENC` does (R237). -/
theorem execSenc_next (h : execSenc s = .next t) :
    (∃ c, c ≠ .ok ∧ t = s.complete 0x21 c) ∨
      ∃ sub, s.frame.framing ≠ 0 ∧ s.starSend 0x21 sub = .next t := by
  unfold execSenc at h
  dsimp only at h
  split at h
  · split at h
    · rename_i sub hsub
      exact .inr ⟨sub, by rintro hf; simp [framingOf, hf] at hsub, h⟩
    · cases h; exact .inl ⟨.errParam, by decide, rfl⟩
    · cases h; exact .inl ⟨.errParam, by decide, rfl⟩
  · cases h; exact .inl ⟨.errIllcmd, by decide, rfl⟩

/-- What `SDEC rx` does (R238). -/
theorem execSdec_next {rx : Nat} (h : execSdec rx s = .next t) :
    (∃ c, c ≠ .ok ∧ t = s.complete 0x22 c) ∨
      ∃ sub, s.frame.framing ≠ 0 ∧ rx < s.cfg.nRx ∧ s.frame.rxlen.toNat ≤ fbSize ∧
        s.starRecv 0x22 rx sub = .next t := by
  unfold execSdec at h
  dsimp only at h
  split at h
  · split at h
    · rename_i sub hsub
      split at h
      · cases h; exact .inl ⟨.errParam, by decide, rfl⟩
      · rename_i hr
        exact .inr ⟨sub, by rintro hf; simp [framingOf, hf] at hsub, rx_lt_of_inRange hr,
          rxlen_le_of_inRange hr, h⟩
    · cases h; exact .inl ⟨.errParam, by decide, rfl⟩
    · cases h; exact .inl ⟨.errParam, by decide, rfl⟩
  · cases h; exact .inl ⟨.errIllcmd, by decide, rfl⟩

/-- What `CLRCNT` does (45_system.md R291). -/
theorem execClrcnt_next {rx : Nat} {all : Bool} (h : execClrcnt rx all s = .next t) :
    t = s.complete 0x3E .errParam ∨
      t = { s with counters := s.counters.map fun _ => countersZero }.complete 0x3E .ok ∨
      t = { s with counters := s.counters.set rx countersZero }.complete 0x3E .ok := by
  unfold execClrcnt at h
  dsimp only at h
  split at h
  · cases h; exact .inr (.inl rfl)
  · split at h
    · cases h; exact .inl rfl
    · cases h; exact .inr (.inr rfl)

end Sys2Proof.Machine
end

