-- ==== Sys2Proof/Laws/PerInstr.lean ====
section
/-! SUPPORT. The fields of each command's word (30_encoding.md R101, R102), one lemma per command. -/

namespace Sys2Proof.Laws

/-- The encoder puts the opcode in `w[7:0]`, leaves `w[31:12]` zero, and puts `RX` and `ALL` where the
decoder reads them. -/
def FieldsOfWord.Statement (i : Instr) : Prop :=
  wordOp (encode i) = i.opcode ∧ wordReserved (encode i) = 0 ∧ wordRx (encode i) = i.rxField ∧
    wordAll (encode i) = i.allField

/-- The fields of a word built of its four fields. -/
theorem fieldsOfWord_word (op : BitVec 8) (rx : BitVec 3) (all : Bool) :
    wordOp (0#20 ++ BitVec.ofBool all ++ rx ++ op) = op ∧
      wordReserved (0#20 ++ BitVec.ofBool all ++ rx ++ op) = 0 ∧
      wordRx (0#20 ++ BitVec.ofBool all ++ rx ++ op) = rx ∧
      wordAll (0#20 ++ BitVec.ofBool all ++ rx ++ op) = all := by
  have h (w : BitVec (20 + 1 + 3 + 8)) (k : Nat) (hw : w = 0#20 ++ BitVec.ofBool all ++ rx ++ op) :
      w.getLsbD k = if k < 8 then op.getLsbD k else if k < 11 then rx.getLsbD (k - 8) else
        (decide (k = 11) && all) := by
    rw [hw, BitVec.getLsbD_append, BitVec.getLsbD_append, BitVec.getLsbD_append]
    by_cases h8 : k < 8
    · simp [h8]
    · by_cases h11 : k < 11
      · simp [h8, h11, show k - 8 < 3 by omega]
      · by_cases h12 : k = 11
        · subst h12; simp
        · simp [h8, h11, h12, show ¬ k - 8 < 3 by omega, show ¬ k - 11 < 1 by omega, Nat.sub_sub]
  refine ⟨?_, ?_, ?_, ?_⟩
  · refine BitVec.eq_of_getLsbD_eq fun k hk => ?_
    simp only [wordOp, BitVec.getLsbD_extractLsb', Nat.zero_add, hk, decide_true, Bool.true_and]
    rw [h _ k rfl]; simp [hk]
  · refine BitVec.eq_of_getLsbD_eq fun k hk => ?_
    simp only [wordReserved, BitVec.getLsbD_extractLsb', hk, decide_true, Bool.true_and]
    rw [h _ (12 + k) rfl]
    simp [show ¬ 12 + k < 8 by omega, show ¬ 12 + k < 11 by omega, show ¬ 12 + k = 11 by omega]
  · refine BitVec.eq_of_getLsbD_eq fun k hk => ?_
    simp only [wordRx, BitVec.getLsbD_extractLsb', hk, decide_true, Bool.true_and]
    rw [h _ (8 + k) rfl]; simp [show 8 + k < 11 by omega]
  · exact h _ 11 rfl

theorem FieldsOfWord.nop : FieldsOfWord.Statement .nop := fieldsOfWord_word _ _ _
theorem FieldsOfWord.hpack : FieldsOfWord.Statement .hpack := fieldsOfWord_word _ _ _
theorem FieldsOfWord.hunpk : FieldsOfWord.Statement .hunpk := fieldsOfWord_word _ _ _
theorem FieldsOfWord.hcsgen : FieldsOfWord.Statement .hcsgen := fieldsOfWord_word _ _ _
theorem FieldsOfWord.hcschk : FieldsOfWord.Statement .hcschk := fieldsOfWord_word _ _ _
theorem FieldsOfWord.hpargen : FieldsOfWord.Statement .hpargen := fieldsOfWord_word _ _ _
theorem FieldsOfWord.hpardec : FieldsOfWord.Statement .hpardec := fieldsOfWord_word _ _ _
theorem FieldsOfWord.henc : FieldsOfWord.Statement .henc := fieldsOfWord_word _ _ _
theorem FieldsOfWord.hdec (rx : Nat) : FieldsOfWord.Statement (.hdec rx) := fieldsOfWord_word _ _ _
theorem FieldsOfWord.lenc : FieldsOfWord.Statement .lenc := fieldsOfWord_word _ _ _
theorem FieldsOfWord.penc : FieldsOfWord.Statement .penc := fieldsOfWord_word _ _ _
theorem FieldsOfWord.pdec (rx : Nat) : FieldsOfWord.Statement (.pdec rx) := fieldsOfWord_word _ _ _
theorem FieldsOfWord.fenc : FieldsOfWord.Statement .fenc := fieldsOfWord_word _ _ _
theorem FieldsOfWord.fdec (rx : Nat) : FieldsOfWord.Statement (.fdec rx) := fieldsOfWord_word _ _ _
theorem FieldsOfWord.slen : FieldsOfWord.Statement .slen := fieldsOfWord_word _ _ _
theorem FieldsOfWord.senc : FieldsOfWord.Statement .senc := fieldsOfWord_word _ _ _
theorem FieldsOfWord.sdec (rx : Nat) : FieldsOfWord.Statement (.sdec rx) := fieldsOfWord_word _ _ _
theorem FieldsOfWord.ttxd : FieldsOfWord.Statement .ttxd := fieldsOfWord_word _ _ _
theorem FieldsOfWord.ttick : FieldsOfWord.Statement .ttick := fieldsOfWord_word _ _ _
theorem FieldsOfWord.tbkof : FieldsOfWord.Statement .tbkof := fieldsOfWord_word _ _ _
theorem FieldsOfWord.tclr : FieldsOfWord.Statement .tclr := fieldsOfWord_word _ _ _
theorem FieldsOfWord.clrcnt (rx : Nat) (all : Bool) : FieldsOfWord.Statement (.clrcnt rx all) := fieldsOfWord_word _ _ _
theorem FieldsOfWord.srst : FieldsOfWord.Statement .srst := fieldsOfWord_word _ _ _

end Sys2Proof.Laws
end

