-- ==== Sys2Proof/Tests/Slice0.lean ====
section
/-! SUPPORT. Tests. Expected values are the spec's: the field layout of 30_encoding.md R101 to R103 and
the vectors V1 to V76 of 95_test_vectors.md, named at each test. After them, for each statement with
hypotheses, a theorem `witness_<statement>` that a concrete state and operands meet them all. -/

namespace Sys2Proof.Machine

-- Each theorem is checked before the next is read: the kernel evaluations do not pile up.
set_option Elab.async false

/-! ## Helpers -/

/-- The state after one command, if it answers a next state. -/
def after (i : Instr) (s : State) : Option State :=
  match exec i s with
  | .next t => some t
  | .fault _ => none
  | .refused _ => none

/-- `STATUS` after one command. -/
def statusAfter (i : Instr) (s : State) : Option Word := (after i s).map State.statusWord

/-- The bytes `FB[i .. i+n-1]` after one command. -/
def fbAfter (i : Instr) (s : State) (a n : Nat) : Option (List Byte) :=
  (after i s).map fun t => bytesAt t.fb a n

/-- The bytes `PB[0 .. n-1]` after one command. -/
def pbAfter (i : Instr) (s : State) (n : Nat) : Option (List Byte) :=
  (after i s).map fun t => bytesAt t.pb 0 n

/-- The reset state with the frame operand registers given. -/
def framed (version mode : BitVec 4) (parm len : BitVec 8) (rxlen : BitVec 11) : State :=
  { State.reset with
    frame := { frameReset with version := version, mode := mode, modeparm := parm, len := len,
                               rxlen := rxlen } }

/-- A state with `FB` loaded from index 0. -/
def State.loadFb (s : State) (bs : List Byte) : State := { s with fb := Memory.writeBytes [] 0 bs }

/-- A state with `PB` loaded from index 0. -/
def State.loadPb (s : State) (bs : List Byte) : State := { s with pb := Memory.writeBytes [] 0 bs }

/-- A state with the thermal registers of the vectors: `PROT_EN`, `T_VT`, `T_SENSED`. -/
def heated (prot : Bool) (vt sensed : Word) : State :=
  { State.reset with thermal := { thermalReset with protEn := prot, vt := vt, sensed := sensed } }

/-- The frame of V34. -/
def frame34 : List Byte :=
  [0x00, 0x00, 0x05, 0x41, 0xA9, 0xDB, 0x84, 0x5F, 0x01, 0x02, 0x03, 0x04, 0x05, 0x9B, 0x11, 0x1A]

/-- The configuration of REFCFG with the delegate present. -/
def starCfgState : State := State.resetWith { refcfg with starPresent := true }

/-! ## Well-formedness: an ill-formed command for each check -/

theorem test_wellFormed_refuses_hdec : ¬Instr.WellFormed (.hdec 8) := by decide
theorem test_wellFormed_refuses_pdec : ¬Instr.WellFormed (.pdec 8) := by decide
theorem test_wellFormed_refuses_fdec : ¬Instr.WellFormed (.fdec 8) := by decide
theorem test_wellFormed_refuses_sdec : ¬Instr.WellFormed (.sdec 8) := by decide
theorem test_wellFormed_refuses_clrcnt : ¬Instr.WellFormed (.clrcnt 8 true) := by decide
theorem test_wellFormed_accepts_rx7 : Instr.WellFormed (.fdec 7) := by decide

/-! ## Decoding: each word written out field by field (reserved, `ALL`, `RX`, `OP`) -/

theorem test_decode_header :
    decode (0#20 ++ 0#1 ++ 0#3 ++ 0x01#8) = .ok .hpack ∧
      decode (0#20 ++ 0#1 ++ 0#3 ++ 0x02#8) = .ok .hunpk ∧
      decode (0#20 ++ 0#1 ++ 0#3 ++ 0x03#8) = .ok .hcsgen ∧
      decode (0#20 ++ 0#1 ++ 0#3 ++ 0x04#8) = .ok .hcschk ∧
      decode (0#20 ++ 0#1 ++ 0#3 ++ 0x05#8) = .ok .hpargen ∧
      decode (0#20 ++ 0#1 ++ 0#3 ++ 0x06#8) = .ok .hpardec ∧
      decode (0#20 ++ 0#1 ++ 0#3 ++ 0x07#8) = .ok .henc ∧
      decode (0#20 ++ 0#1 ++ 5#3 ++ 0x08#8) = .ok (.hdec 5) := by decide

theorem test_decode_payload :
    decode (0#20 ++ 0#1 ++ 0#3 ++ 0x10#8) = .ok .lenc ∧
      decode (0#20 ++ 0#1 ++ 0#3 ++ 0x11#8) = .ok .penc ∧
      decode (0#20 ++ 0#1 ++ 7#3 ++ 0x12#8) = .ok (.pdec 7) ∧
      decode (0#20 ++ 0#1 ++ 0#3 ++ 0x13#8) = .ok .fenc ∧
      decode (0#20 ++ 0#1 ++ 1#3 ++ 0x14#8) = .ok (.fdec 1) := by decide

theorem test_decode_star :
    decode (0#20 ++ 0#1 ++ 0#3 ++ 0x20#8) = .ok .slen ∧
      decode (0#20 ++ 0#1 ++ 0#3 ++ 0x21#8) = .ok .senc ∧
      decode (0#20 ++ 0#1 ++ 2#3 ++ 0x22#8) = .ok (.sdec 2) := by decide

theorem test_decode_thermal :
    decode (0#20 ++ 0#1 ++ 0#3 ++ 0x30#8) = .ok .ttxd ∧
      decode (0#20 ++ 0#1 ++ 0#3 ++ 0x31#8) = .ok .ttick ∧
      decode (0#20 ++ 0#1 ++ 0#3 ++ 0x32#8) = .ok .tbkof ∧
      decode (0#20 ++ 0#1 ++ 0#3 ++ 0x33#8) = .ok .tclr := by decide

theorem test_decode_system :
    decode (0#20 ++ 0#1 ++ 0#3 ++ 0x00#8) = .ok .nop ∧
      decode (0#20 ++ 0#1 ++ 6#3 ++ 0x3E#8) = .ok (.clrcnt 6 false) ∧
      decode (0#20 ++ 1#1 ++ 3#3 ++ 0x3E#8) = .ok (.clrcnt 3 true) ∧
      decode (0#20 ++ 0#1 ++ 0#3 ++ 0x3F#8) = .ok .srst := by decide

/-- V65, and a field beside each of the words. -/
theorem test_decode_rejects :
    decode 0x00000015 = .error (.unknownOpcode 0x15) ∧ decode 0x00000100 = .error .unusedRx ∧
      decode 0x00000813 = .error .unusedAll ∧ decode 0x00001000 = .error .reservedBits ∧
      decode 0x80000000 = .error .reservedBits ∧
      decode 0x000000FF = .error (.unknownOpcode 0xFF) ∧
      decode 0x0000090E = .error (.unknownOpcode 0x0E) ∧
      decode 0x00000914 = .error .unusedAll := by decide

/-- The table's word is the command's, and the machine is then about to run it. -/
theorem test_withFetchWord_runs :
    decodeTableWord 32 0x0000013E = some (.clrcnt 1 false) ∧
      (match step (State.reset.withFetchWord 32 0x00000000) with
       | .next t => t.statusWord == 0x00000002 && t.inputs.isEmpty
       | .fault _ => false
       | .refused _ => false) = true := by decide +kernel

/-- V65: an illegal word completes with `ERR_ILLCMD`. -/
theorem test_illegal_word_completes :
    (match step (State.reset.withCommand 0x0000090E) with
     | .next t => t.statusWord == 0x000E0106
     | .fault _ => false
     | .refused _ => false) = true := by decide +kernel

/-! ## Configuration and arithmetic -/

/-- REFCFG (R13) satisfies the constraints of R7 to R12, the primitive polynomials of R170 among them. -/
theorem test_refcfg_valid : Cfg.Valid refcfg := by decide +kernel

/-- V1 and V2. -/
theorem test_field_arithmetic :
    (List.range 12).map (gfAlpha rs63) = [1, 2, 4, 8, 16, 32, 3, 6, 12, 24, 48, 35] ∧
      gfMul rs63 30 17 = 55 ∧ gfMul rs63 63 63 = 42 ∧ gfInv rs63 2 = 33 ∧
      gfMul rs239 0x80 2 = 0x1D ∧ gfMul rs239 0xFF 0xFF = 0xE2 ∧ gfInv rs239 2 = 0x8E := by
  decide +kernel

/-- V3 to V7. -/
theorem test_rs_primitive :
    generator rs63 = [1, 30, 29, 17, 48] ∧ rsParity rs63 [1] = [30, 29, 17, 48] ∧
      rsParity rs63 [4, 0, 0, 0, 20, 38, 60] = [4, 41, 21, 53] ∧
      syndromes rs63 [4, 0, 5, 0, 20, 38, 60, 4, 41, 21, 53] = [60, 28, 22, 45] ∧
      rsDecode rs63 [4, 0, 5, 0, 20, 38, 60, 4, 41, 21, 53] =
        some [4, 0, 0, 0, 20, 38, 60, 4, 41, 21, 53] := by decide +kernel

/-- V5. -/
theorem test_rs239_parity :
    rsParity rs239 [0x01] = [0x76, 0x34, 0x67, 0x1F, 0x68, 0x7E, 0xBB, 0xE8, 0x11, 0x38, 0xB7, 0x31,
      0x64, 0x51, 0x2C, 0x4F] := by decide +kernel

/-- V8 and V50. -/
theorem test_bit_streams :
    symsOf 6 (bitsOf [0x10, 0x00, 0x00, 0x52, 0x6F]) = [4, 0, 0, 0, 20, 38, 60] ∧
      bytesOf (symBits 6 [4, 41, 21, 53]) = [0x12, 0x95, 0x75] ∧
      nibblesOf [0xA5, 0x3C] = [0xA, 0x5, 0x3, 0xC] := by decide +kernel

/-- V9 and V11. -/
theorem test_crc16 :
    crc16 refcfg.hcs [0x31, 0x32, 0x33, 0x34, 0x35, 0x36, 0x37, 0x38, 0x39] = 0xE5CC ∧
      crc16 refcfg.hcs [0x48, 0x59, 0x00] = 0x1127 := by decide +kernel

/-! ## The commands, one step each -/

/-- V66. -/
theorem test_nop : statusAfter .nop State.reset = some 0x00000002 := by decide +kernel

/-- V23. -/
theorem test_hpack :
    fbAfter .hpack (framed 2 1 0x01 0x40 0) 0 3 = some [0x21, 0x01, 0x40] ∧
      statusAfter .hpack (framed 2 1 0x01 0x40 0) = some 0x00010002 := by decide +kernel

/-- V23. -/
theorem test_hunpk :
    (after .hunpk (State.reset.loadFb [0xFA, 0x3C, 0x81])).map (fun t =>
      (t.frame.version, t.frame.mode, t.frame.modeparm, t.frame.len)) =
        some (0xF, 0xA, 0x3C, 0x81) := by decide +kernel

/-- V12. -/
theorem test_hcsgen :
    fbAfter .hcsgen (State.reset.loadFb [0x10, 0x00, 0x00]) 3 2 = some [0x52, 0x6F] ∧
      statusAfter .hcsgen (State.reset.loadFb [0x10, 0x00, 0x00]) = some 0x00030002 := by
  decide +kernel

/-- V13 and V14. -/
theorem test_hcschk :
    statusAfter .hcschk (State.reset.loadFb [0x10, 0x00, 0x00, 0x52, 0x6F]) = some 0x00040002 ∧
      statusAfter .hcschk (State.reset.loadFb [0x11, 0x00, 0x00, 0x52, 0x6F]) =
        some 0x00041006 := by decide +kernel

/-- The header of V16. -/
theorem test_hpargen :
    fbAfter .hpargen (State.reset.loadFb [0x10, 0x00, 0x00, 0x52, 0x6F]) 5 3 =
      some [0x12, 0x95, 0x75] := by decide +kernel

/-- V24. -/
theorem test_hpardec_corrects :
    fbAfter .hpardec (State.reset.loadFb [0x00, 0x3C, 0x05, 0x41, 0xA9, 0xDB, 0x84, 0x5F]) 0 8 =
      some [0x00, 0x00, 0x05, 0x41, 0xA9, 0xDB, 0x84, 0x5F] := by decide +kernel

/-- V25 and V26: three errors, and a corrected word with a pad bit set. -/
theorem test_hpardec_fails :
    statusAfter .hpardec (State.reset.loadFb [0x80, 0x00, 0x04, 0x41, 0xA9, 0xDB, 0x84, 0x5E]) =
        some 0x00061106 ∧
      statusAfter .hpardec (State.reset.loadFb [0x00, 0x00, 0x00, 0x00, 0x00, 0x79, 0xD4, 0x70]) =
        some 0x00061106 := by decide +kernel

/-- V17. -/
theorem test_henc :
    fbAfter .henc (framed 2 1 0x01 64 0) 0 8 =
      some [0x21, 0x01, 0x40, 0xDB, 0x0F, 0x04, 0x6B, 0xD1] := by decide +kernel

/-- V27: a header that the parity miscorrects and the check catches. -/
theorem test_hdec_counts_hcs :
    (after (.hdec 0) ((framed 0 0 0 0 8).loadFb
      [0x10, 0x59, 0x00, 0x52, 0x4D, 0x12, 0x02, 0x75])).map (fun t =>
        (t.statusWord, t.counter .hcs 0, t.counter .hpar 0, t.frame.version)) =
          some (0x00081016, 1, 0, 0) := by decide +kernel

/-- V29. -/
theorem test_hdec_range :
    statusAfter (.hdec 0) (framed 0 0 0 0 7) = some 0x00080406 ∧
      statusAfter (.hdec 2) (framed 0 0 0 0 7) = some 0x00080206 := by decide +kernel

/-- V30 to V32: the boundary of one segment, and a mode without an entry. -/
theorem test_lenc :
    (after .lenc (framed 0 0 7 44 0)).map (fun t => (t.frame.segcnt, t.frame.totlen)) = some (1, 55) ∧
      (after .lenc (framed 0 0 7 45 0)).map (fun t => (t.frame.segcnt, t.frame.totlen)) =
        some (2, 59) ∧
      statusAfter .lenc (framed 0 2 0 5 0) = some 0x00100306 := by decide +kernel

/-- V34: `PENC` writes `FB[8..15]` only. -/
theorem test_penc :
    (after .penc ((framed 0 0 0 5 0).loadPb [1, 2, 3, 4, 5])).map (fun t =>
      (bytesAt t.fb 8 8, t.fb.length)) =
        some ([0x01, 0x02, 0x03, 0x04, 0x05, 0x9B, 0x11, 0x1A], 8) := by decide +kernel

/-- V46. -/
theorem test_pdec_zero_word :
    pbAfter (.pdec 0) ((framed 0 0 0 5 16).loadFb (List.replicate 16 0)) 5 =
      some [0, 0, 0, 0, 0] := by decide +kernel

/-- V47, with the counter already saturated: `DIRTY` stays clear. -/
theorem test_pdec_saturated :
    (after (.pdec 0) (({ framed 0 0 0 5 16 with
        counters := [{ countersZero with pld := 0xFFFF }, countersZero] }).loadFb
      (List.replicate 8 0 ++ [0x00, 0x00, 0x00, 0x00, 0x00, 0x79, 0xD4, 0x70]))).map (fun t =>
        (t.statusWord, t.counter .pld 0)) = some (0x00121246, 0xFFFF) := by decide +kernel

/-- V34. -/
theorem test_fenc :
    fbAfter .fenc ((framed 0 0 0 5 0).loadPb [1, 2, 3, 4, 5]) 0 16 = some frame34 ∧
      statusAfter .fenc ((framed 0 0 0 5 0).loadPb [1, 2, 3, 4, 5]) = some 0x00130042 := by
  decide +kernel

/-- V69: `LEN > MAXPL`. -/
theorem test_fenc_maxpl :
    statusAfter .fenc { framed 0 0 0 65 0 with
      frame := { (framed 0 0 0 65 0).frame with maxpl := 64 } } = some 0x00130206 := by
  decide +kernel

/-- V40: one header byte and the frame otherwise intact. -/
theorem test_fdec_corrects :
    pbAfter (.fdec 0) ((framed 9 0 0 0 16).loadFb (frame34.set 1 0x3C)) 5 = some [1, 2, 3, 4, 5] := by
  decide +kernel

/-- V42: three wrong payload symbols. -/
theorem test_fdec_counts_pld :
    (after (.fdec 0) ((framed 0 0 0 0 16).loadFb
      (((frame34.set 8 0x81).set 10 0x43).set 12 0x04))).map (fun t =>
        (t.statusWord, t.counter .pld 0, t.frame.totlen, t.pb.length)) =
          some (0x00141256, 1, 16, 0) := by decide +kernel

/-- V49: without the delegate. -/
theorem test_star_absent :
    statusAfter .slen State.reset = some 0x00200106 ∧
      statusAfter .senc State.reset = some 0x00210106 ∧
      statusAfter (.sdec 0) State.reset = some 0x00220106 := by decide +kernel

/-- V51. -/
theorem test_ttxd :
    (after .ttxd { heated true 2500 2500 with
      thermal := { (heated true 2500 2500).thermal with txb := 100, txms := 50 } }).map (fun t =>
        (t.thermal.pendB, t.thermal.pendMs, t.thermal.vt)) = some (100, 50, 2500) := by
  decide +kernel

/-- V53: the rising edge. -/
theorem test_ttick_engages :
    (after .ttick { heated true 7990 2500 with
      thermal := { (heated true 7990 2500).thermal with pendB := 20 } }).map (fun t =>
        (t.statusWord, t.thermal.vt, t.thermal.engcnt)) = some (0x00310032, 8010, 1) := by
  decide +kernel

/-- V57 and V62: a negative temperature, and saturation at the lower end. -/
theorem test_ttick_signed :
    (after .ttick (heated true 0xFFFFFE0C 0xFFFFFC18)).map (fun t => t.thermal.vt.toInt) =
        some (-510) ∧
      (after .ttick (heated true 0x80000005 0x80000000)).map (fun t => t.thermal.vt.toInt) =
        some (-2147483648) := by decide +kernel

/-- V52. -/
theorem test_tbkof :
    (after .tbkof { heated true 3030 2500 with
      thermal := { (heated true 3030 2500).thermal with txb := 295, txms := 600 } }).map (fun t =>
        t.thermal.backoff) = some 123 := by decide +kernel

/-- V60. -/
theorem test_tbkof_minimum :
    (after .tbkof { heated true 4000 2500 with
      status := { statusReset with engaged := true } }).map (fun t => t.thermal.backoff) =
        some 20 := by decide +kernel

/-- V63. -/
theorem test_tclr :
    (after .tclr { heated true 8010 0 with
      status := { statusReset with engaged := true } }).map (fun t =>
        (t.status.engaged, t.thermal.engcnt, t.thermal.vt)) = some (false, 0, 8010) := by
  decide +kernel

/-- V67. -/
theorem test_clrcnt :
    (after (.clrcnt 1 false) { State.reset with
      counters := [{ hcs := 5, hpar := 6, pld := 9 }, { hcs := 3, hpar := 1, pld := 2 }] }).map
        (fun t => t.counters) = some [{ hcs := 5, hpar := 6, pld := 9 }, countersZero] ∧
      statusAfter (.clrcnt 2 false) State.reset = some 0x003E0206 := by decide +kernel

/-- V68. -/
theorem test_srst :
    (after .srst { framed 3 1 2 4 5 with
      irqen := 7, fb := [(0, 1)], status := { statusReset with ovr := true, dirty := true } }).map
        (fun t => (t.statusWord, t.frame, t.irqen, t.fb)) =
          some (0x003F0002, frameReset, 0, []) := by decide +kernel

/-! ## Host accesses -/

/-- V73. -/
theorem test_status_write :
    (State.statusWord (State.acknowledge
      { State.reset with
        status := { done := true, ovr := true, dirty := true, engaged := false, lenv := true,
                    code := .errPld, lastop := 0x14 } } 0xFFFFFFFF)) = 0x00141244 := by
  decide +kernel

/-- V74. -/
theorem test_tCtrl_write :
    (State.reset.writeTCtrl 0x7).tCtrlWord = 0x5 ∧
      ((State.reset.writeTCtrl 0x7).writeTCtrl 0x3).tCtrlWord = 0x1 := by decide +kernel

/-- V70 and V75. -/
theorem test_register_widths :
    (State.reset.writeReg .rxlen 0xFFFF).readReg .rxlen = 0x7FF ∧
      (State.reset.writeReg (.cnt .pld 1) 0x12345).readReg (.cnt .pld 1) = 0x2345 := by
  decide +kernel

/-- V76: an unwritten byte faults. -/
theorem test_unwritten_read :
    (match State.reset.hostRead .byte 0x409 with
     | .fault r => r == .unwrittenFb 9
     | .next _ => false
     | .refused _ => false) = true := by decide +kernel

/-! ## Witnesses: the hypotheses of each statement can be met -/

theorem fbWritten_load (s : State) (bs : List Byte) (i n : Nat) (h : i + n ≤ bs.length) :
    FbWritten (s.loadFb bs) i n := fun a _ h2 => by
  have ha : 0 ≤ a ∧ a < 0 + bs.length := by omega
  have hl : a < bs.length := by omega
  simp [State.loadFb, read_writeBytes, hl]

theorem pbWritten_load (s : State) (bs : List Byte) (n : Nat) (h : n ≤ bs.length) :
    PbWritten (s.loadPb bs) n := fun a h2 => by
  have hl : a < bs.length := by omega
  simp [State.loadPb, read_writeBytes, hl]

/-- `n` zero bytes. -/
@[irreducible] def zeros (n : Nat) : List Byte := List.replicate n 0

theorem zeros_length (n : Nat) : (zeros n).length = n := by unfold zeros; exact List.length_replicate

/-- Every byte of both buffers written. -/
def filled (s : State) : State := (s.loadFb (zeros fbSize)).loadPb (zeros pbSize)

theorem filled_fb (s : State) {i n : Nat} (h : i + n ≤ fbSize) : FbWritten (filled s) i n :=
  fun a h1 h2 => fbWritten_load s (zeros fbSize) i n (by rw [zeros_length]; exact h) a h1 h2

theorem filled_pb (s : State) {n : Nat} (h : n ≤ pbSize) : PbWritten (filled s) n :=
  pbWritten_load (s.loadFb (zeros fbSize)) (zeros pbSize) n (by rw [zeros_length]; exact h)

theorem reset_counters_ok (c : Cfg) (h : c = refcfg ∨ c = { refcfg with starPresent := true }) :
    (State.resetWith c).CountersOk := by
  have hz : ∀ rx, (State.resetWith c).rxCounters rx = countersZero := by
    rcases h with rfl | rfl <;> intro rx <;> rcases rx with _ | _ | n <;> rfl
  refine ⟨by rcases h with rfl | rfl <;> rfl, fun rx k => ?_, ?_⟩
  · simp only [State.counter, hz]
    rcases h with rfl | rfl <;> cases k <;> decide
  · rcases h with rfl | rfl <;> decide

/-- Unassigned offsets in REFCFG, from the checks on its two receivers. -/
theorem test_unassigned (offset : BitVec 12)
    (h : offset.toNat < 0x100 ∧ offset.toNat % 4 = 0 ∧ offset ∉ namedOffsets ∧
      ∀ rx ∈ [0, 1], ∀ k ∈ [0x0, 0x4, 0x8], offset.toNat ≠ 0x80 + 0x10 * rx + k) :
    Unassigned refcfg offset := by
  refine ⟨h.1, h.2.1, h.2.2.1, fun rx k hrx hk => h.2.2.2 rx ?_ k hk⟩
  have h2 : rx < 2 := hrx
  simp; omega

theorem witness_IllegalWordOnlyCompletes :
    IllegalWord refcfg 0x00000015 ∧ IllegalWord refcfg 0x00001000 ∧ IllegalWord refcfg 0x80000000 ∧
      IllegalWord refcfg 0x00000113 ∧ IllegalWord refcfg 0x00000814 ∧
      IllegalWord refcfg 0x00000020 ∧ ¬IllegalWord refcfg 0x0000013E ∧
      ¬IllegalWord { refcfg with starPresent := true } 0x00000020 := by
  refine ⟨?_, ?_, ?_, ?_, ?_, ?_, ?_, ?_⟩ <;> decide +kernel

theorem witness_StepRunsTheDecodedCommand :
    (State.reset.issue 0x31).phase = .busy 0x31 ∧ decode 0x31 = .ok .ttick ∧
      (State.reset.issue 0x31).inputs = [] ∧
      (State.reset.withCommand 0x31).inputs = .engine :: [] := by decide +kernel

theorem witness_CmdWriteIssuesTheWord :
    State.reset.phase = .idle ∧ (State.reset.issue 0).phase = .busy 0 := by decide +kernel

theorem witness_BusyAccesses :
    (State.reset.issue 0).phase = .busy 0 ∧ (8 : BitVec 12) ≠ 4 ∧
      shapeAccepted .word (regionOf 8) = true ∧ shapeAccepted .word (regionOf 0xFC) = true ∧
      shapeAccepted .byte (regionOf 0x400) = true ∧ shapeAccepted .byte (regionOf 0x8FF) = true ∧
      shapeAccepted .other (regionOf 0xFFF) = true := by decide +kernel

theorem witness_EveryCommandWordCompletes :
    ((filled State.reset).issue 0x14).phase = .busy 0x14 ∧
      FbWritten ((filled State.reset).issue 0x14) 0 fbSize ∧
      PbWritten ((filled State.reset).issue 0x14) pbSize :=
  ⟨rfl, filled_fb State.reset (Nat.le_refl _), filled_pb State.reset (Nat.le_refl _)⟩

theorem witness_CommandsStopOnlyOnUnwrittenBytes :
    exec .hunpk (State.reset.loadFb [1, 2]) = .fault (.unwrittenFb 2) ∧
      exec .penc (framed 0 0 0 1 0) = .fault (.unwrittenPb 0) ∧
      FirstUnwritten (State.reset.loadFb [1, 2]).fb 0 3 2 ∧ FirstUnwritten State.reset.fb 0 5 0 ∧
      FirstUnwritten (State.reset.loadFb [1, 2, 3, 4, 5, 6, 7]).fb 0 8 7 := by
  refine ⟨rfl, rfl, ⟨by decide, by decide, rfl, ?_⟩, ⟨by decide, by decide, rfl, ?_⟩,
    ⟨by decide, by decide, rfl, ?_⟩⟩
  · exact fun a h1 h2 => fbWritten_load State.reset [1, 2] 0 2 (by decide) a h1 h2
  · exact fun a h1 h2 => by omega
  · exact fun a h1 h2 =>
      fbWritten_load State.reset [1, 2, 3, 4, 5, 6, 7] 0 7 (by decide) a h1 h2

theorem witness_ResetInputResets :
    ({ State.reset.issue 0x14 with inputs := [.reset] }).inputs = .reset :: [] := rfl

/-- One offset of each kind: stored width, counter, read-only, unassigned, and the last of `REG`. -/
theorem witness_RegisterWriteThenRead :
    State.reset.phase = .idle ∧ State.reset.CountersOk ∧
      ((0x60, 16) ∈ ([(0x08, 4), (0x60, cntBits refcfg.cntW)] : List (BitVec 12 × Nat))) ∧
      (0x98 : BitVec 12).toNat = 0x80 + 0x10 * 1 + 0x8 ∧ 1 < State.reset.cfg.nRx ∧
      Unassigned refcfg 0x9C ∧ Unassigned refcfg 0xA0 ∧ Unassigned refcfg 0xFC ∧
      Unassigned refcfg 0x30 :=
  ⟨rfl, reset_counters_ok refcfg (.inl rfl), by decide, by decide, by decide,
    test_unassigned 0x9C (by decide +kernel), test_unassigned 0xA0 (by decide +kernel),
    test_unassigned 0xFC (by decide +kernel), test_unassigned 0x30 (by decide +kernel)⟩

/-- A counter, a read-only and an unassigned offset. -/
theorem witness_PlainWritesStore :
    State.reset.phase = .idle ∧ 1 < State.reset.cfg.nRx ∧
      (0x98 : BitVec 12).toNat = 0x88 + 0x10 * 1 ∧ (0x80 : BitVec 12).toNat = 0x80 + 0x10 * 0 ∧
      (0x94 : BitVec 12).toNat = 0x84 + 0x10 * 1 ∧ Unassigned refcfg 0x9C :=
  ⟨rfl, by decide, by decide, by decide, by decide, test_unassigned 0x9C (by decide +kernel)⟩

theorem witness_RegisterAccessFrame :
    Reg.version ∉ effectRegs ∧ Reg.mode ≠ Reg.version ∧ State.reset.phase = .idle ∧
      shapeAccepted .word (regionOf 0x08) = true ∧
      State.reset.access (.read .word 0x08) = .next (State.reset.answer 0) := by
  refine ⟨by decide, by decide, rfl, by decide, rfl⟩

theorem witness_WritesWithSideEffects : State.reset.phase = .idle := rfl

theorem witness_InterruptLine : State.reset.phase = .idle := rfl

theorem witness_ThermalControlReads : State.reset.phase = .idle := rfl

/-- Both ends of each range of the hypothesis. -/
theorem witness_BadlyShapedAccessIsRefused :
    State.reset.phase = .idle ∧ (0 : BitVec 12).toNat < 0x100 ∧ Width.byte ≠ Width.word ∧
      (0xFF : BitVec 12).toNat < 0x100 ∧ (0xFF : BitVec 12).toNat % 4 ≠ 0 ∧
      0x400 ≤ (0x400 : BitVec 12).toNat ∧ (0x8FF : BitVec 12).toNat < 0x900 ∧
      Width.word ≠ Width.byte := by decide +kernel

/-- The ends of each region; a written and an unwritten byte. -/
theorem witness_WindowMap :
    (State.reset.loadFb [7]).phase = .idle ∧ (0x400 : BitVec 12).toNat = 0x400 + 0 ∧
      Memory.read (State.reset.loadFb [7]).fb 0 = some 7 ∧ Memory.read State.reset.fb 1023 = none ∧
      (0x7FF : BitVec 12).toNat = 0x400 + 1023 ∧ (0x800 : BitVec 12).toNat = 0x800 + 0 ∧
      (0x8FF : BitVec 12).toNat = 0x800 + 255 ∧
      Memory.read (State.reset.loadPb [7]).pb 0 = some 7 ∧ Memory.read State.reset.pb 255 = none ∧
      0x100 ≤ (0x100 : BitVec 12).toNat ∧ (0x3FF : BitVec 12).toNat < 0x400 ∧
      0x900 ≤ (0x900 : BitVec 12).toNat ∧ 0x900 ≤ (0xFFF : BitVec 12).toNat ∧
      (0x98 : BitVec 12).toNat = 0x88 + 0x10 * 1 ∧ 1 < State.reset.cfg.nRx ∧
      Unassigned State.reset.cfg 0xFC := by
  refine ⟨?_, ?_, ?_, ?_, ?_, ?_, ?_, ?_, ?_, ?_, ?_, ?_, ?_, ?_, ?_,
    test_unassigned 0xFC (by decide +kernel)⟩ <;> decide +kernel

/-- The bytes that `HUNPK`, `HCSGEN` and `HCSCHK` read, all written. -/
theorem witness_HunpkUnpacksTheFields :
    Memory.read (State.reset.loadFb frame34).fb 0 = some 0x00 ∧
      Memory.read (State.reset.loadFb frame34).fb 1 = some 0x00 ∧
      Memory.read (State.reset.loadFb frame34).fb 2 = some 0x05 := by decide +kernel

theorem witness_HcsgenStoresTheCheck :
    Memory.read (State.reset.loadFb [0x10, 0x20, 0x30]).fb 0 = some 0x10 ∧
      Memory.read (State.reset.loadFb [0x10, 0x20, 0x30]).fb 1 = some 0x20 ∧
      Memory.read (State.reset.loadFb [0x10, 0x20, 0x30]).fb 2 = some 0x30 := by decide +kernel

theorem witness_HcschkComparesTheCheck :
    Memory.read (State.reset.loadFb frame34).fb 0 = some 0x00 ∧
      Memory.read (State.reset.loadFb frame34).fb 1 = some 0x00 ∧
      Memory.read (State.reset.loadFb frame34).fb 2 = some 0x05 ∧
      Memory.read (State.reset.loadFb frame34).fb 3 = some 0x41 ∧
      Memory.read (State.reset.loadFb frame34).fb 4 = some 0xA9 := by decide +kernel

theorem witness_OneFlippedBitChangesTheCheck :
    refcfg.hcs.poly ≠ 0 ∧ ([0x10, 0, 0] : List Byte).length = 3 ∧
      OneBitApart [0x10, 0, 0] [0x11, 0, 0] ∧ OneBitApart [0x10, 0, 0] [0x10, 0, 0x80] :=
  ⟨by decide, rfl, ⟨0, 0, by decide, by decide, by decide⟩, ⟨2, 7, by decide, by decide, by decide⟩⟩

theorem witness_HpargenStoresTheParity :
    HdrRsValid (State.reset.loadFb frame34).cfg.hdrRs ∧
      FbWritten (State.reset.loadFb frame34) 0 5 :=
  ⟨test_refcfg_valid.2.2.1, fbWritten_load _ _ 0 5 (by decide)⟩

theorem witness_HpardecCorrectsInPlace :
    HdrRsValid (State.reset.loadFb frame34).cfg.hdrRs ∧
      FbWritten (State.reset.loadFb frame34) 0 8 :=
  ⟨test_refcfg_valid.2.2.1, fbWritten_load _ _ 0 8 (by decide)⟩

/-- At the ends of `RXLEN`'s legal range. -/
theorem witness_HdecDecodesTheHeader :
    1 < (filled (framed 0 0 0 0 8)).cfg.nRx ∧ FbWritten (filled (framed 0 0 0 0 8)) 0 8 ∧
      8 ≤ (filled (framed 0 0 0 0 8)).frame.rxlen.toNat ∧
      (filled (framed 0 0 0 0 1024)).frame.rxlen.toNat ≤ 1024 ∧
      FbWritten (filled (framed 0 0 0 0 1024)) 0 8 :=
  ⟨by decide, filled_fb _ (by decide), by decide, by decide, filled_fb _ (by decide)⟩

theorem witness_FailureIsCounted : State.reset.CountersOk ∧ 1 < State.reset.cfg.nRx :=
  ⟨reset_counters_ok refcfg (.inl rfl), by decide⟩

theorem witness_ParityMakesACodeword :
    RsCfg.Valid rs63 ∧ IsWord rs63 [4, 0, 0, 0, 20, 38, 63] ∧
      1 ≤ ([4, 0, 0, 0, 20, 38, 63] : List Nat).length ∧
      ([4, 0, 0, 0, 20, 38, 63] : List Nat).length ≤ rs63.k :=
  ⟨test_refcfg_valid.2.2.1.2.2.2, by unfold IsWord; decide, by decide, by decide⟩

theorem witness_DecoderStaysWithinTheRadius :
    rsDecode rs63 [4, 0, 5, 0, 20, 38, 60, 4, 41, 21, 53] =
        some [4, 0, 0, 0, 20, 38, 60, 4, 41, 21, 53] ∧
      isCodeword rs63 [4, 0, 0, 0, 20, 38, 60, 4, 41, 21, 53] = true := by decide +kernel

/-- A word at distance exactly `t = 2`. -/
theorem witness_DecoderCorrectsUpToTheRadius :
    RsCfg.Valid rs63 ∧ IsWord rs63 [4, 0, 5, 0, 20, 38, 60, 4, 41, 21, 52] ∧
      IsWord rs63 [4, 0, 0, 0, 20, 38, 60, 4, 41, 21, 53] ∧
      isCodeword rs63 [4, 0, 0, 0, 20, 38, 60, 4, 41, 21, 53] = true ∧
      differences [4, 0, 5, 0, 20, 38, 60, 4, 41, 21, 52]
        [4, 0, 0, 0, 20, 38, 60, 4, 41, 21, 53] = (rs63.n - rs63.k) / 2 ∧
      rs63.n - rs63.k < 11 ∧ 11 ≤ rs63.n := by
  unfold IsWord; decide +kernel

theorem witness_PencEncodesThePayload :
    (filled (framed 0 0 0 255 0)).frame.len ≤ (filled (framed 0 0 0 255 0)).frame.maxpl ∧
      PbWritten (filled (framed 0 0 0 255 0)) 255 :=
  ⟨by decide +kernel, filled_pb _ (by decide)⟩

theorem witness_PdecDecodesThePayload :
    (filled (framed 0 0 0 5 16)).frameLen =
        .ok { segs := 1, tot := 16, entry := { rs := rs63, capBits := 354 } } ∧
      FbWritten (filled (framed 0 0 0 5 16)) 8 (16 - 8) ∧ 1 < (filled (framed 0 0 0 5 16)).cfg.nRx :=
  ⟨by decide +kernel, filled_fb _ (by decide), by decide +kernel⟩

theorem witness_FencEncodesTheFrame :
    (filled (framed 0 0 0 255 0)).frame.framing = 0 ∧ Cfg.Valid (filled (framed 0 0 0 255 0)).cfg ∧
      PbWritten (filled (framed 0 0 0 255 0)) 255 :=
  ⟨rfl, test_refcfg_valid, filled_pb _ (by decide)⟩

theorem witness_PayloadWireLayout :
    ModeEntry.Valid { rs := rs63, capBits := 354 } ∧
      0 < segCount { rs := rs63, capBits := 354 } 1 ∧ 2 < parBytes { rs := rs63, capBits := 354 } := by
  decide +kernel

/-- A state with the delegate, a STAR framing and every byte written, at both ends of `RXLEN`. -/
def starFilled (framing : BitVec 2) (rxlen : BitVec 11) : State :=
  filled { starCfgState with frame := { frameReset with framing := framing, rxlen := rxlen } }

theorem starFilled_recv (framing : BitVec 2) (rxlen : BitVec 11) (sub : StarSub) :
    StarRecvWritten (starFilled framing rxlen) sub := fun h1 h2 => by
  have h3 : rxlen.toNat ≤ 1024 := h1
  have h4 : Config.star.hdrLen sub ≤ rxlen.toNat := h2
  refine ⟨filled_fb _ (by simp only [fbSize]; omega), fun L tot _ ht => filled_fb _ ?_⟩
  have h5 : tot ≤ rxlen.toNat := ht
  simp only [fbSize]; omega

theorem witness_FdecDecodesTheFrame :
    (filled (framed 0 0 0 0 1024)).frame.framing = 0 ∧ 0 < (filled (framed 0 0 0 0 1024)).cfg.nRx ∧
      (∀ n, n ≤ 1024 → FbWritten (filled (framed 0 0 0 0 1024)) 0 n) ∧
      framingOf (starFilled 2 1024).frame.framing = .star .b ∧ StarRecvWritten (starFilled 2 1024) .b :=
  ⟨rfl, by decide, fun n h => filled_fb _ (by simpa [fbSize] using h), rfl, starFilled_recv 2 1024 .b⟩

theorem witness_FrameRoundTrip :
    Cfg.Valid (filled (framed 0 1 0 255 0)).cfg ∧ (filled (framed 0 1 0 255 0)).frame.framing = 0 ∧
      1 < (filled (framed 0 1 0 255 0)).cfg.nRx ∧
      (filled (framed 0 1 0 255 0)).frame.len ≤ (filled (framed 0 1 0 255 0)).frame.maxpl ∧
      (filled (framed 0 1 0 255 0)).frameLen =
        .ok { segs := 2, tot := 295, entry := { rs := rs239, capBits := 1912 } } ∧
      PbWritten (filled (framed 0 1 0 255 0)) 255 :=
  ⟨test_refcfg_valid, rfl, by decide, by decide +kernel, by decide +kernel, filled_pb _ (by decide)⟩

/-- What `FENC` leaves of the payload of V34. -/
def sent34 : State :=
  ((((framed 0 0 0 5 0).loadPb [1, 2, 3, 4, 5]).setLenOk 1 16).storeFb 0 frame34).complete 0x13 .ok

/-- The same with two bytes altered, as a receiver finds it: bytes 1 and 9 (V40, V41). -/
def received34 : State :=
  { sent34 with
    fb := Memory.write (Memory.write sent34.fb 1 0x3C) 9 0xFD
    frame := { sent34.frame with rxlen := 16 } }

theorem exec_of_after {i : Instr} {s t : State} (h : after i s = some t) : exec i s = .next t := by
  unfold after at h
  split at h <;> simp_all

theorem witness_FrameCorrection :
    Cfg.Valid ((framed 0 0 0 5 0).loadPb [1, 2, 3, 4, 5]).cfg ∧
      ((framed 0 0 0 5 0).loadPb [1, 2, 3, 4, 5]).frame.framing = 0 ∧
      ((framed 0 0 0 5 0).loadPb [1, 2, 3, 4, 5]).frameLen =
        .ok { segs := 1, tot := 16, entry := { rs := rs63, capBits := 354 } } ∧
      exec .fenc ((framed 0 0 0 5 0).loadPb [1, 2, 3, 4, 5]) = .next sent34 ∧
      sent34.status.code = .ok ∧ received34.cfg = refcfg ∧ received34.frame.framing = 0 ∧
      1 < received34.cfg.nRx ∧ 16 ≤ received34.frame.rxlen.toNat ∧
      received34.frame.rxlen.toNat ≤ 1024 ∧ FbWritten received34 0 16 ∧
      differences (headerWord sent34.fb) (headerWord received34.fb) = 2 ∧
      ∀ i, i < 1 →
        differences (segmentWord { rs := rs63, capBits := 354 } 5 sent34.fb i)
          (segmentWord { rs := rs63, capBits := 354 } 5 received34.fb i) = (63 - 59) / 2 := by
  have hw : ∀ a, a < 16 → Memory.read received34.fb a ≠ none := by decide +kernel
  refine ⟨test_refcfg_valid, rfl, ?_, exec_of_after ?_, rfl, rfl, rfl, ?_, ?_, ?_,
    fun a _ h => hw a (by omega), ?_, ?_⟩ <;> decide +kernel

theorem witness_StarAbsent :
    State.reset.cfg.starPresent = false ∧
      ({ State.reset with frame := { frameReset with framing := 2 } }).frame.framing = 2 := ⟨rfl, rfl⟩

theorem witness_SlenComputesTheLength (framing : BitVec 2) (rxlen : BitVec 11)
    (h : rxlen.toNat ≤ 1024) :
    (starFilled framing rxlen).cfg.starPresent = true ∧
      ∀ n, n ≤ rxlen.toNat → FbWritten (starFilled framing rxlen) 0 n :=
  ⟨rfl, fun n hn => filled_fb _ (by simp only [fbSize]; omega)⟩

theorem witness_SencEncodesTheFrame (framing : BitVec 2) :
    (starFilled framing 0).cfg.starPresent = true ∧ PbWritten (starFilled framing 0) 255 :=
  ⟨rfl, filled_pb _ (by decide)⟩

theorem witness_SdecDecodesTheFrame :
    (starFilled 1 1024).cfg.starPresent = true ∧ framingOf (starFilled 1 1024).frame.framing = .star .a ∧
      framingOf (starFilled 2 1024).frame.framing = .star .b ∧ 1 < (starFilled 1 1024).cfg.nRx ∧
      StarRecvWritten (starFilled 1 1024) .a ∧ StarRecvWritten (starFilled 2 1024) .b :=
  ⟨rfl, rfl, rfl, by decide, starFilled_recv 1 1024 .a, starFilled_recv 2 1024 .b⟩

theorem witness_StarRoundTrip :
    (starFilled 2 0).cfg.starPresent = true ∧ (starFilled 2 0).frame.framing = 2 ∧
      1 < (starFilled 2 0).cfg.nRx ∧ (starFilled 2 0).frame.len ≤ (starFilled 2 0).frame.maxpl ∧
      PbWritten (starFilled 2 0) (starFilled 2 0).frame.len.toNat :=
  ⟨rfl, rfl, by decide, by decide, filled_pb _ (by decide)⟩

/-- An error that sets a flag, and a command outside the lists. -/
theorem witness_BuffersChangeOnlyAsListed :
    exec (.hdec 2) State.reset = .next (State.reset.complete 0x08 .errParam) ∧
      (State.reset.complete 0x08 .errParam).status.code ≠ .ok ∧ Instr.writesFb (.hdec 2) = false ∧
      Instr.writesPb (.hdec 2) = false := ⟨rfl, by decide, rfl, rfl⟩

theorem witness_CountersMoveOneAtATime :
    exec .nop State.reset = .next (State.reset.complete 0x00 .ok) ∧ Instr.clears .nop = false :=
  ⟨rfl, rfl⟩

theorem witness_DirtyExactlyOnChange :
    State.reset.CountersOk ∧ exec .nop State.reset = .next (State.reset.complete 0x00 .ok) ∧
      Instr.clears .nop = false ∧ Instr.clears .tclr = true ∧
      (after .tclr State.reset).isSome = true :=
  ⟨reset_counters_ok refcfg (.inl rfl), rfl, rfl, rfl, by decide +kernel⟩

theorem witness_CommandsLeaveTheHostsRegisters :
    exec .nop State.reset = .next (State.reset.complete 0x00 .ok) ∧ Instr.nop ≠ .srst ∧
      Instr.thermalOrReset .nop = false := ⟨rfl, by decide, rfl⟩

theorem witness_ConfigurationNeverChanges : step State.reset = .next State.reset := rfl

/-- A state after one host write, in the invariant. -/
theorem witness_EveryStepKeepsTheInvariant :
    (State.reset.loadFb [5]).Inv ∧ step (State.reset.loadFb [5]) = .next (State.reset.loadFb [5]) :=
  ⟨⟨test_refcfg_valid, ⟨by decide, by decide, by decide, by decide⟩,
    reset_counters_ok refcfg (.inl rfl)⟩, rfl⟩

theorem witness_ResetHasTheInvariant : Cfg.Valid { refcfg with nRx := 8, starPresent := true } := by
  decide +kernel

/-- A state whose length is fresh with `LENV = 1`. -/
theorem witness_EveryStepKeepsTheLengthFresh :
    ((framed 0 0 0 5 0).setLenOk 1 16).LengthFresh ∧
      step ((framed 0 0 0 5 0).setLenOk 1 16) = .next ((framed 0 0 0 5 0).setLenOk 1 16) :=
  ⟨fun _ _ => ⟨{ segs := 1, tot := 16, entry := { rs := rs63, capBits := 354 } },
    by decide +kernel, by decide +kernel, by decide +kernel⟩, rfl⟩

end Sys2Proof.Machine
end

/-! ## What one step can do

Inversion lemmas: everything the next state of a command (`ExecNext`), of a host access
(`AccessNext`) and of a step (`StepNext`) can be. Every invariant below is a case analysis over
these. -/

namespace Sys2Proof.Machine

variable {s t u : State}

/-- A buffer of `size` bytes in canonical form (10_state.md R42, R43): one half of
`State.BuffersOk`. -/
def Memory.Ok (size : Nat) (m : Memory) : Prop := Memory.wf m ∧ Memory.within size m

theorem buffersOk_iff : s.BuffersOk ↔ Memory.Ok fbSize s.fb ∧ Memory.Ok pbSize s.pb := by
  simp only [State.BuffersOk, Memory.Ok, and_assoc]

theorem Memory.Ok.writeBytes {size i : Nat} {m : Memory} {bs : List Byte} (hm : Memory.Ok size m)
    (h : i + bs.length ≤ size) : Memory.Ok size (Memory.writeBytes m i bs) :=
  ⟨writeBytes_wf hm.1 i bs, writeBytes_within hm.2 i bs h⟩

/-! ### The length registers -/

/-- No payload has more segments than bits: `SEGCNT` has room for the count (10_state.md R30,
R192). -/
theorem segCount_le (e : ModeEntry) (L : Nat) : segCount e L ≤ 8 * L := by
  unfold segCount ceilDiv
  rcases Nat.eq_zero_or_pos e.capBits with h0 | hpos
  · simp [h0]
  · rw [Nat.div_le_iff_le_mul_add_pred hpos]
    have : 8 * L ≤ e.capBits * (8 * L) := Nat.le_mul_of_pos_left _ hpos
    omega

theorem lengthFresh_of_lenv (h : s.status.lenv = false) : s.LengthFresh := fun hl =>
  absurd (h.symm.trans hl) (by decide)

theorem lengthFresh_of_star (h : s.frame.framing ≠ 0) : s.LengthFresh := fun _ hf => absurd hf h

/-- A computed length fits its registers, so they hold the length of the current frame (R194). -/
theorem lengthFresh_setLenOk {f : FrameLen} (h : s.frameLen = .ok f) :
    (s.setLenOk f.segs f.tot).LengthFresh := by
  intro _ _
  obtain ⟨-, hsegs, -, hfit⟩ := primaryLen_ok.mp h
  have htot : f.tot ≤ 1024 := hfit
  have hle := segCount_le f.entry s.frame.len.toNat
  have hlen : s.frame.len.toNat < 256 := s.frame.len.isLt
  refine ⟨f, h, ?_, ?_⟩ <;>
    simp only [setLenOk_frame_totlen, setLenOk_frame_segcnt, BitVec.toNat_ofNat] <;> omega

/-- What a command can do to the operand registers before it completes: only the header registers,
the length registers and `LENV` change, and a fresh length stays fresh. -/
structure LenStep (s u : State) : Prop where
  frame_eq : u = { s with frame := u.frame, status := { s.status with lenv := u.status.lenv } }
  framing_eq : u.frame.framing = s.frame.framing
  rxlen_eq : u.frame.rxlen = s.frame.rxlen
  maxpl_eq : u.frame.maxpl = s.frame.maxpl
  fresh : s.LengthFresh → u.LengthFresh

namespace LenStep

theorem cfg_eq (h : LenStep s u) : u.cfg = s.cfg := by rw [h.frame_eq]
theorem fb_eq (h : LenStep s u) : u.fb = s.fb := by rw [h.frame_eq]
theorem pb_eq (h : LenStep s u) : u.pb = s.pb := by rw [h.frame_eq]
theorem inputs_eq (h : LenStep s u) : u.inputs = s.inputs := by rw [h.frame_eq]
theorem thermal_eq (h : LenStep s u) : u.thermal = s.thermal := by rw [h.frame_eq]
theorem counters_eq (h : LenStep s u) : u.counters = s.counters := by rw [h.frame_eq]
theorem dirty_eq (h : LenStep s u) : u.status.dirty = s.status.dirty := by rw [h.frame_eq]
theorem engaged_eq (h : LenStep s u) : u.status.engaged = s.status.engaged := by rw [h.frame_eq]

theorem keep (s : State) : LenStep s s := ⟨rfl, rfl, rfl, rfl, id⟩

/-- A header is unpacked and the length marked stale (R125, R131). -/
theorem unpack (s : State) (H : List Byte) : LenStep s (s.setHeader H).clearLenv :=
  ⟨rfl, rfl, rfl, rfl, fun _ => lengthFresh_of_lenv rfl⟩

/-- The length computation fails (R194). -/
theorem fail (s : State) : LenStep s s.setLenErr :=
  ⟨rfl, rfl, rfl, rfl, fun _ => lengthFresh_of_lenv rfl⟩

/-- The length computation succeeds (R194). -/
theorem compute {f : FrameLen} (h : s.frameLen = .ok f) : LenStep s (s.setLenOk f.segs f.tot) :=
  ⟨rfl, rfl, rfl, rfl, fun _ => lengthFresh_setLenOk h⟩

/-- The length computation fails on a header just unpacked (R200). -/
theorem unpackFail (s : State) (H : List Byte) : LenStep s (s.setHeader H).setLenErr :=
  ⟨rfl, rfl, rfl, rfl, fun _ => lengthFresh_of_lenv rfl⟩

/-- The length computation succeeds on a header just unpacked (R200). -/
theorem unpackCompute {H : List Byte} {f : FrameLen} (h : (s.setHeader H).frameLen = .ok f) :
    LenStep s ((s.setHeader H).setLenOk f.segs f.tot) :=
  ⟨rfl, rfl, rfl, rfl, fun _ => lengthFresh_setLenOk h⟩

/-- The length of a STAR frame to send (R195, R237). -/
theorem star (h : s.frame.framing ≠ 0) (n : Nat) : LenStep s (s.setLenOk 0 n) :=
  ⟨rfl, rfl, rfl, rfl, fun _ => lengthFresh_of_star h⟩

/-- The length of a received STAR frame (R236). -/
theorem starHeader (h : s.frame.framing ≠ 0) (L tot : Nat) :
    LenStep s ((s.setLen L).setLenOk 0 tot) :=
  ⟨rfl, rfl, rfl, rfl, fun _ => lengthFresh_of_star h⟩

/-- The same, with `LEN` then set from the decoded payload (R238). -/
theorem starPayload (h : s.frame.framing ≠ 0) (L tot n : Nat) :
    LenStep s (((s.setLen L).setLenOk 0 tot).setLen n) :=
  ⟨rfl, rfl, rfl, rfl, fun _ => lengthFresh_of_star h⟩

end LenStep

/-! ### Commands -/

/-- Everything the next state of a command can be. -/
inductive ExecNext (s : State) : Instr → State → Prop
  /-- A command completes, with its length step and nothing else. -/
  | completes {i : Instr} {u : State} (c : ResultCode) (h : LenStep s u) :
    ExecNext s i (u.complete i.opcode c)
  /-- A transmit or header command writes `FB`, inside it where the configuration is valid. -/
  | storesFb {i : Instr} {u : State} {m : Memory} (h : LenStep s u) (hi : Instr.writesFb i = true)
    (hm : Cfg.Valid s.cfg → Memory.Ok fbSize s.fb → Memory.Ok fbSize m) :
    ExecNext s i ({ u with fb := m }.complete i.opcode .ok)
  /-- A receive command writes `PB`, inside it where the configuration is valid. -/
  | storesPb {i : Instr} {u : State} {m : Memory} (h : LenStep s u) (hi : Instr.writesPb i = true)
    (hm : Cfg.Valid s.cfg → Memory.Ok pbSize s.pb → Memory.Ok pbSize m) :
    ExecNext s i ({ u with pb := m }.complete i.opcode .ok)
  /-- A receive command fails and charges one counter of its receiver (R40). -/
  | counts {i : Instr} {u : State} {rx : Nat} (k : CntKind) {c : ResultCode} (h : LenStep s u)
    (hi : Instr.chargedRx i = some rx) (hrx : rx < s.cfg.nRx) (hc : c ≠ .ok) :
    ExecNext s i ((u.countFailure k rx).complete i.opcode c)
  /-- `TTXD` and `TBKOF` write thermal registers of the block's own (R255, R258). -/
  | heats {i : Instr} {th : ThermalRegs} (hi : Instr.thermalOrReset i = true)
    (hth : th = { s.thermal with pendB := th.pendB, pendMs := th.pendMs, backoff := th.backoff }) :
    ExecNext s i ({ s with thermal := th }.complete i.opcode .ok)
  /-- `TTICK` writes the same kind of registers, then evaluates the engaged flag (R256, R257). -/
  | ttick {th : ThermalRegs}
    (hth : th = { s.thermal with vt := th.vt, pendB := th.pendB, pendMs := th.pendMs }) :
    ExecNext s .ttick ({ s with thermal := th }.evalEngaged.complete Instr.ttick.opcode .ok)
  /-- `TCLR` (R259). -/
  | tclr : ExecNext s .tclr
    ({ s with
        thermal := { s.thermal with engcnt := 0 }
        status := { s.status with engaged := false } }.complete Instr.tclr.opcode .ok)
  /-- `CLRCNT` clears some of the counters (R291). -/
  | clrcnt {rx : Nat} {all : Bool} {cs : List RxCounters} (hlen : cs.length = s.counters.length)
    (hcs : ∀ c ∈ cs, c ∈ s.counters ∨ c = countersZero) :
    ExecNext s (.clrcnt rx all)
      ({ s with counters := cs }.complete (Instr.clrcnt rx all).opcode .ok)
  /-- `SRST` (R292). -/
  | srst : ExecNext s .srst (s.resetBlock.complete Instr.srst.opcode .ok)

/-- A run of bytes that fits in `FB` keeps it canonical, whatever the length step was. -/
theorem ExecNext.storeFb {i : Instr} {n : Nat} {bs : List Byte} (h : LenStep s u)
    (hi : Instr.writesFb i = true) (hn : Cfg.Valid s.cfg → n + bs.length ≤ fbSize) :
    ExecNext s i ((u.storeFb n bs).complete i.opcode .ok) :=
  .storesFb h hi fun hc hm => h.fb_eq ▸ hm.writeBytes (hn hc)

/-- A payload that fits in `PB` keeps it canonical, whatever the length step was. -/
theorem ExecNext.storePb {i : Instr} {P : List Byte} (h : LenStep s u)
    (hi : Instr.writesPb i = true) (hP : Cfg.Valid s.cfg → P.length ≤ 255) :
    ExecNext s i ((u.storePb P).complete i.opcode .ok) :=
  .storesPb h hi fun hc hm => h.pb_eq ▸ hm.writeBytes (by
    have := hP hc
    change 0 + P.length ≤ 256
    omega)

/-- An encoded payload fills exactly the frame after the header (R196). -/
theorem encodedPayload_length {f : FrameLen} (hc : Cfg.Valid s.cfg) (h : s.frameLen = .ok f) :
    hdrSize + (payloadEncode f.entry (bytesAt s.pb 0 s.frame.len.toNat)).length = f.tot := by
  obtain ⟨he, hsegs, htot, -⟩ := primaryLen_ok.mp h
  rw [payloadEncode_length f.entry (par_pos (modeEntry_valid hc he).1), bytesAt_length, ← hsegs,
    htot, Nat.add_assoc]

/-- A decoded payload has `LEN` bytes, so it never reaches `PB[255]` (R43, R196). -/
theorem decodedPayload_length {f : FrameLen} {P : List Byte} (hc : Cfg.Valid s.cfg)
    (h : s.frameLen = .ok f)
    (hP : payloadDecode f.entry s.frame.len.toNat
      (bytesAt s.fb hdrSize (f.tot - hdrSize)) = some P) :
    P.length ≤ 255 := by
  obtain ⟨he, -, htot, -⟩ := primaryLen_ok.mp h
  have hlen : s.frame.len.toNat < 256 := s.frame.len.isLt
  have hB : s.frame.len.toNat ≤ (bytesAt s.fb hdrSize (f.tot - hdrSize)).length := by
    rw [bytesAt_length]; omega
  have := payloadDecode_length (modeEntry_valid hc he) hB hP
  omega

/-- The payload part of `PDEC` and of `FDEC`, which runs on `s` with or without a header unpacked.
-/
theorem ExecNext.receivePayload {i : Instr} {rx : Nat} (hcfg : u.cfg = s.cfg)
    (hfail : LenStep s u.setLenErr)
    (hok : ∀ f, u.frameLen = .ok f → LenStep s (u.setLenOk f.segs f.tot))
    (hi : Instr.chargedRx i = some rx) (hw : Instr.writesPb i = true) (hrx : rx < s.cfg.nRx)
    (h : u.receivePayload i.opcode rx = .next t) : ExecNext s i t := by
  rcases receivePayload_outcome h with ⟨c, -, rfl⟩ | ⟨f, hf, rfl | rfl | ⟨P, hP, rfl⟩⟩
  · exact .completes c hfail
  · exact .completes _ (hok f hf)
  · exact .counts .pld (hok f hf) hi hrx (by decide)
  · exact .storePb (hok f hf) hw fun hc => decodedPayload_length (hcfg ▸ hc) hf hP

/-- The transmit part of `SENC` and of `FENC` (R237). -/
theorem ExecNext.starSend {i : Instr} {sub : StarSub} (hf : s.frame.framing ≠ 0)
    (hw : Instr.writesFb i = true) (h : s.starSend i.opcode sub = .next t) : ExecNext s i t := by
  rcases starSend_next h with ⟨-, rfl⟩ | ⟨-, -, ⟨-, rfl⟩ | ⟨F, -, ⟨-, rfl⟩ | ⟨hF, rfl⟩⟩⟩
  · exact .completes _ (.keep s)
  · exact .completes _ (.fail s)
  · exact .completes _ (.fail s)
  · exact .storeFb (n := 0) (bs := F) (.star hf F.length) hw fun _ => by omega

/-- The receive part of `SDEC` and of `FDEC` (R238). -/
theorem ExecNext.starRecv {i : Instr} {rx : Nat} {sub : StarSub} (hf : s.frame.framing ≠ 0)
    (hrx : rx < s.cfg.nRx) (hr : s.frame.rxlen.toNat ≤ fbSize) (hi : Instr.chargedRx i = some rx)
    (hw : Instr.writesPb i = true) (h : s.starRecv i.opcode rx sub = .next t) : ExecNext s i t := by
  rcases starRecv_next h with ⟨c, rfl, -⟩ |
    ⟨hn, L, tot, hLt, ⟨-, rfl⟩ | ⟨htot, ⟨c, hc, rfl⟩ | ⟨P, hP, rfl⟩⟩⟩
  · exact .completes c (.fail s)
  · exact .completes _ (.starHeader hf L tot)
  · exact .counts .pld (.starHeader hf L tot) hi hrx (by rcases hc with rfl | rfl <;> decide)
  · exact .storePb (.starPayload hf L tot P.length) hw fun _ => starReceive_le hr hn hLt htot hP

/-- What a command does, of every command of the opcode table. -/
theorem exec_next {i : Instr} (h : exec i s = .next t) : ExecNext s i t := by
  cases i with
  | nop => cases h; exact .completes .ok (.keep s)
  | hpack => cases h; exact .storeFb (.keep s) rfl fun _ => by rw [headerFields_length]; decide
  | hunpk => rw [execHunpk_next h]; exact .completes .ok (.unpack s _)
  | hcsgen =>
    rw [execHcsgen_next h]
    exact .storeFb (i := .hcsgen) (.keep s) rfl fun _ => by rw [headerHcs_length]; decide
  | hcschk => rcases execHcschk_next h with rfl | rfl <;> exact .completes _ (.keep s)
  | hpargen =>
    rw [execHpargen_next h]
    exact .storeFb (i := .hpargen) (.keep s) rfl fun hc => by
      rw [headerParity_length s.cfg (hdrRs_par hc)]; decide
  | hpardec =>
    rcases execHpardec_next h with rfl | ⟨H, hH, rfl⟩
    · exact .completes _ (.keep s)
    · exact .storeFb (i := .hpardec) (.keep s) rfl fun _ => by
        rw [hdrCorrect_length (bytesAt_length s.fb 0 8) hH]; decide
  | henc =>
    cases h
    exact .storeFb (.keep s) rfl fun hc => by rw [headerEncode_length s.cfg (hdrRs_par hc)]; decide
  | hdec rx =>
    rcases execHdec_next h with ⟨c, -, rfl⟩ | ⟨hrx, k, c, hc, rfl⟩ | ⟨H, rfl⟩
    · exact .completes c (.keep s)
    · exact .counts k (.keep s) rfl hrx hc
    · exact .completes .ok (.unpack s H)
  | lenc =>
    rcases execLenc_next h with ⟨c, -, rfl⟩ | ⟨n, hf, rfl⟩ | ⟨f, hf, rfl⟩
    · exact .completes c (.fail s)
    · exact .completes .ok (.star hf n)
    · exact .completes .ok (.compute hf)
  | penc =>
    rcases execPenc_next h with rfl | ⟨c, -, rfl⟩ | ⟨f, hf, rfl⟩
    · exact .completes _ (.keep s)
    · exact .completes c (.fail s)
    · exact .storeFb (i := .penc) (.compute hf) rfl fun hc =>
        (encodedPayload_length hc hf).trans_le (primaryLen_ok.mp hf).2.2.2
  | pdec rx =>
    rcases execPdec_next h with rfl | ⟨hrx, h⟩
    · exact .completes _ (.keep s)
    · exact .receivePayload (i := .pdec rx) rfl (.fail s) (fun _ => .compute) rfl rfl hrx h
  | fenc =>
    rcases execFenc_next h with rfl | ⟨c, -, rfl⟩ | ⟨sub, hf, h⟩ | ⟨f, hf, rfl⟩
    · exact .completes _ (.keep s)
    · exact .completes c (.fail s)
    · exact .starSend (i := .fenc) hf rfl h
    · refine .storesFb (i := .fenc) (u := s.setLenOk f.segs f.tot) (.compute hf) rfl fun hc hm =>
        Memory.Ok.writeBytes (hm.writeBytes ?_) ?_
      · rw [headerEncode_length s.cfg (hdrRs_par hc)]; decide
      · exact (encodedPayload_length hc hf).trans_le (primaryLen_ok.mp hf).2.2.2
  | fdec rx =>
    rcases execFdec_next h with ⟨c, -, rfl⟩ | ⟨hrx, k, c, hc, rfl⟩ | ⟨sub, hf, hrx, hr, h⟩ |
      ⟨H, hrx, h⟩
    · exact .completes c (.keep s)
    · exact .counts k (.keep s) rfl hrx hc
    · exact .starRecv (i := .fdec rx) hf hrx hr rfl rfl h
    · exact .receivePayload (i := .fdec rx) (u := s.setHeader H) rfl (.unpackFail s H)
        (fun _ => .unpackCompute) rfl rfl hrx h
  | slen =>
    rcases execSlen_next h with rfl | ⟨c, -, rfl⟩ | ⟨L, tot, hf, rfl⟩
    · exact .completes _ (.keep s)
    · exact .completes c (.fail s)
    · exact .completes .ok (.starHeader hf L tot)
  | senc =>
    rcases execSenc_next h with ⟨c, -, rfl⟩ | ⟨sub, hf, h⟩
    · exact .completes c (.keep s)
    · exact .starSend (i := .senc) hf rfl h
  | sdec rx =>
    rcases execSdec_next h with ⟨c, -, rfl⟩ | ⟨sub, hf, hrx, hr, h⟩
    · exact .completes c (.keep s)
    · exact .starRecv (i := .sdec rx) hf hrx hr rfl rfl h
  | ttxd => cases h; exact .heats rfl rfl
  | ttick => cases h; exact .ttick rfl
  | tbkof => cases h; exact .heats rfl rfl
  | tclr => cases h; exact .tclr
  | clrcnt rx all =>
    rcases execClrcnt_next h with rfl | rfl | rfl
    · exact .completes _ (.keep s)
    · refine .clrcnt (by simp) fun c hc => .inr ?_
      obtain ⟨_, -, rfl⟩ := List.mem_map.mp hc
      rfl
    · exact .clrcnt (by simp) fun c hc => List.mem_or_eq_of_mem_set hc
  | srst => cases h; exact .srst

/-! ### Host accesses and steps -/

/-- Everything the next state of a host access can be. -/
inductive AccessNext (s : State) : State → Prop
  /-- A read, or a write that is ignored, discarded or refused: only the bus answer and `OVR`
  change. -/
  | bus {v : Option Word} {n : Nat} {ovr : Bool} :
    AccessNext s { s with rdata := v, freeReads := n, status := { s.status with ovr := ovr } }
  /-- A register write while idle. -/
  | register (r : Reg) (w : Word) : AccessNext s (s.writeReg r w)
  /-- A byte write of `FB` while idle. -/
  | fb {i : Nat} (v : Byte) (hi : i < fbSize) : AccessNext s (s.storeFb i [v])
  /-- A byte write of `PB` while idle. -/
  | pb {i : Nat} (v : Byte) (hi : i < pbSize) : AccessNext s { s with pb := Memory.write s.pb i v }

/-- An index of `FB` in the window is inside the buffer (20_memory.md R61). -/
theorem regionOf_fb_lt {offset : BitVec 12} {i : Nat} (h : regionOf offset = .fb i) :
    i < fbSize := by
  simp only [regionOf] at h
  split_ifs at h with h1 h2 h3 h4
  simp only [Region.fb.injEq] at h
  change i < 0x400
  omega

/-- An index of `PB` in the window is inside the buffer (20_memory.md R61). -/
theorem regionOf_pb_lt {offset : BitVec 12} {i : Nat} (h : regionOf offset = .pb i) :
    i < pbSize := by
  simp only [regionOf] at h
  split_ifs at h with h1 h2 h3 h4
  simp only [Region.pb.injEq] at h
  change i < 0x100
  omega

/-- What an idle read does: it answers. -/
theorem readIdle_next {g : Region} (h : s.readIdle g = .next t) : AccessNext s t := by
  cases g with
  | reg n => dsimp only [State.readIdle] at h; split at h <;> cases h <;> exact .bus
  | fb i => dsimp only [State.readIdle] at h; split at h <;> cases h; exact .bus
  | pb i => dsimp only [State.readIdle] at h; split at h <;> cases h; exact .bus
  | reserved => cases h; exact .bus

/-- What a read does, in any phase. -/
theorem hostRead_next {width : Width} {offset : BitVec 12}
    (h : s.hostRead width offset = .next t) : AccessNext s t := by
  unfold State.hostRead at h
  dsimp only at h
  split at h
  · split at h
    · exact readIdle_next h
    · cases h
      unfold State.readBusy
      split <;> exact .bus
  · cases h; exact .bus

/-- What an idle write does. -/
theorem writeIdle_accessNext (s : State) (offset : BitVec 12) (w : Word) :
    AccessNext s (s.writeIdle (regionOf offset) w) := by
  cases hg : regionOf offset with
  | reg n =>
    unfold State.writeIdle
    dsimp only
    split
    · exact .bus
    · exact .register _ w
  | fb i => exact .fb _ (regionOf_fb_lt hg)
  | pb i => exact .pb _ (regionOf_pb_lt hg)
  | reserved => exact .bus

/-- What a write does, in any phase. -/
theorem hostWrite_accessNext (s : State) (width : Width) (offset : BitVec 12) (w : Word) :
    AccessNext s (s.hostWrite width offset w) := by
  unfold State.hostWrite
  split
  · exact .bus
  · dsimp only
    split
    · exact writeIdle_accessNext s offset w
    · exact .bus

/-- What a host access does. -/
theorem access_next {a : Access} (h : s.access a = .next t) : AccessNext s t := by
  cases a with
  | read width offset => exact hostRead_next h
  | write width offset w => cases h; exact hostWrite_accessNext s width offset w

/-- Everything the next state of a step can be, from the state whose input list has lost its head.
-/
inductive StepNext (s : State) : State → Prop
  /-- An engine slot while idle (60_exceptions.md R334). -/
  | idle : StepNext s s
  | command {i : Instr} {t : State} (h : ExecNext s i t) : StepNext s t
  /-- An illegal word only completes (R303). -/
  | illegal (op : BitVec 8) : StepNext s (s.complete op .errIllcmd)
  | reset : StepNext s s.resetBlock
  | access {t : State} (h : AccessNext s t) : StepNext s t

theorem engineSlot_next (h : s.engineSlot = .next t) : StepNext s t := by
  unfold State.engineSlot at h
  split at h
  · cases h; exact .idle
  · unfold State.runWord at h
    split at h
    · exact .command (exec_next h)
    · cases h; exact .illegal _

/-- What a step does (R69, R70). -/
theorem step_next (h : step s = .next t) : StepNext { s with inputs := s.inputs.tail } t := by
  rw [step_eq] at h
  split at h
  · rename_i hin
    have hs : { s with inputs := s.inputs.tail } = s := by rw [hin, List.tail_nil, ← hin]
    rw [hs]
    exact engineSlot_next h
  · rename_i e rest hin
    rw [hin, List.tail_cons]
    cases e with
    | access a => exact .access (access_next h)
    | engine => exact engineSlot_next h
    | reset => cases h; exact .reset

end Sys2Proof.Machine

/-! ## The invariants of every step -/

namespace Sys2Proof.Machine

variable {s t u : State}

/-! ### Registers: what a write keeps -/

@[simp] theorem writeReg_cfg (s : State) (r : Reg) (w : Word) : (s.writeReg r w).cfg = s.cfg := by
  cases r <;> rfl
@[simp] theorem writeReg_inputs (s : State) (r : Reg) (w : Word) :
    (s.writeReg r w).inputs = s.inputs := by cases r <;> rfl
@[simp] theorem writeReg_fb (s : State) (r : Reg) (w : Word) : (s.writeReg r w).fb = s.fb := by
  cases r <;> rfl
@[simp] theorem writeReg_pb (s : State) (r : Reg) (w : Word) : (s.writeReg r w).pb = s.pb := by
  cases r <;> rfl

/-! ### The configuration and the input list -/

theorem ExecNext.cfg_eq {i : Instr} (h : ExecNext s i t) : t.cfg = s.cfg := by
  cases h with
  | completes _ h | storesFb h | storesPb h | counts _ h => exact h.cfg_eq
  | heats | ttick | tclr | clrcnt | srst => rfl

theorem ExecNext.inputs_eq {i : Instr} (h : ExecNext s i t) : t.inputs = s.inputs := by
  cases h with
  | completes _ h | storesFb h | storesPb h | counts _ h => exact h.inputs_eq
  | heats | ttick | tclr | clrcnt | srst => rfl

theorem AccessNext.cfg_eq (h : AccessNext s t) : t.cfg = s.cfg := by
  cases h with
  | register r w => exact writeReg_cfg s r w
  | bus | fb | pb => rfl

theorem AccessNext.inputs_eq (h : AccessNext s t) : t.inputs = s.inputs := by
  cases h with
  | register r w => exact writeReg_inputs s r w
  | bus | fb | pb => rfl

theorem StepNext.cfg_eq (h : StepNext s t) : t.cfg = s.cfg := by
  cases h with
  | command h => exact h.cfg_eq
  | access h => exact h.cfg_eq
  | idle | illegal | reset => rfl

theorem StepNext.inputs_eq (h : StepNext s t) : t.inputs = s.inputs := by
  cases h with
  | command h => exact h.inputs_eq
  | access h => exact h.inputs_eq
  | idle | illegal | reset => rfl

/-- Settles O56: no command, access or reset writes the configuration or the input list, and the
step takes the head of the list before it runs one of them. -/
theorem configurationNeverChanges : Obligations.ConfigurationNeverChanges := fun _ _ h =>
  ⟨(step_next h).cfg_eq, (step_next h).inputs_eq⟩

/-! ### The buffers -/

theorem memory_ok_nil (size : Nat) : Memory.Ok size [] := ⟨.nil, by simp [Memory.within]⟩

theorem ExecNext.buffersOk {i : Instr} (h : ExecNext s i t) (hc : Cfg.Valid s.cfg)
    (hs : s.BuffersOk) : t.BuffersOk := by
  obtain ⟨hfb, hpb⟩ := buffersOk_iff.mp hs
  refine buffersOk_iff.mpr ?_
  cases h with
  | completes _ h | counts _ h => exact ⟨h.fb_eq ▸ hfb, h.pb_eq ▸ hpb⟩
  | storesFb h _ hm => exact ⟨hm hc hfb, h.pb_eq ▸ hpb⟩
  | storesPb h _ hm => exact ⟨h.fb_eq ▸ hfb, hm hc hpb⟩
  | heats | ttick | tclr | clrcnt => exact ⟨hfb, hpb⟩
  | srst => exact ⟨memory_ok_nil _, memory_ok_nil _⟩

theorem AccessNext.buffersOk (h : AccessNext s t) (hs : s.BuffersOk) : t.BuffersOk := by
  obtain ⟨hfb, hpb⟩ := buffersOk_iff.mp hs
  refine buffersOk_iff.mpr ?_
  cases h with
  | bus => exact ⟨hfb, hpb⟩
  | register r w => exact ⟨(writeReg_fb s r w).symm ▸ hfb, (writeReg_pb s r w).symm ▸ hpb⟩
  | fb v hi => exact ⟨hfb.writeBytes hi, hpb⟩
  | pb v hi => exact ⟨hfb, hpb.writeBytes (bs := [v]) hi⟩

theorem StepNext.buffersOk (h : StepNext s t) (hc : Cfg.Valid s.cfg) (hs : s.BuffersOk) :
    t.BuffersOk := by
  cases h with
  | command h => exact h.buffersOk hc hs
  | access h => exact h.buffersOk hs
  | reset => exact buffersOk_iff.mpr ⟨memory_ok_nil _, memory_ok_nil _⟩
  | idle | illegal => exact hs

/-! ### The counters -/

@[simp] theorem get_countersZero (k : CntKind) : RxCounters.get countersZero k = 0 := by
  cases k <;> rfl

theorem get_put (c : RxCounters) (k k' : CntKind) (v : Word) :
    RxCounters.get (RxCounters.put c k v) k' = if k' = k then v else RxCounters.get c k' := by
  cases k <;> cases k' <;> rfl

/-- The counters are within their width when every triple the list holds is. -/
theorem countersOk_of_mem (hlen : s.counters.length = s.cfg.nRx)
    (hmem : ∀ c ∈ s.counters, ∀ k, (RxCounters.get c k).toNat < 2 ^ cntBits s.cfg.cntW)
    (heng : s.thermal.engcnt.toNat < 2 ^ cntBits s.cfg.cntW) : s.CountersOk := by
  refine ⟨hlen, fun rx k => ?_, heng⟩
  unfold State.counter State.rxCounters
  rw [List.getD_eq_getElem?_getD]
  rcases h : s.counters[rx]? with _ | c
  · simp
  · exact hmem c (List.mem_of_getElem? h) k

/-- Every triple in the list is some receiver's. -/
theorem State.CountersOk.get_lt (h : s.CountersOk) {c : RxCounters} (hc : c ∈ s.counters)
    (k : CntKind) : (RxCounters.get c k).toNat < 2 ^ cntBits s.cfg.cntW := by
  obtain ⟨rx, hrx⟩ := List.mem_iff_getElem?.mp hc
  have := h.2.1 rx k
  rwa [State.counter, State.rxCounters, List.getD_eq_getElem?_getD, hrx] at this

/-- The bound speaks of the configuration, the list of counters and `T_ENGCNT` only. -/
theorem State.CountersOk.congr (h : s.CountersOk) (hcfg : t.cfg = s.cfg)
    (hcnt : t.counters = s.counters)
    (heng : t.thermal.engcnt.toNat < 2 ^ cntBits s.cfg.cntW) : t.CountersOk := by
  refine countersOk_of_mem (by rw [hcnt, hcfg, h.1]) (fun c hc k => ?_) (by rwa [hcfg])
  rw [hcfg]
  exact h.get_lt (hcnt ▸ hc) k

/-- Storing a value that fits keeps the counters within their width. -/
theorem State.CountersOk.setCounter (h : s.CountersOk) (k : CntKind) (rx : Nat) {v : Word}
    (hv : v.toNat < 2 ^ cntBits s.cfg.cntW) : (s.setCounter k rx v).CountersOk := by
  refine countersOk_of_mem (by simpa using h.1) (fun c hc k' => ?_) h.2.2
  rcases List.mem_or_eq_of_mem_set hc with hc | rfl
  · exact h.get_lt hc k'
  · rw [get_put]
    split
    · exact hv
    · exact h.2.1 rx k'

theorem State.CountersOk.countFailure (h : s.CountersOk) (k : CntKind) (rx : Nat) :
    (s.countFailure k rx).CountersOk :=
  h.setCounter k rx (satInc_le s.cfg.cntW (h.2.1 rx k)).2

theorem cntTrunc_lt (w : CntWidth) (v : Word) : (cntTrunc w v).toNat < 2 ^ cntBits w := by
  rw [cntTrunc, BitVec.toNat_ofNat]
  exact (Nat.mod_le _ _).trans_lt (Nat.mod_lt _ (Nat.two_pow_pos _))

theorem countersOk_reset (c : Cfg) : (State.resetWith c).CountersOk := by
  refine countersOk_of_mem (by simp [State.resetWith]) (fun c hc k => ?_) (Nat.two_pow_pos _)
  rw [List.eq_of_mem_replicate hc, get_countersZero]
  exact Nat.two_pow_pos _

theorem countersOk_evalEngaged (h : s.CountersOk) : s.evalEngaged.CountersOk := by
  refine h.congr rfl rfl ?_
  rw [evalEngaged_thermal_engcnt]
  split
  · exact (satInc_le s.cfg.cntW h.2.2).2
  · exact h.2.2

/-- A length step changes nothing that the counters' bound speaks of. -/
theorem LenStep.countersOk (h : LenStep s u) (hs : s.CountersOk) : u.CountersOk :=
  hs.congr h.cfg_eq h.counters_eq (h.thermal_eq ▸ hs.2.2)

theorem ExecNext.countersOk {i : Instr} (h : ExecNext s i t) (hs : s.CountersOk) :
    t.CountersOk := by
  cases h with
  | completes _ h | storesFb h | storesPb h => exact h.countersOk hs
  | counts k h => exact (h.countersOk hs).countFailure k _
  | heats _ hth => exact hs.congr rfl rfl (hth ▸ hs.2.2)
  | @ttick th hth =>
    exact countersOk_evalEngaged (s := { s with thermal := th })
      (hs.congr rfl rfl (hth ▸ hs.2.2))
  | tclr => exact hs.congr rfl rfl (Nat.two_pow_pos _)
  | clrcnt hlen hcs =>
    refine countersOk_of_mem (hlen.trans hs.1) (fun c hc k => ?_) hs.2.2
    rcases hcs c hc with hc | rfl
    · exact hs.get_lt hc k
    · rw [get_countersZero]; exact Nat.two_pow_pos _
  | srst => exact countersOk_reset s.cfg

theorem countersOk_writeReg (hs : s.CountersOk) (r : Reg) (w : Word) :
    (s.writeReg r w).CountersOk := by
  cases r with
  | tEngcnt => exact hs.congr rfl rfl (cntTrunc_lt s.cfg.cntW w)
  | cnt k rx => exact hs.setCounter k rx (cntTrunc_lt s.cfg.cntW w)
  | _ => exact hs

theorem AccessNext.countersOk (h : AccessNext s t) (hs : s.CountersOk) : t.CountersOk := by
  cases h with
  | register r w => exact countersOk_writeReg hs r w
  | bus | fb | pb => exact hs

theorem StepNext.countersOk (h : StepNext s t) (hs : s.CountersOk) : t.CountersOk := by
  cases h with
  | command h => exact h.countersOk hs
  | access h => exact h.countersOk hs
  | reset => exact countersOk_reset s.cfg
  | idle | illegal => exact hs

/-! ### The invariant -/

/-- Settles O57: the three parts of the invariant, each kept by every command, access and reset; the
buffers' part uses that the configuration is valid, and the input list is no part of it. -/
theorem everyStepKeepsTheInvariant : Obligations.EveryStepKeepsTheInvariant := by
  rintro s t ⟨hcfg, hbuf, hcnt⟩ h
  have hn := step_next h
  exact ⟨hn.cfg_eq ▸ hcfg, hn.buffersOk hcfg hbuf, hn.countersOk hcnt⟩

/-- The invariant at reset, in a valid configuration (R47). -/
theorem inv_resetWith {c : Cfg} (hc : Cfg.Valid c) : (State.resetWith c).Inv :=
  ⟨hc, buffersOk_iff.mpr ⟨memory_ok_nil _, memory_ok_nil _⟩, countersOk_reset c⟩

/-- REFCFG is a configuration of this hardware (R13): its codes' field polynomials are primitive. -/
theorem refcfg_valid : Cfg.Valid refcfg := by decide +kernel

/-- Settles O58: the reset state of a valid configuration, of which REFCFG is one. -/
theorem resetHasTheInvariant : Obligations.ResetHasTheInvariant :=
  ⟨fun _ => inv_resetWith, inv_resetWith refcfg_valid⟩

/-! ### The length of the current frame -/

theorem lengthFresh_resetWith (c : Cfg) : (State.resetWith c).LengthFresh := lengthFresh_of_lenv rfl

theorem ExecNext.lengthFresh {i : Instr} (h : ExecNext s i t) (hs : s.LengthFresh) :
    t.LengthFresh := by
  cases h with
  | completes _ h | storesFb h | storesPb h | counts _ h => exact h.fresh hs
  | heats | ttick | tclr | clrcnt => exact hs
  | srst => exact lengthFresh_resetWith s.cfg

/-- The writes of `MODE`, `MODEPARM`, `LEN`, `FRAMING` clear `LENV` (R24 to R27); no other write
touches what the length depends on. -/
theorem lengthFresh_writeReg (hs : s.LengthFresh) (r : Reg) (w : Word) :
    (s.writeReg r w).LengthFresh := by
  cases r with
  | mode | modeparm | len | framing => exact lengthFresh_of_lenv rfl
  | _ => exact hs

theorem AccessNext.lengthFresh (h : AccessNext s t) (hs : s.LengthFresh) : t.LengthFresh := by
  cases h with
  | register r w => exact lengthFresh_writeReg hs r w
  | bus | fb | pb => exact hs

theorem StepNext.lengthFresh (h : StepNext s t) (hs : s.LengthFresh) : t.LengthFresh := by
  cases h with
  | command h => exact h.lengthFresh hs
  | access h => exact h.lengthFresh hs
  | reset => exact lengthFresh_resetWith s.cfg
  | idle | illegal => exact hs

/-- Settles O59: a command that changes the mode, the length or the length registers either
computes the length anew, clears `LENV` or runs under a STAR framing; a host write clears `LENV`.
-/
theorem everyStepKeepsTheLengthFresh : Obligations.EveryStepKeepsTheLengthFresh :=
  ⟨fun _ _ hs h => (step_next h).lengthFresh hs, lengthFresh_resetWith⟩

/-! ### The failure counters and `DIRTY` -/

/-- Settles O53: of the forms a command's next state can have, only the counted failure moves a
counter, and the clearing commands are left out. -/
theorem countersMoveOneAtATime : Obligations.CountersMoveOneAtATime := by
  intro i s t hex hi
  cases exec_next hex with
  | completes _ h | storesFb h | storesPb h => exact .inl h.counters_eq
  | counts k h hrx hlt hc =>
    refine .inr ⟨_, k, hrx, hlt, hc, ?_⟩
    rw [complete_counters, h.frame_eq]
    rfl
  | heats | ttick => exact .inl rfl
  | tclr | clrcnt | srst => cases hi

theorem put_get (c : RxCounters) (k : CntKind) : RxCounters.put c k (RxCounters.get c k) = c := by
  cases k <;> rfl

/-- Storing the value a counter holds changes nothing. -/
theorem setCounter_counter (s : State) (k : CntKind) (rx : Nat) :
    s.setCounter k rx (s.counter k rx) = s := by
  have h : s.counters.set rx (s.rxCounters rx) = s.counters := by
    refine List.ext_getElem? fun j => ?_
    rw [List.getElem?_set, State.rxCounters, List.getD_eq_getElem?_getD]
    split_ifs with hj hlt
    · subst hj; rw [List.getElem?_eq_getElem hlt]; rfl
    · subst hj; rw [List.getElem?_eq_none (by omega)]
    · rfl
  rw [State.setCounter, State.counter, put_get, h]

/-- Counting a failure changes the list of counters exactly when it changes the counter (R41). -/
theorem countFailure_counters_eq_iff (k : CntKind) {rx : Nat} (hrx : rx < s.counters.length) :
    (s.countFailure k rx).counters = s.counters ↔
      satInc s.cfg.cntW (s.counter k rx) = s.counter k rx := by
  constructor
  · intro he
    have hc := countFailure_counter k hrx k rx
    rw [if_pos ⟨rfl, rfl⟩] at hc
    rw [← hc, State.counter, State.rxCounters, he]
    rfl
  · intro he
    rw [countFailure_counters, he, setCounter_counter]

/-- Counting a failure sets `DIRTY` exactly when it changes the counters (R22, R41). -/
theorem countFailure_dirty_iff (k : CntKind) {rx : Nat} (hrx : rx < s.counters.length) :
    (s.countFailure k rx).status.dirty = true ↔
      s.status.dirty = true ∨ (s.countFailure k rx).counters ≠ s.counters := by
  rw [countFailure_status_dirty, Ne, countFailure_counters_eq_iff k hrx, Bool.or_eq_true,
    bne_iff_ne]

/-- From `s` to `t`, `DIRTY` becomes set exactly if something that it watches changes (R22). -/
def DirtyOnChange (s t : State) : Prop :=
  t.status.dirty = true ↔ s.status.dirty = true ∨ t.counters ≠ s.counters ∨
    t.thermal.engcnt ≠ s.thermal.engcnt ∨ t.status.engaged ≠ s.status.engaged

theorem dirtyOnChange_of_unchanged (hd : t.status.dirty = s.status.dirty)
    (hc : t.counters = s.counters) (ht : t.thermal.engcnt = s.thermal.engcnt)
    (he : t.status.engaged = s.status.engaged) : DirtyOnChange s t := by
  simp [DirtyOnChange, hd, hc, ht, he]

theorem LenStep.dirtyOnChange (h : LenStep s u) : DirtyOnChange s u :=
  dirtyOnChange_of_unchanged h.dirty_eq h.counters_eq (by rw [h.thermal_eq]) h.engaged_eq

theorem LenStep.countFailure_dirtyOnChange (h : LenStep s u) (k : CntKind) {rx : Nat}
    (hrx : rx < s.counters.length) : DirtyOnChange s (u.countFailure k rx) := by
  have hiff := countFailure_dirty_iff k (h.counters_eq ▸ hrx)
  simpa only [DirtyOnChange, h.dirty_eq, h.counters_eq, countFailure_thermal, h.thermal_eq,
    countFailure_status_engaged, h.engaged_eq, ne_eq, not_true_eq_false, or_false] using hiff

/-- `eval_engaged` moves `T_ENGCNT` only on an edge of `ENGAGED`, and sets `DIRTY` exactly on one
(R257). -/
theorem evalEngaged_dirtyOnChange (s : State) : DirtyOnChange s s.evalEngaged := by
  rw [DirtyOnChange, evalEngaged_status_dirty, evalEngaged_thermal_engcnt,
    evalEngaged_status_engaged, Bool.or_eq_true, bne_iff_ne]
  by_cases he : (s.engageOver || s.engageHold) = s.status.engaged <;> simp [he]

/-- A command that charges a receiver is none of those that clear. -/
theorem not_clears_of_chargedRx {i : Instr} {rx : Nat} (h : Instr.chargedRx i = some rx) :
    Instr.clears i = false := by
  cases i with
  | hdec | pdec | fdec | sdec => rfl
  | _ => cases h

/-- A command that clears leaves `DIRTY` as it is, or resets it (R22). -/
theorem ExecNext.dirty_of_clears {i : Instr} (h : ExecNext s i t) (hi : Instr.clears i = true)
    (hd : t.status.dirty = true) : s.status.dirty = true := by
  cases h with
  | completes _ h | storesFb h | storesPb h => exact h.dirty_eq ▸ hd
  | counts _ _ hrx => rw [not_clears_of_chargedRx hrx] at hi; cases hi
  | heats | tclr | clrcnt => exact hd
  | ttick => cases hi
  | srst => cases hd

/-- Any other command sets `DIRTY` exactly on a change of what it watches (R22). -/
theorem ExecNext.dirtyOnChange {i : Instr} (h : ExecNext s i t) (hs : s.CountersOk)
    (hi : Instr.clears i = false) : DirtyOnChange s t := by
  cases h with
  | completes _ h | storesFb h | storesPb h => exact h.dirtyOnChange
  | counts k h _ hrx => exact h.countFailure_dirtyOnChange k (hs.1.symm ▸ hrx)
  | @heats _ th _ hth =>
    have heng : th.engcnt = s.thermal.engcnt := by rw [hth]
    exact dirtyOnChange_of_unchanged rfl rfl heng rfl
  | @ttick th hth =>
    have heng : th.engcnt = s.thermal.engcnt := by rw [hth]
    rw [DirtyOnChange, ← heng]
    exact evalEngaged_dirtyOnChange { s with thermal := th }
  | tclr | clrcnt | srst => cases hi

/-- Settles O54: by the forms a command's next state can have; only a counted failure and `TTICK`
set `DIRTY`, each exactly when it changes a counter or the engaged flag. -/
theorem dirtyExactlyOnChange : Obligations.DirtyExactlyOnChange := by
  intro i s t hs h
  split
  · exact (exec_next h).dirty_of_clears ‹_›
  · exact (exec_next h).dirtyOnChange hs (Bool.eq_false_iff.mpr ‹_›)

/-- A saturating increment leaves a counter exactly at its top value (R16). -/
theorem satInc_eq_self_iff (w : CntWidth) (c : Word) :
    satInc w c = c ↔ c.toNat = 2 ^ cntBits w - 1 := by
  unfold satInc
  split
  · simp [*]
  · simp [*]

/-- Settles O28: the counter moves by `satInc`, which changes it exactly below the top value. -/
theorem failureIsCounted : Obligations.FailureIsCounted := by
  intro s k rx hs hrx
  have hlt : rx < s.counters.length := hs.1.symm ▸ hrx
  refine ⟨fun k' rx' => ?_, ?_, rfl⟩
  · rw [countFailure_counter k hlt]
    split
    · exact satInc_toNat s.cfg.cntW (hs.2.1 rx k)
    · rfl
  · have hne : (satInc s.cfg.cntW (s.counter k rx) != s.counter k rx) =
        decide ((s.counter k rx).toNat ≠ 2 ^ cntBits s.cfg.cntW - 1) := by
      rw [Bool.eq_iff_iff, bne_iff_ne, decide_eq_true_iff, Ne, satInc_eq_self_iff]
    rw [← hne]
    rfl

end Sys2Proof.Machine

/-! ## Where a command stops -/

namespace Sys2Proof.Machine

variable {s : State}

/-- A run of bytes does not read exactly at its first unwritten index (10_state.md R47). -/
theorem readBytes_error_iff {m : Memory} {i n j : Nat} :
    Memory.readBytes m i n = .error j ↔ FirstUnwritten m i n j := by
  induction n generalizing i with
  | zero =>
    simp only [Memory.readBytes, reduceCtorEq, false_iff]
    rintro ⟨h1, h2, -, -⟩
    omega
  | succ n ih =>
    unfold Memory.readBytes
    rcases hi : Memory.read m i with _ | b
    · constructor
      · intro h
        cases h
        exact ⟨Nat.le_refl _, by omega, hi, fun a h1 h2 => by omega⟩
      · rintro ⟨h1, -, -, hw⟩
        rcases Nat.eq_or_lt_of_le h1 with rfl | hlt
        · rfl
        · exact absurd hi (hw i (Nat.le_refl _) hlt)
    · have hshift : FirstUnwritten m i (n + 1) j ↔ FirstUnwritten m (i + 1) n j := by
        constructor
        · rintro ⟨h1, h2, hj, hw⟩
          have hne : i ≠ j := by rintro rfl; rw [hi] at hj; cases hj
          exact ⟨by omega, by omega, hj, fun a h1 h2 => hw a (by omega) h2⟩
        · rintro ⟨h1, h2, hj, hw⟩
          refine ⟨by omega, by omega, hj, fun a h1 h2 => ?_⟩
          rcases Nat.eq_or_lt_of_le h1 with rfl | hlt
          · rw [hi]; exact Option.some_ne_none b
          · exact hw a hlt h2
      rw [hshift, ← ih]
      rcases Memory.readBytes m (i + 1) n with k | bs <;> simp

/-- Reading `FB` faults at the first byte of the range that nothing has written. -/
theorem withFb_firstUnwritten {i n j : Nat} (h : FirstUnwritten s.fb i n j)
    (k : List Byte → Result) : s.withFb i n k = .fault (.unwrittenFb j) := by
  rw [State.withFb, readBytes_error_iff.mpr h]

/-- An answer that is a next state, or a fault at an unwritten byte inside one of the buffers. -/
def StopsUnwritten (fb pb : Memory) : Result → Prop
  | .next _ => True
  | .fault (.unwrittenFb n) => n < fbSize ∧ Memory.read fb n = none
  | .fault (.unwrittenPb n) => n < pbSize ∧ Memory.read pb n = none
  | .refused _ => False

namespace StopsUnwritten

variable {fb pb : Memory}

theorem next (t : State) : StopsUnwritten fb pb (.next t) := trivial

theorem withFb {i n : Nat} {k : List Byte → Result} (hn : i + n ≤ fbSize)
    (hk : ∀ B, StopsUnwritten s.fb pb (k B)) : StopsUnwritten s.fb pb (s.withFb i n k) := by
  unfold State.withFb
  split
  · exact hk _
  · rename_i j hj
    obtain ⟨-, hlt, hj, -⟩ := readBytes_error_iff.mp hj
    exact ⟨hlt.trans_le hn, hj⟩

theorem withPb {n : Nat} {k : List Byte → Result} (hn : n ≤ pbSize)
    (hk : ∀ P, StopsUnwritten fb s.pb (k P)) : StopsUnwritten fb s.pb (s.withPb n k) := by
  unfold State.withPb
  split
  · exact hk _
  · rename_i j hj
    obtain ⟨-, hlt, hj, -⟩ := readBytes_error_iff.mp hj
    exact ⟨by omega, hj⟩

/-- The payload range `PB[0 .. LEN-1]` lies inside `PB`. -/
theorem withPb_len {k : List Byte → Result} (hk : ∀ P, StopsUnwritten fb s.pb (k P)) :
    StopsUnwritten fb s.pb (s.withPb s.frame.len.toNat k) :=
  withPb (Nat.le_of_lt s.frame.len.isLt) hk

theorem withFrameLen {op : BitVec 8} {k : FrameLen → State → Result}
    (hk : ∀ f, s.frameLen = .ok f → StopsUnwritten fb pb (k f (s.setLenOk f.segs f.tot))) :
    StopsUnwritten fb pb (s.withFrameLen op k) := by
  unfold State.withFrameLen
  split
  · exact next _
  · exact hk _ ‹_›

theorem receiveHeader {op : BitVec 8} {rx : Nat} {k : List Byte → Result}
    (hk : ∀ H, StopsUnwritten s.fb pb (k H)) :
    StopsUnwritten s.fb pb (s.receiveHeader op rx k) := by
  refine withFb (by decide) fun B => ?_
  split
  · exact next _
  · split
    · exact hk _
    · exact next _

theorem sendPayload (op : BitVec 8) (e : ModeEntry) :
    StopsUnwritten fb s.pb (s.sendPayload op e) := withPb_len fun _ => next _

theorem receivePayload (op : BitVec 8) (rx : Nat) :
    StopsUnwritten s.fb pb (s.receivePayload op rx) := by
  refine withFrameLen fun f hf => ?_
  obtain ⟨-, -, htot, hfit⟩ := primaryLen_ok.mp hf
  split
  · exact next _
  · refine withFb (s := s.setLenOk f.segs f.tot) (by omega) fun B => ?_
    split <;> exact next _

/-- The header of a received STAR frame is read only where `RXLEN` bytes in `FB` hold it. -/
theorem starLength {op : BitVec 8} {sub : StarSub} {k : List Byte → Nat → State → Result}
    (hr : s.frame.rxlen.toNat ≤ fbSize)
    (hk : ∀ H L tot, tot ≤ fbSize →
      StopsUnwritten s.fb pb (k H tot ((s.setLen L).setLenOk 0 tot))) :
    StopsUnwritten s.fb pb (s.starLength op sub k) := by
  unfold State.starLength
  split
  · exact next _
  · refine withFb (by omega) fun H => ?_
    split
    · exact next _
    · rename_i L tot hLt
      exact hk H L tot (starRxLen_ok hLt).2.2.2

theorem starSend (op : BitVec 8) (sub : StarSub) : StopsUnwritten fb s.pb (s.starSend op sub) := by
  unfold State.starSend
  split
  · exact next _
  · refine withPb_len fun P => ?_
    split
    · exact next _
    · split <;> exact next _

theorem starRecv {op : BitVec 8} {rx : Nat} {sub : StarSub} (hr : s.frame.rxlen.toNat ≤ fbSize) :
    StopsUnwritten s.fb pb (s.starRecv op rx sub) := by
  refine starLength hr fun H L tot htot => ?_
  split
  · exact next _
  · refine withFb (s := (s.setLen L).setLenOk 0 tot) (by omega) fun F => ?_
    split <;> exact next _

end StopsUnwritten

/-- A command stops only at an unwritten byte of the ranges its rule reads, all of which lie
inside the buffers (U1). -/
theorem exec_stopsUnwritten (i : Instr) (s : State) : StopsUnwritten s.fb s.pb (exec i s) := by
  cases i with
  | nop | hpack | henc | ttxd | ttick | tbkof | tclr | srst => exact .next _
  | hunpk | hcsgen | hcschk | hpargen => exact .withFb (by decide) fun _ => .next _
  | hpardec =>
    refine .withFb (by decide) fun B => ?_
    split <;> exact .next _
  | hdec rx =>
    unfold exec execHdec
    dsimp only
    split_ifs
    · exact .next _
    · exact .next _
    · exact .receiveHeader fun _ => .next _
  | lenc =>
    unfold exec execLenc
    dsimp only
    split
    · exact .next _
    · split
      · exact .next _
      · split <;> exact .next _
    · exact .withFrameLen fun _ _ => .next _
  | penc =>
    unfold exec execPenc
    dsimp only
    split
    · exact .next _
    · exact .withFrameLen fun f _ => .sendPayload (s := s.setLenOk f.segs f.tot) _ _
  | pdec rx =>
    unfold exec execPdec
    dsimp only
    split
    · exact .next _
    · exact .receivePayload _ _
  | fenc =>
    unfold exec execFenc
    dsimp only
    split
    · exact .next _
    · exact .starSend _ _
    · split
      · exact .next _
      · exact .withFrameLen fun f _ =>
          .sendPayload (s := (s.setLenOk f.segs f.tot).storeFb 0 _) _ _
  | fdec rx =>
    unfold exec execFdec
    dsimp only
    split
    · exact .next _
    · rename_i hr
      split
      · exact .next _
      · exact .starRecv (rxlen_le_of_inRange hr)
      · split
        · exact .next _
        · exact .receiveHeader fun H => .receivePayload (s := s.setHeader H) _ _
  | slen =>
    unfold exec execSlen
    dsimp only
    split
    · split
      · split
        · exact .next _
        · exact .starLength (by omega) fun _ _ _ _ => .next _
      · exact .next _
      · exact .next _
    · exact .next _
  | senc =>
    unfold exec execSenc
    dsimp only
    split
    · split
      · exact .starSend _ _
      · exact .next _
      · exact .next _
    · exact .next _
  | sdec rx =>
    unfold exec execSdec
    dsimp only
    split
    · split
      · split
        · exact .next _
        · rename_i hr
          exact .starRecv (rxlen_le_of_inRange hr)
      · exact .next _
      · exact .next _
    · exact .next _
  | clrcnt rx all =>
    unfold exec execClrcnt
    dsimp only
    split_ifs <;> exact .next _

/-- Settles O8: the faults from the ranges the commands read, the header commands' from the first
unwritten byte of theirs. -/
theorem commandsStopOnlyOnUnwrittenBytes : Obligations.CommandsStopOnlyOnUnwrittenBytes := by
  intro i s n
  have h := exec_stopsUnwritten i s
  refine ⟨fun he => ?_, fun he => ?_, fun r he => ?_, fun hf => ⟨?_, ?_⟩, fun hf => ⟨?_, ?_⟩,
    fun hf => ?_⟩
  · rwa [he] at h
  · rwa [he] at h
  · rwa [he] at h
  all_goals exact withFb_firstUnwritten hf _

end Sys2Proof.Machine

/-! ## The registers and the flags on the bus -/

namespace Sys2Proof.Machine

variable {s : State}

/-- Settles O4: the engine's slot runs the word that the phase holds, and the word decodes. -/
theorem stepRunsTheDecodedCommand : Obligations.StepRunsTheDecodedCommand := by
  intro s w i hp hd
  have hslot : ∀ u : State, u.phase = .busy w → u.engineSlot = exec i u := fun u hu => by
    simp only [State.engineSlot, hu, State.runWord, hd]
  refine ⟨fun hin => ?_, fun rest hin => ?_⟩
  · rw [step_eq, hin]; exact hslot s hp
  · rw [step_eq, hin]; exact hslot _ hp

/-- An idle word write of an offset that holds a register. -/
theorem access_write_of_regAt (hp : s.phase = .idle) {offset : BitVec 12} {r : Reg} (w : Word)
    (h : offset.toNat < 0x100) (h4 : offset.toNat % 4 = 0)
    (hr : regAt s.cfg.nRx offset.toNat = some r) :
    s.access (.write .word offset w) = .next (s.writeReg r w) := by
  rw [access_write_reg hp w h h4, hr]
  rfl

/-- An idle word read of an offset that holds a register. -/
theorem access_read_of_regAt (hp : s.phase = .idle) {offset : BitVec 12} {r : Reg}
    (h : offset.toNat < 0x100) (h4 : offset.toNat % 4 = 0)
    (hr : regAt s.cfg.nRx offset.toNat = some r) :
    s.access (.read .word offset) = .next (s.answer (s.readReg r)) := by
  rw [access_read_reg hp h h4, hr]
  rfl

/-- An idle word write of an unassigned offset is ignored (R48). -/
theorem access_write_unassigned (hp : s.phase = .idle) {offset : BitVec 12} (w : Word)
    (ho : Unassigned s.cfg offset) : s.access (.write .word offset w) = .next s := by
  have hnone := regAt_unassigned ho
  obtain ⟨h, h4, -, -⟩ := ho
  rw [access_write_reg hp w h h4, hnone]
  rfl

/-- An idle word read of an unassigned offset answers 0 (R48). -/
theorem access_read_unassigned (hp : s.phase = .idle) {offset : BitVec 12}
    (ho : Unassigned s.cfg offset) : s.access (.read .word offset) = .next (s.answer 0) := by
  have hnone := regAt_unassigned ho
  obtain ⟨h, h4, -, -⟩ := ho
  rw [access_read_reg hp h h4, hnone]
  rfl

/-- Settles O5: offset 0 is `CMD`, whose idle write issues the word and whose read is 0. -/
theorem cmdWriteIssuesTheWord : Obligations.CmdWriteIssuesTheWord := by
  intro s v
  refine ⟨fun hp => ⟨?_, ?_⟩, fun w hp => ?_⟩
  · exact access_write_of_regAt hp (r := .cmd) v (by decide) rfl rfl
  · exact access_read_of_regAt hp (r := .cmd) (by decide) rfl rfl
  · rw [State.access, hostWrite_busy hp]
    rfl

/-! ### `STATUS` and `T_CTRL` -/

/-- A result code is `OK` exactly when its byte is zero (R300). -/
theorem byte_bne_zero (c : ResultCode) : (c.byte != 0) = decide (c ≠ .ok) := by cases c <;> rfl

/-- The flags in the low byte of `STATUS`, bit 0 first (R22). -/
theorem statusWord_flag (s : State) {k : Nat} (hk : k < 8) :
    s.statusWord.getLsbD k =
      [s.busy, s.status.done, decide (s.status.code ≠ .ok), s.status.ovr, s.status.dirty,
        s.status.engaged, s.status.lenv].getD k false := by
  rw [← byte_bne_zero, State.statusWord, BitVec.getLsbD_append, if_pos hk]
  simp only [BitVec.getLsbD_append]
  rcases k with _ | _ | _ | _ | _ | _ | _ | k <;> simp [State.err]

/-- The bytes of a word put together of three under a zero byte. -/
theorem extractLsb'_bytes (a b c : BitVec 8) :
    (0#8 ++ a ++ b ++ c).extractLsb' 8 8 = b ∧ (0#8 ++ a ++ b ++ c).extractLsb' 16 8 = a ∧
      (0#8 ++ a ++ b ++ c).extractLsb' 24 8 = 0 := by
  refine ⟨?_, ?_, ?_⟩
  · rw [BitVec.extractLsb'_append_eq_of_le (by decide), BitVec.extractLsb'_append_eq_right]
  · rw [BitVec.extractLsb'_append_eq_of_le (by decide),
      BitVec.extractLsb'_append_eq_of_le (by decide), BitVec.extractLsb'_append_eq_right]
  · rw [BitVec.extractLsb'_append_eq_of_le (by decide),
      BitVec.extractLsb'_append_eq_of_le (by decide), BitVec.extractLsb'_append_eq_left]
    rfl

/-- Settles O10: the low byte bit by bit, the other bytes as the word is put together of them. -/
theorem statusLayout : Obligations.StatusLayout := by
  intro s
  obtain ⟨hcode, hlastop, hzero⟩ := extractLsb'_bytes s.status.lastop s.status.code.byte
    (0#1 ++ BitVec.ofBool s.status.lenv ++ BitVec.ofBool s.status.engaged ++
      BitVec.ofBool s.status.dirty ++ BitVec.ofBool s.status.ovr ++ BitVec.ofBool s.err ++
      BitVec.ofBool s.status.done ++ BitVec.ofBool s.busy)
  have hflag : ∀ k < 8, _ := fun _ => statusWord_flag s
  refine ⟨hflag 0 (by decide), hflag 1 (by decide), hflag 2 (by decide), hflag 3 (by decide),
    hflag 4 (by decide), hflag 5 (by decide), hflag 6 (by decide), hflag 7 (by decide), ?_,
    hlastop, hzero⟩
  rw [State.statusWord, hcode]
  cases s.status.code <;> rfl

/-- The bits of `T_CTRL` (R33). -/
theorem tCtrlWord_getLsbD (s : State) (k : Nat) :
    s.tCtrlWord.getLsbD k =
      if k = 0 then s.thermal.protEn else if k = 2 then s.status.engaged else false := by
  change (0#29 ++ BitVec.ofBool s.status.engaged ++ 0#1 ++
    BitVec.ofBool s.thermal.protEn).getLsbD k = _
  rw [BitVec.getLsbD_append, BitVec.getLsbD_append, BitVec.getLsbD_append]
  rcases k with _ | _ | _ | k <;> simp

/-- Settles O15: offset 0x40 is `T_CTRL`, which holds `PROT_EN` and `ENGAGED` and nothing else. -/
theorem thermalControlReads : Obligations.ThermalControlReads := by
  intro s hp
  refine ⟨s.tCtrlWord, access_read_of_regAt hp (r := .tCtrl) (by decide) rfl rfl,
    tCtrlWord_getLsbD s 0, tCtrlWord_getLsbD s 1, tCtrlWord_getLsbD s 2, fun k hk => ?_⟩
  rw [tCtrlWord_getLsbD, if_neg (by omega), if_neg (by omega)]

/-! ### Writes -/

/-- Settles O14: each offset holds the register named, and the model's write of it is the rule's. -/
theorem writesWithSideEffects : Obligations.WritesWithSideEffects := by
  intro s w hp
  refine ⟨?_, ?_, ?_, ?_, ?_, ?_⟩
  · exact access_write_of_regAt hp (r := .status) w (by decide) rfl rfl
  · exact access_write_of_regAt hp (r := .mode) w (by decide) rfl rfl
  · exact access_write_of_regAt hp (r := .modeparm) w (by decide) rfl rfl
  · exact access_write_of_regAt hp (r := .len) w (by decide) rfl rfl
  · exact access_write_of_regAt hp (r := .framing) w (by decide) rfl rfl
  · exact access_write_of_regAt hp (r := .tCtrl) w (by decide) rfl rfl

/-- The offsets of the counters of a receiver below `N_RX` (R40). -/
theorem regAt_cnt {nRx rx : Nat} (hrx : rx < nRx) :
    regAt nRx (0x80 + 0x10 * rx) = some (.cnt .hcs rx) ∧
      regAt nRx (0x84 + 0x10 * rx) = some (.cnt .hpar rx) ∧
      regAt nRx (0x88 + 0x10 * rx) = some (.cnt .pld rx) := by
  have hat : ∀ k < 0x10, regAt nRx (0x80 + k + 0x10 * rx) = counterAt nRx rx k := fun k hk => by
    rw [Nat.add_right_comm]; exact regAt_counter nRx rx hk
  refine ⟨(hat 0 (by decide)).trans ?_, (hat 4 (by decide)).trans ?_,
    (hat 8 (by decide)).trans ?_⟩ <;> rw [counterAt, if_pos hrx]

/-- Settles O12: each offset holds the register named, and the model's write of it stores the low
bits, or nothing where the register is read-only; an unassigned offset holds none. -/
theorem plainWritesStore : Obligations.PlainWritesStore := by
  intro s w hp
  refine ⟨?_, ?_, ?_, ?_, ?_, ?_, ?_, ?_, ?_, ?_, ?_⟩
  · exact access_write_of_regAt hp (r := .version) w (by decide) rfl rfl
  · exact access_write_of_regAt hp (r := .rxlen) w (by decide) rfl rfl
  · exact access_write_of_regAt hp (r := .maxpl) w (by decide) rfl rfl
  · exact access_write_of_regAt hp (r := .irqen) w (by decide) rfl rfl
  · exact access_write_of_regAt hp (r := .tVt) w (by decide) rfl rfl
  · exact access_write_of_regAt hp (r := .tSensed) w (by decide) rfl rfl
  · exact access_write_of_regAt hp (r := .tTxb) w (by decide) rfl rfl
  · exact access_write_of_regAt hp (r := .tTxms) w (by decide) rfl rfl
  · exact access_write_of_regAt hp (r := .tEngcnt) w (by decide) rfl rfl
  · rintro offset (ho | ho)
    · simp only [List.mem_cons, List.not_mem_nil, or_false] at ho
      rcases ho with rfl | rfl | rfl | rfl | rfl
      · exact access_write_of_regAt hp (r := .totlen) w (by decide) rfl rfl
      · exact access_write_of_regAt hp (r := .segcnt) w (by decide) rfl rfl
      · exact access_write_of_regAt hp (r := .tPendB) w (by decide) rfl rfl
      · exact access_write_of_regAt hp (r := .tPendMs) w (by decide) rfl rfl
      · exact access_write_of_regAt hp (r := .tBackoff) w (by decide) rfl rfl
    · exact access_write_unassigned hp w ho
  · intro rx offset hrx hlt
    obtain ⟨hhcs, hhpar, hpld⟩ := regAt_cnt hrx
    refine ⟨fun ho => ?_, fun ho => ?_, fun ho => ?_⟩
    · exact access_write_of_regAt hp w hlt (by omega) (ho ▸ hhcs)
    · exact access_write_of_regAt hp w hlt (by omega) (ho ▸ hhpar)
    · exact access_write_of_regAt hp w hlt (by omega) (ho ▸ hpld)

/-! ### A write, then a read -/

/-- A host access at the head of the input list is the next step (R70). -/
theorem step_access {a : Access} {rest : List Input} (hin : s.inputs = .access a :: rest) :
    step s = { s with inputs := rest }.access a := by
  rw [step_eq, hin]
  rfl

/-- The input list is no part of what a register write stores or a register read answers. -/
theorem writeReg_withInputs (s : State) (l : List Input) (r : Reg) (w : Word) :
    { s with inputs := l }.writeReg r w = { s.writeReg r w with inputs := l } := by cases r <;> rfl

theorem readReg_withInputs (s : State) (l : List Input) (r : Reg) :
    { s with inputs := l }.readReg r = s.readReg r := by cases r <;> rfl

/-- Only a write of `CMD` leaves the idle phase (R44). -/
theorem writeReg_phase {r : Reg} (hr : r ≠ .cmd) (s : State) (w : Word) :
    (s.writeReg r w).phase = s.phase := by
  cases r with
  | cmd => exact absurd rfl hr
  | _ => rfl

theorem run_two {t u : State} (h1 : step s = .next t) (h2 : step t = .next u) :
    Sys2Proof.core.run 2 s = .next u := by
  simp only [Host.Core.run, Sys2Proof.core, h1, h2]

/-- A write at the head of the input list, then a read, from what each does whatever the list. -/
theorem run_write_read {t : State} {offset : BitVec 12} {w v : Word} {rest : List Input}
    (hin : s.inputs = .access (.write .word offset w) :: .access (.read .word offset) :: rest)
    (hw : ∀ l, { s with inputs := l }.access (.write .word offset w) =
      .next { t with inputs := l })
    (hr : ∀ l, { t with inputs := l }.access (.read .word offset) =
      .next ({ t with inputs := l }.answer v)) :
    Sys2Proof.core.run 2 s = .next { t with inputs := rest, rdata := some v } :=
  run_two ((step_access hin).trans (hw _)) ((step_access rfl).trans (hr rest))

/-- A register that is written and then read answers what the write stored. -/
theorem run_write_read_reg {offset : BitVec 12} {w v : Word} {rest : List Input} (r : Reg)
    (hp : s.phase = .idle)
    (hin : s.inputs = .access (.write .word offset w) :: .access (.read .word offset) :: rest)
    (h : offset.toNat < 0x100) (h4 : offset.toNat % 4 = 0)
    (hr : regAt s.cfg.nRx offset.toNat = some r) (hcmd : r ≠ .cmd)
    (hv : (s.writeReg r w).readReg r = v) :
    Sys2Proof.core.run 2 s = .next { s.writeReg r w with inputs := rest, rdata := some v } := by
  refine run_write_read hin (fun l => ?_) fun l => ?_
  · rw [access_write_of_regAt (s := { s with inputs := l }) hp w h h4 hr, writeReg_withInputs]
  · have hr' : regAt (s.writeReg r w).cfg.nRx offset.toNat = some r := by rwa [writeReg_cfg]
    rw [access_read_of_regAt (s := { s.writeReg r w with inputs := l })
      ((writeReg_phase hcmd s w).trans hp) h h4 hr', readReg_withInputs, hv]

/-- An unassigned offset that is written and then read answers 0 (R48). -/
theorem run_write_read_unassigned {offset : BitVec 12} {w : Word} {rest : List Input}
    (hp : s.phase = .idle)
    (hin : s.inputs = .access (.write .word offset w) :: .access (.read .word offset) :: rest)
    (ho : Unassigned s.cfg offset) :
    Sys2Proof.core.run 2 s = .next { s with inputs := rest, rdata := some 0 } :=
  run_write_read hin (fun l => access_write_unassigned (s := { s with inputs := l }) hp w ho)
    fun l => access_read_unassigned (s := { s with inputs := l }) hp ho

/-- A field of `W` bits, zero-extended, holds the low `W` bits of what was written (R48). -/
theorem setWidth_setWidth_eq_ofNat (w : Word) (W : Nat) :
    (w.setWidth W).setWidth 32 = BitVec.ofNat 32 (w.toNat % 2 ^ W) :=
  BitVec.eq_of_toNat_eq (by simp)

theorem word_eq_ofNat_mod (w : Word) : w = BitVec.ofNat 32 (w.toNat % 2 ^ 32) := by
  rw [Nat.mod_eq_of_lt w.isLt, BitVec.ofNat_toNat, BitVec.setWidth_eq]

/-- A counter of a receiver below `N_RX` reads back the value stored in it. -/
theorem counter_setCounter (k : CntKind) {rx : Nat} (hrx : rx < s.counters.length) (v : Word) :
    (s.setCounter k rx v).counter k rx = v := by
  rw [State.counter, State.rxCounters, setCounter_counters, List.getD_eq_getElem?_getD,
    List.getElem?_set_self hrx, Option.getD_some, get_put, if_pos rfl]

/-- The counter at one of a receiver's three offsets (R40). -/
theorem regAt_cnt_mem {nRx rx k : Nat} (hrx : rx < nRx) (hk : k ∈ [0x0, 0x4, 0x8]) :
    ∃ kind, regAt nRx (0x80 + 0x10 * rx + k) = some (.cnt kind rx) := by
  obtain ⟨hhcs, hhpar, hpld⟩ := regAt_cnt hrx
  simp only [List.mem_cons, List.not_mem_nil, or_false] at hk
  rw [Nat.add_right_comm]
  rcases hk with rfl | rfl | rfl
  · exact ⟨.hcs, hhcs⟩
  · exact ⟨.hpar, hhpar⟩
  · exact ⟨.pld, hpld⟩

/-- Settles O11: at each offset the write's stored value is what the read answers; a read-only
register's write leaves the state, and an unassigned offset holds no register. -/
theorem registerWriteThenRead : Obligations.RegisterWriteThenRead := by
  intro s offset w rest hp hs hin
  refine ⟨fun W hW => ?_, fun rx k hrx hk ho hlt => ?_, fun v hv => ?_,
    run_write_read_unassigned hp hin⟩
  · simp only [List.mem_cons, List.not_mem_nil, or_false, Prod.mk.injEq] at hW
    rcases hW with ⟨rfl, rfl⟩ | ⟨rfl, rfl⟩ | ⟨rfl, rfl⟩ | ⟨rfl, rfl⟩ | ⟨rfl, rfl⟩ | ⟨rfl, rfl⟩ |
      ⟨rfl, rfl⟩ | ⟨rfl, rfl⟩ | ⟨rfl, rfl⟩ | ⟨rfl, rfl⟩ | ⟨rfl, rfl⟩ | ⟨rfl, rfl⟩ | ⟨rfl, rfl⟩
    · exact ⟨_, run_write_read_reg .version hp hin (by decide) rfl rfl (by decide)
        (setWidth_setWidth_eq_ofNat w 4), rfl⟩
    · exact ⟨_, run_write_read_reg .mode hp hin (by decide) rfl rfl (by decide)
        (setWidth_setWidth_eq_ofNat w 4), rfl⟩
    · exact ⟨_, run_write_read_reg .modeparm hp hin (by decide) rfl rfl (by decide)
        (setWidth_setWidth_eq_ofNat w 8), rfl⟩
    · exact ⟨_, run_write_read_reg .len hp hin (by decide) rfl rfl (by decide)
        (setWidth_setWidth_eq_ofNat w 8), rfl⟩
    · exact ⟨_, run_write_read_reg .framing hp hin (by decide) rfl rfl (by decide)
        (setWidth_setWidth_eq_ofNat w 2), rfl⟩
    · exact ⟨_, run_write_read_reg .rxlen hp hin (by decide) rfl rfl (by decide)
        (setWidth_setWidth_eq_ofNat w 11), rfl⟩
    · exact ⟨_, run_write_read_reg .maxpl hp hin (by decide) rfl rfl (by decide)
        (setWidth_setWidth_eq_ofNat w 8), rfl⟩
    · exact ⟨_, run_write_read_reg .irqen hp hin (by decide) rfl rfl (by decide)
        (setWidth_setWidth_eq_ofNat w 3), rfl⟩
    · exact ⟨_, run_write_read_reg .tVt hp hin (by decide) rfl rfl (by decide)
        (word_eq_ofNat_mod w), rfl⟩
    · exact ⟨_, run_write_read_reg .tSensed hp hin (by decide) rfl rfl (by decide)
        (word_eq_ofNat_mod w), rfl⟩
    · exact ⟨_, run_write_read_reg .tTxb hp hin (by decide) rfl rfl (by decide)
        (word_eq_ofNat_mod w), rfl⟩
    · exact ⟨_, run_write_read_reg .tTxms hp hin (by decide) rfl rfl (by decide)
        (word_eq_ofNat_mod w), rfl⟩
    · exact ⟨_, run_write_read_reg .tEngcnt hp hin (by decide) rfl rfl (by decide) rfl, rfl⟩
  · obtain ⟨kind, hreg⟩ := regAt_cnt_mem hrx hk
    have h4 : offset.toNat % 4 = 0 := by
      simp only [List.mem_cons, List.not_mem_nil, or_false] at hk
      omega
    exact ⟨_, run_write_read_reg (.cnt kind rx) hp hin hlt h4 (ho ▸ hreg) (by simp)
      (counter_setCounter kind (hs.1.symm ▸ hrx) _), rfl⟩
  · simp only [List.mem_cons, List.not_mem_nil, or_false, Prod.mk.injEq] at hv
    rcases hv with ⟨rfl, rfl⟩ | ⟨rfl, rfl⟩ | ⟨rfl, rfl⟩ | ⟨rfl, rfl⟩ | ⟨rfl, rfl⟩
    · exact run_write_read_reg .totlen hp hin (by decide) rfl rfl (by decide) rfl
    · exact run_write_read_reg .segcnt hp hin (by decide) rfl rfl (by decide) rfl
    · exact run_write_read_reg .tPendB hp hin (by decide) rfl rfl (by decide) rfl
    · exact run_write_read_reg .tPendMs hp hin (by decide) rfl rfl (by decide) rfl
    · exact run_write_read_reg .tBackoff hp hin (by decide) rfl rfl (by decide) rfl

end Sys2Proof.Machine

/-! ## The window: the address map, the shapes and the frame of an access -/

namespace Sys2Proof.Machine

variable {s t : State}

/-! ### The address map -/

theorem regionOf_fb {offset : BitVec 12} {i : Nat} (hi : i < fbSize)
    (ho : offset.toNat = 0x400 + i) : regionOf offset = .fb i := by
  change i < 0x400 at hi
  rw [regionOf, if_neg (by omega), if_neg (by omega), if_pos (by omega)]
  exact congrArg Region.fb (by omega)

theorem regionOf_pb {offset : BitVec 12} {i : Nat} (hi : i < pbSize)
    (ho : offset.toNat = 0x800 + i) : regionOf offset = .pb i := by
  change i < 0x100 at hi
  rw [regionOf, if_neg (by omega), if_neg (by omega), if_neg (by omega), if_pos (by omega)]
  exact congrArg Region.pb (by omega)

theorem regionOf_reserved {offset : BitVec 12}
    (ho : 0x100 ≤ offset.toNat ∧ offset.toNat < 0x400 ∨ 0x900 ≤ offset.toNat) :
    regionOf offset = .reserved := by
  rcases ho with ⟨hlo, hhi⟩ | hlo
  · rw [regionOf, if_neg (by omega), if_pos hhi]
  · rw [regionOf, if_neg (by omega), if_neg (by omega), if_neg (by omega), if_neg (by omega)]

/-- A register of the map below the counters stands at an aligned offset of `REG`. -/
theorem namedOffsets_aligned :
    ∀ o ∈ namedOffsets, BitVec.toNat o < 0x80 ∧ BitVec.toNat o % 4 = 0 := by
  simp [namedOffsets]

/-! ### The shapes -/

/-- The shapes that the space of the offset refuses (R66): of `REG` anything but an aligned word, of
a buffer anything but a byte. -/
theorem shapeAccepted_eq_false {width : Width} {offset : BitVec 12}
    (h : offset.toNat < 0x100 ∧ (width ≠ .word ∨ offset.toNat % 4 ≠ 0) ∨
      0x400 ≤ offset.toNat ∧ offset.toNat < 0x900 ∧ width ≠ .byte) :
    shapeAccepted width (regionOf offset) = false := by
  rcases h with ⟨hreg, hshape⟩ | ⟨hlo, hhi, hwidth⟩
  · simpa only [regionOf_reg hreg, shapeAccepted, Bool.and_eq_false_iff, beq_eq_false_iff_ne] using
      hshape
  · rcases Nat.lt_or_ge offset.toNat 0x800 with hfb | hpb
    · rw [regionOf_fb (i := offset.toNat - 0x400) (by change _ < 0x400; omega) (by omega)]
      exact beq_eq_false_iff_ne.mpr hwidth
    · rw [regionOf_pb (i := offset.toNat - 0x800) (by change _ < 0x100; omega) (by omega)]
      exact beq_eq_false_iff_ne.mpr hwidth

/-- An idle read of an accepted shape reads its region (R67). -/
theorem access_read_accepted (hp : s.phase = .idle) {width : Width} {offset : BitVec 12}
    (hg : shapeAccepted width (regionOf offset) = true) :
    s.access (.read width offset) = s.readIdle (regionOf offset) := by
  simp only [State.access, State.hostRead, hg, hp, if_true]

/-- An idle write of an accepted shape writes its region (R67). -/
theorem access_write_accepted (hp : s.phase = .idle) {width : Width} {offset : BitVec 12}
    (w : Word) (hg : shapeAccepted width (regionOf offset) = true) :
    s.access (.write width offset w) = .next (s.writeIdle (regionOf offset) w) := by
  simp only [State.access, State.hostWrite, hg, hp, if_true]

/-- A read of a refused shape answers 0 and sets `OVR`, in any phase (R66). -/
theorem access_read_refused {width : Width} {offset : BitVec 12}
    (hg : shapeAccepted width (regionOf offset) = false) :
    s.access (.read width offset) = .next (s.setOvr.answer 0) := by
  simp only [State.access, State.hostRead, hg, Bool.false_eq_true, if_false]

/-- A write of a refused shape only sets `OVR`, in any phase (R66, 70_reset_and_hazards.md R352). -/
theorem access_write_refused {width : Width} {offset : BitVec 12} (w : Word)
    (hg : shapeAccepted width (regionOf offset) = false) :
    s.access (.write width offset w) = .next s.setOvr := by
  cases hp : s.phase with
  | idle => simp only [State.access, State.hostWrite, hg, hp, Bool.false_eq_true, if_false]
  | busy v => rw [State.access, hostWrite_busy hp]

/-- Settles O16: the hypothesis names the refused shapes, and a refused access has one effect in
any phase. -/
theorem badlyShapedAccessIsRefused : Obligations.BadlyShapedAccessIsRefused := by
  intro s width offset w _ h
  have hg := shapeAccepted_eq_false h
  exact ⟨access_read_refused hg, access_write_refused w hg⟩

/-! ### The frame of an access -/

/-- An idle read that does not fault answers, and does nothing else (R67). -/
theorem readIdle_eq_answer {g : Region} (h : s.readIdle g = .next t) : ∃ v, t = s.answer v := by
  cases g with
  | reg n => dsimp only [State.readIdle] at h; split at h <;> cases h <;> exact ⟨_, rfl⟩
  | fb i => dsimp only [State.readIdle] at h; split at h <;> cases h; exact ⟨_, rfl⟩
  | pb i => dsimp only [State.readIdle] at h; split at h <;> cases h; exact ⟨_, rfl⟩
  | reserved => cases h; exact ⟨0, rfl⟩

/-- Storing in one counter leaves every other, of the same receiver or another (R40). -/
theorem counter_setCounter_other {k k' : CntKind} {rx rx' : Nat} (h : ¬(k' = k ∧ rx' = rx))
    (v : Word) : (s.setCounter k rx v).counter k' rx' = s.counter k' rx' := by
  by_cases hrx : rx' = rx
  · subst hrx
    have hk : k' ≠ k := fun hk => h ⟨hk, rfl⟩
    rcases Nat.lt_or_ge rx' s.counters.length with hlt | hge
    · rw [State.counter, State.rxCounters, setCounter_counters, List.getD_eq_getElem?_getD,
        List.getElem?_set_self hlt, Option.getD_some, get_put, if_neg hk]
      rfl
    · rw [State.counter, State.rxCounters, setCounter_counters, List.set_eq_of_length_le hge]
      rfl
  · simp only [State.counter, State.rxCounters, setCounter_counters, List.getD_eq_getElem?_getD,
      List.getElem?_set_ne (Ne.symm hrx)]

/-- A register without a side effect shares no stored field with another register: its write leaves
what every other register reads (R67). -/
theorem readReg_writeReg_other {r r' : Reg} (hr : r ∉ effectRegs) (hne : r' ≠ r) (w : Word) :
    (s.writeReg r w).readReg r' = s.readReg r' := by
  cases r with
  | cmd | status | mode | modeparm | len | framing | tCtrl => exact absurd (by decide) hr
  | totlen | segcnt | tPendB | tPendMs | tBackoff => rfl
  | version | rxlen | maxpl | irqen | tVt | tSensed | tTxb | tTxms | tEngcnt =>
    -- The same register is excluded; any other reads a field that the write keeps.
    cases r' <;> first | exact absurd rfl hne | rfl
  | cnt k rx =>
    cases r' with
    | cnt k' rx' =>
      exact counter_setCounter_other (fun ⟨hk, hrx⟩ => hne (by rw [hk, hrx])) _
    | _ => rfl

/-- Settles O13: a write stores in its own register's field only, no register is in a buffer, and an
idle read of an accepted shape answers. -/
theorem registerAccessFrame : Obligations.RegisterAccessFrame := by
  intro s r w
  refine ⟨fun hr => ⟨fun r' hne => readReg_writeReg_other hr hne w, ?_⟩, writeReg_fb s r w,
    writeReg_pb s r w, fun width offset t hp hg h => ?_⟩
  · exact writeReg_phase (fun hcmd => hr (by rw [hcmd]; decide)) s w
  · rw [access_read_accepted hp hg] at h
    obtain ⟨v, rfl⟩ := readIdle_eq_answer h
    rfl

/-! ### What each offset answers and stores -/

/-- An idle byte read of `FB` (R61): the byte, or a fault where nothing has written it. -/
theorem access_read_fb (hp : s.phase = .idle) {offset : BitVec 12} {i : Nat} (hi : i < fbSize)
    (ho : offset.toNat = 0x400 + i) :
    s.access (.read .byte offset) =
      (Memory.read s.fb i).elim (.fault (.unwrittenFb i)) fun b => .next (s.answerByte b) := by
  have hg := regionOf_fb hi ho
  rw [access_read_accepted hp (by rw [hg]; rfl), hg]
  cases hb : Memory.read s.fb i <;> simp only [State.readIdle, hb, Option.elim]

/-- An idle byte read of `PB` (R61). -/
theorem access_read_pb (hp : s.phase = .idle) {offset : BitVec 12} {i : Nat} (hi : i < pbSize)
    (ho : offset.toNat = 0x800 + i) :
    s.access (.read .byte offset) =
      (Memory.read s.pb i).elim (.fault (.unwrittenPb i)) fun b => .next (s.answerByte b) := by
  have hg := regionOf_pb hi ho
  rw [access_read_accepted hp (by rw [hg]; rfl), hg]
  cases hb : Memory.read s.pb i <;> simp only [State.readIdle, hb, Option.elim]

/-- An idle byte write of `FB` stores the low eight bits of its data (R61). -/
theorem access_write_fb (hp : s.phase = .idle) {offset : BitVec 12} {i : Nat} (w : Word)
    (hi : i < fbSize) (ho : offset.toNat = 0x400 + i) :
    s.access (.write .byte offset w) =
      .next { s with fb := Memory.writeBytes s.fb i [w.setWidth 8] } := by
  have hg := regionOf_fb hi ho
  rw [access_write_accepted hp w (by rw [hg]; rfl), hg]
  rfl

/-- An idle byte write of `PB` stores the low eight bits of its data (R61). -/
theorem access_write_pb (hp : s.phase = .idle) {offset : BitVec 12} {i : Nat} (w : Word)
    (hi : i < pbSize) (ho : offset.toNat = 0x800 + i) :
    s.access (.write .byte offset w) =
      .next { s with pb := Memory.writeBytes s.pb i [w.setWidth 8] } := by
  have hg := regionOf_pb hi ho
  rw [access_write_accepted hp w (by rw [hg]; rfl), hg]
  rfl

/-- An idle read of a reserved offset answers 0, at any width (R61, log entry 11). -/
theorem access_read_reserved (hp : s.phase = .idle) (width : Width) {offset : BitVec 12}
    (ho : 0x100 ≤ offset.toNat ∧ offset.toNat < 0x400 ∨ 0x900 ≤ offset.toNat) :
    s.access (.read width offset) = .next (s.answer 0) := by
  have hg := regionOf_reserved ho
  rw [access_read_accepted hp (by rw [hg]; rfl), hg]
  rfl

/-- An idle write of a reserved offset is ignored, at any width (R61, log entry 11). -/
theorem access_write_reserved (hp : s.phase = .idle) (width : Width) {offset : BitVec 12}
    (w : Word) (ho : 0x100 ≤ offset.toNat ∧ offset.toNat < 0x400 ∨ 0x900 ≤ offset.toNat) :
    s.access (.write width offset w) = .next s := by
  have hg := regionOf_reserved ho
  rw [access_write_accepted hp w (by rw [hg]; rfl), hg]
  rfl

/-- An idle word read of an offset of the map below the counters answers its register (R48). -/
theorem access_read_named (hp : s.phase = .idle) {offset : BitVec 12}
    (ho : offset ∈ namedOffsets) :
    s.access (.read .word offset) =
      .next (s.answer ((namedAt offset.toNat).elim 0 s.readReg)) := by
  obtain ⟨hlt, h4⟩ := namedOffsets_aligned offset ho
  rw [access_read_reg hp (by omega) h4, regAt, if_pos hlt]

/-- Settles O17: the regions by their bounds, the offsets below the counters by evaluating the map
at each, the counters by the receiver's three offsets. -/
theorem windowMap : Obligations.WindowMap := by
  intro s offset width w hp
  refine ⟨fun i hi ho => ⟨fun b hb => ?_, fun hb => ?_, _, access_write_fb hp w hi ho,
      writeBytes_storedAt s.fb i _, rfl⟩,
    fun i hi ho => ⟨fun b hb => ?_, fun hb => ?_, _, access_write_pb hp w hi ho,
      writeBytes_storedAt s.pb i _, rfl⟩,
    fun ho => ⟨access_read_reserved hp width ho, access_write_reserved hp width w ho⟩,
    fun v hv => ?_, fun rx hrx hlt => ?_, access_read_unassigned hp⟩
  · rw [access_read_fb hp hi ho, hb]; rfl
  · rw [access_read_fb hp hi ho, hb]; rfl
  · rw [access_read_pb hp hi ho, hb]; rfl
  · rw [access_read_pb hp hi ho, hb]; rfl
  · change (offset, v) ∈ namedOffsets.map fun o => (o, (namedAt o.toNat).elim 0 s.readReg) at hv
    obtain ⟨o, ho, hov⟩ := List.mem_map.mp hv
    cases hov
    exact access_read_named hp ho
  · obtain ⟨hhcs, hhpar, hpld⟩ := regAt_cnt hrx
    refine ⟨fun ho => ?_, fun ho => ?_, fun ho => ?_⟩
    · exact access_read_of_regAt hp hlt (by omega) (ho ▸ hhcs)
    · exact access_read_of_regAt hp hlt (by omega) (ho ▸ hhpar)
    · exact access_read_of_regAt hp hlt (by omega) (ho ▸ hpld)

end Sys2Proof.Machine

/-! ## The command word: decoding is the inverse of encoding -/

namespace Sys2Proof

variable {i : Instr} {w : Word}

/-- What the decoder asks of a word for it to be the command `i`, apart from the reserved bits: the
operands fit their fields, and the three fields of the word are those of `i` (30_encoding.md R101 to
R103). -/
structure CarriesFields (w : Word) (i : Instr) : Prop where
  wellFormed : Instr.WellFormed i
  op : wordOp w = i.opcode
  rx : wordRx w = i.rxField
  all : wordAll w = i.allField

/-! ### The encoder -/

/-- A word is its four fields in the order of format `C` (R101). -/
theorem word_eq_append_fields (w : Word) :
    wordReserved w ++ BitVec.ofBool (wordAll w) ++ wordRx w ++ wordOp w = w := by
  have hbit : BitVec.ofBool (wordAll w) = w.extractLsb' 11 1 := by
    ext k hk
    simp [wordAll, show k = 0 by omega]
  simp only [hbit, wordReserved, wordRx, wordOp]
  rw [BitVec.extractLsb'_append_extractLsb'_eq_extractLsb' (by rfl),
    BitVec.extractLsb'_append_extractLsb'_eq_extractLsb' (by rfl),
    BitVec.extractLsb'_append_extractLsb'_eq_extractLsb' (by rfl)]
  exact BitVec.extractLsb'_eq_self

/-- The fields of a command's word are the command's, and nothing is reserved (R101, R102). -/
theorem fields_encode (i : Instr) : Laws.FieldsOfWord.Statement i :=
  Laws.fieldsOfWord_word i.opcode i.rxField i.allField

/-- A word is the encoding of a command exactly when its four fields say so (R101, R102). -/
theorem encode_eq_iff : encode i = w ↔ wordReserved w = 0 ∧ wordOp w = i.opcode ∧
    wordRx w = i.rxField ∧ wordAll w = i.allField := by
  constructor
  · rintro rfl
    obtain ⟨hop, hres, hrx, hall⟩ := fields_encode i
    exact ⟨hres, hop, hrx, hall⟩
  · rintro ⟨hres, hop, hrx, hall⟩
    rw [encode, show 0#20 = wordReserved w from hres.symm, ← hop, ← hrx, ← hall]
    exact word_eq_append_fields w

/-! ### The decoder -/

/-- A command without operands is decoded exactly when both operand fields are zero (R102, R104). -/
theorem decodePlain_ok_iff {j : Instr} :
    decodePlain w j = .ok i ↔ wordRx w = 0 ∧ wordAll w = false ∧ j = i := by
  simp only [decodePlain]
  by_cases hrx : wordRx w = 0#3 <;> cases hall : wordAll w <;> simp [hrx]

/-- A command with `RX` only is decoded exactly when `ALL` is zero (R102, R104). -/
theorem decodeRx_ok_iff {f : Nat → Instr} :
    decodeRx w f = .ok i ↔ wordAll w = false ∧ f (wordRx w).toNat = i := by
  simp only [decodeRx]
  cases wordAll w <;> simp

/-- `decode` accepts what the opcode map accepts, with the reserved bits zero (R104). -/
theorem decode_ok_iff : decode w = .ok i ↔ wordReserved w = 0 ∧ decodeOp w = .ok i := by
  simp only [decode]
  by_cases hres : wordReserved w = 0#20 <;> simp [hres]

/-- The receiver index in the `RX` field is one that the field can hold (R101). -/
theorem wordRx_fits (w : Word) : RxFits (wordRx w).toNat := (wordRx w).isLt

/-- A receiver index that fits the `RX` field is read back from it (R101). -/
theorem wordRx_toNat {rx : Nat} (hfits : RxFits rx) (hrx : wordRx w = BitVec.ofNat 3 rx) :
    (wordRx w).toNat = rx := by
  rw [hrx, BitVec.toNat_ofNat, Nat.mod_eq_of_lt hfits]

/-- A row of the opcode map for a command without operands. -/
theorem CarriesFields.of_decodePlain {j : Instr} (hop : (wordOp w).toNat = j.opcode.toNat)
    (h : decodePlain w j = .ok i) (hwf : Instr.WellFormed j) (hrx : j.rxField = 0)
    (hall : j.allField = false) : CarriesFields w i := by
  obtain ⟨hwrx, hwall, rfl⟩ := decodePlain_ok_iff.mp h
  exact ⟨hwf, BitVec.eq_of_toNat_eq hop, hwrx.trans hrx.symm, hwall.trans hall.symm⟩

/-- A row of the opcode map for a command with `RX` only. -/
theorem CarriesFields.of_decodeRx {f : Nat → Instr}
    (hop : (wordOp w).toNat = (f (wordRx w).toNat).opcode.toNat) (h : decodeRx w f = .ok i)
    (hwf : Instr.WellFormed (f (wordRx w).toNat))
    (hrx : (f (wordRx w).toNat).rxField = BitVec.ofNat 3 (wordRx w).toNat)
    (hall : (f (wordRx w).toNat).allField = false) : CarriesFields w i := by
  obtain ⟨hwall, rfl⟩ := decodeRx_ok_iff.mp h
  exact ⟨hwf, BitVec.eq_of_toNat_eq hop, by rw [hrx, BitVec.ofNat_toNat, BitVec.setWidth_eq],
    hwall.trans hall.symm⟩

/-- What the opcode map reads from a word is a command whose fields the word carries (R103): no
operand is dropped, and no field of a command without that operand is ignored. -/
theorem carriesFields_of_decodeOp (h : decodeOp w = .ok i) : CarriesFields w i := by
  unfold decodeOp at h
  split at h
  -- `HDEC`, `PDEC`, `FDEC`, `SDEC`, then `CLRCNT`, then no row of the map; the rest are plain.
  case h_9 | h_12 | h_14 | h_17 =>
    exact CarriesFields.of_decodeRx ‹_› h (wordRx_fits w) rfl rfl
  case h_22 hop =>
    cases h
    exact ⟨wordRx_fits w, BitVec.eq_of_toNat_eq hop, by simp [Instr.rxField], rfl⟩
  case h_24 => cases h
  all_goals exact CarriesFields.of_decodePlain ‹_› h trivial rfl rfl

/-- The opcode map reads from a word the command whose fields it carries (R103). -/
theorem decodeOp_of_carriesFields (h : CarriesFields w i) : decodeOp w = .ok i := by
  obtain ⟨hwf, hop, hrx, hall⟩ := h
  unfold decodeOp
  rw [hop]
  cases i with
  | hdec rx | pdec rx | fdec rx | sdec rx =>
    exact decodeRx_ok_iff.mpr ⟨hall, by rw [wordRx_toNat hwf hrx]⟩
  | clrcnt rx all =>
    change Except.ok (Instr.clrcnt (wordRx w).toNat (wordAll w)) = _
    rw [wordRx_toNat hwf hrx, hall]
    rfl
  | _ => exact decodePlain_ok_iff.mpr ⟨hrx, hall, rfl⟩

/-- The opcode map reads a command from a word exactly when the word carries its fields (R103). -/
theorem decodeOp_ok_iff : decodeOp w = .ok i ↔ CarriesFields w i :=
  ⟨carriesFields_of_decodeOp, decodeOp_of_carriesFields⟩

/-- Settles O1: the decoder accepts a word, and the encoder makes it, exactly when the reserved bits
are zero and the other fields are the command's. -/
theorem decodeIsInverseOfEncode : Obligations.DecodeIsInverseOfEncode := by
  intro i w
  rw [decode_ok_iff, decodeOp_ok_iff, encode_eq_iff]
  constructor
  · rintro ⟨hres, hwf, hop, hrx, hall⟩
    exact ⟨hwf, hres, hop, hrx, hall⟩
  · rintro ⟨hwf, hres, hop, hrx, hall⟩
    exact ⟨hres, hwf, hop, hrx, hall⟩

/-- A well-formed command is read back from its word (R105). -/
theorem decode_encode (h : Instr.WellFormed i) : decode (encode i) = .ok i :=
  (decodeIsInverseOfEncode i _).mpr ⟨h, rfl⟩

/-- Settles O3: each legal word is the encoding of the command that the spec names for it; the
decoder is evaluated on the illegal ones. -/
theorem sampleWordsDecode : Obligations.SampleWordsDecode :=
  ⟨decode_encode (i := .nop) trivial, decode_encode (i := .fenc) trivial,
    decode_encode (i := .fdec 1) (by decide), decode_encode (i := .hdec 1) (by decide),
    decode_encode (i := .pdec 0) (by decide), decode_encode (i := .ttick) trivial,
    decode_encode (i := .clrcnt 1 false) (by decide),
    decode_encode (i := .clrcnt 0 true) (by decide), decode_encode (i := .srst) trivial,
    by decide⟩

end Sys2Proof

/-! ## The wire layout of an encoded payload -/

namespace Sys2Proof.Machine

/-- Each group of a list cut up is a run of the list, at its multiple of the group size. -/
theorem chunks_getElem? {α : Type} (m : Nat) {n i : Nat} (X : List α) (hi : i < n) :
    (chunks m n X)[i]? = some ((X.drop (i * m)).take m) := by
  induction n generalizing i X with
  | zero => omega
  | succ n ih =>
    cases i with
    | zero => simp [chunks]
    | succ i =>
      rw [chunks, List.getElem?_cons_succ, ih _ (by omega), List.drop_drop, Nat.succ_mul,
        Nat.add_comm m]

/-- In a concatenation of blocks of one length `n`, place `i * n + j` is place `j` of block `i`. -/
theorem flatMap_getElem?_const {α β : Type} (f : α → List β) {n i j : Nat} {x : α} {xs : List α}
    (h : ∀ y, (f y).length = n) (hx : xs[i]? = some x) (hj : j < n) :
    (xs.flatMap f)[i * n + j]? = (f x)[j]? := by
  induction xs generalizing i with
  | nil => cases hx
  | cons y ys ih =>
    cases i with
    | zero =>
      cases hx
      rw [List.flatMap_cons, Nat.zero_mul, Nat.zero_add, List.getElem?_append_left (by simpa [h])]
    | succ i =>
      have hplace : (i + 1) * n + j - (f y).length = i * n + j := by rw [h, Nat.succ_mul]; omega
      rw [List.flatMap_cons, List.getElem?_append_right (by rw [h, Nat.succ_mul]; omega), hplace,
        ih hx]

/-- Segment `i` of a payload is its own run of `CAP_BITS` bits (R193). -/
theorem segments_getElem? (e : ModeEntry) (P : List Byte) {i : Nat} (hi : i < segCount e P.length) :
    (segments e P)[i]? = some (((bitsOf P).drop (i * e.capBits)).take e.capBits) :=
  chunks_getElem? e.capBits (bitsOf P) hi

/-- Settles O36: the payload stands first, and after it blocks of `PAR_BYTES` bytes, block `i` the
parity of segment `i`. -/
theorem payloadWireLayout : Obligations.PayloadWireLayout := by
  intro e P he
  have hpar : 0 < RsCfg.par e.rs := par_pos he.1
  refine ⟨payloadEncode_length e hpar P, fun i hi => List.getElem?_append_left hi,
    fun i j hi hj => ?_⟩
  rw [payloadEncode, List.getElem?_append_right (by omega),
    show P.length + i * parBytes e + j - P.length = i * parBytes e + j by omega]
  exact flatMap_getElem?_const _ (segmentParity_length e.rs hpar) (segments_getElem? e P hi) hj

end Sys2Proof.Machine

/-! ## The header check sequence

The CRC register is linear over exclusive or, so two messages that differ in one bit have registers
that differ by what the shifts make of that one bit (40_header_codec.md R120). No number of shifts
makes zero of it while the generator polynomial has a bit (R122). -/

namespace Sys2Proof.Machine

variable {poly d : BitVec 16} {v : Nat}

/-! ### The shifts are linear -/

theorem crcShift_xor (poly c d : BitVec 16) :
    crcShift poly (c ^^^ d) = crcShift poly c ^^^ crcShift poly d := by
  simp only [crcShift, BitVec.getLsbD_xor, BitVec.shiftLeft_xor_distrib]
  cases c.getLsbD 15 <;> cases d.getLsbD 15 <;> simp [BitVec.xor_assoc, BitVec.xor_comm poly]

theorem crcShifts_xor (poly : BitVec 16) (n : Nat) (c d : BitVec 16) :
    crcShifts poly n (c ^^^ d) = crcShifts poly n c ^^^ crcShifts poly n d := by
  induction n generalizing c d with
  | zero => rfl
  | succ n ih => simp only [crcShifts, crcShift_xor, ih]

/-- What a message byte adds to the register: its bits, in the order of `HCS_REFIN`, on top (R120). -/
def crcAddend (h : HcsCfg) (b : Byte) : BitVec 16 :=
  (if h.refin then reflectBits b else b).setWidth 16 <<< 8

theorem crcByte_eq (h : HcsCfg) (c : BitVec 16) (b : Byte) :
    crcByte h c b = crcShifts h.poly 8 (c ^^^ crcAddend h b) := rfl

/-- A difference in the register goes through the shifts of the next byte. -/
theorem crcByte_xor (h : HcsCfg) (c d : BitVec 16) (b : Byte) :
    crcByte h (c ^^^ d) b = crcByte h c b ^^^ crcShifts h.poly 8 d := by
  rw [crcByte_eq, crcByte_eq, ← crcShifts_xor, BitVec.xor_assoc, BitVec.xor_comm d,
    BitVec.xor_assoc]

theorem reflectBits_xor {w : Nat} (a b : BitVec w) :
    reflectBits (a ^^^ b) = reflectBits a ^^^ reflectBits b := by
  refine BitVec.eq_of_getLsbD_eq fun j hj => ?_
  simp only [reflectBits, BitVec.getLsbD_reverse, BitVec.getLsbD_xor, BitVec.getMsbD_xor]

/-- A flipped message bit flips one bit of the register. -/
theorem crcAddend_flip (h : HcsCfg) (b : Byte) {bit : Nat} (hbit : bit < 8) :
    ∃ k < 16, crcAddend h (b ^^^ BitVec.twoPow 8 bit) = crcAddend h b ^^^ BitVec.twoPow 16 k := by
  have hplace : ∀ j < 8, (BitVec.twoPow 8 j).setWidth 16 <<< 8 = BitVec.twoPow 16 (8 + j) := by
    decide
  have hmirror : ∀ j < 8, reflectBits (BitVec.twoPow 8 j) = BitVec.twoPow 8 (7 - j) := by decide
  cases hr : h.refin
  · refine ⟨8 + bit, by omega, ?_⟩
    simp only [crcAddend, hr, Bool.false_eq_true, if_false, BitVec.setWidth_xor,
      BitVec.shiftLeft_xor_distrib, hplace bit hbit]
  · refine ⟨8 + (7 - bit), by omega, ?_⟩
    simp only [crcAddend, hr, if_true, reflectBits_xor, hmirror bit hbit, BitVec.setWidth_xor,
      BitVec.shiftLeft_xor_distrib, hplace (7 - bit) (by omega)]

/-! ### A one-bit difference never dies out -/

/-- Bit `v` is the lowest bit of the generator polynomial. -/
structure LowestBit (poly : BitVec 16) (v : Nat) : Prop where
  set : poly.getLsbD v = true
  clear : ∀ j < v, poly.getLsbD j = false

theorem exists_lowestBit (h : poly ≠ 0) : ∃ v, LowestBit poly v := by
  have hbit : ∃ v, poly.getLsbD v = true := by
    by_contra hnone
    refine h (BitVec.eq_of_getLsbD_eq fun j _ => ?_)
    simpa using fun hj => hnone ⟨j, hj⟩
  exact ⟨Nat.find hbit, Nat.find_spec hbit, fun j hj => by simpa using Nat.find_min hbit hj⟩

/-- A nonzero register without a bit below place `v`. -/
def ClearBelow (v : Nat) (d : BitVec 16) : Prop := d ≠ 0 ∧ ∀ j < v, d.getLsbD j = false

/-- A register difference that stays nonzero, `v` being the polynomial's lowest bit: a single bit on
its way up, or a register that is clear below `v`, on which the shift is injective. -/
def CrcDifference (v : Nat) (d : BitVec 16) : Prop :=
  (∃ k < 16, d = BitVec.twoPow 16 k) ∨ ClearBelow v d

theorem twoPow_ne_zero {k : Nat} (hk : k < 16) : BitVec.twoPow 16 k ≠ 0 := by
  intro h
  simpa [hk] using congrArg (·.getLsbD k) h

theorem CrcDifference.ne_zero (h : CrcDifference v d) : d ≠ 0 := by
  rcases h with ⟨k, hk, rfl⟩ | h
  · exact twoPow_ne_zero hk
  · exact h.1

theorem twoPow_clearBelow {k : Nat} (hk : k < 16) (hv : v ≤ k) :
    ClearBelow v (BitVec.twoPow 16 k) := by
  refine ⟨twoPow_ne_zero hk, fun j hj => ?_⟩
  simp; omega

/-- The shift takes no nonzero register that is clear below `v` to zero: after it, place `v` tells
whether the polynomial was added. -/
theorem ClearBelow.crcShift (hp : LowestBit poly v) (h : ClearBelow v d) :
    ClearBelow v (crcShift poly d) := by
  obtain ⟨hne, hclear⟩ := h
  have hv : v < 16 := BitVec.lt_of_getLsbD hp.set
  have hshift : ∀ j ≤ v, (d <<< 1).getLsbD j = false := fun j hj => by
    rcases Nat.eq_zero_or_pos j with rfl | hpos
    · simp
    · simp [hclear (j - 1) (by omega)]
  unfold Machine.crcShift
  cases htop : d.getLsbD 15
  · refine ⟨fun hzero => hne (BitVec.eq_of_getLsbD_eq fun j hj => ?_), fun j hj =>
      hshift j (Nat.le_of_lt hj)⟩
    rcases Nat.lt_or_ge j 15 with hj | hj
    · have hbit := congrArg (·.getLsbD (j + 1)) hzero
      simpa [show j + 1 < 16 by omega, show j < 16 by omega] using hbit
    · rw [show j = 15 by omega, htop]; rfl
  · refine ⟨fun hzero => ?_, fun j hj => ?_⟩
    · have hbit := congrArg (·.getLsbD v) hzero
      simp [hshift v (Nat.le_refl v), hp.set] at hbit
    · simp [hshift j (Nat.le_of_lt hj), hp.clear j hj]

theorem CrcDifference.crcShift (hp : LowestBit poly v) (h : CrcDifference v d) :
    CrcDifference v (crcShift poly d) := by
  rcases h with ⟨k, hk, rfl⟩ | h
  · rcases Nat.lt_or_ge k v with hkv | hkv
    · have hk15 : k + 1 < 16 := by have := BitVec.lt_of_getLsbD hp.set; omega
      refine .inl ⟨k + 1, hk15, ?_⟩
      have htop : (BitVec.twoPow 16 k).getLsbD 15 = false := by simp; omega
      rw [Machine.crcShift, htop, if_neg (by decide), BitVec.twoPow_eq, BitVec.twoPow_eq,
        BitVec.shiftLeft_add]
    · exact .inr ((twoPow_clearBelow hk hkv).crcShift hp)
  · exact .inr (h.crcShift hp)

theorem CrcDifference.crcShifts (hp : LowestBit poly v) (h : CrcDifference v d) (n : Nat) :
    CrcDifference v (crcShifts poly n d) := by
  induction n generalizing d with
  | zero => exact h
  | succ n ih => exact ih (h.crcShift hp)

/-- After the same bytes, registers that differed still differ. -/
theorem crcByte_foldl_xor (h : HcsCfg) (hp : LowestBit h.poly v) (B : List Byte) (c : BitVec 16)
    (hd : CrcDifference v d) :
    ∃ e, CrcDifference v e ∧ B.foldl (crcByte h) (c ^^^ d) = B.foldl (crcByte h) c ^^^ e := by
  induction B generalizing c d with
  | nil => exact ⟨d, hd, rfl⟩
  | cons b B ih =>
    simp only [List.foldl_cons, crcByte_xor]
    exact ih _ (hd.crcShifts hp 8)

/-- One flipped bit leaves the register different. -/
theorem crcByte_foldl_flip (h : HcsCfg) (hp : LowestBit h.poly v) (B : List Byte) (c : BitVec 16)
    {i bit : Nat} (hi : i < B.length) (hbit : bit < 8) :
    ∃ e, CrcDifference v e ∧
      (B.set i (B.getD i 0 ^^^ BitVec.twoPow 8 bit)).foldl (crcByte h) c =
        B.foldl (crcByte h) c ^^^ e := by
  induction B generalizing c i with
  | nil => cases hi
  | cons b B ih =>
    cases i with
    | zero =>
      obtain ⟨k, hk, hflip⟩ := crcAddend_flip h b hbit
      have hd : CrcDifference v (crcShifts h.poly 8 (BitVec.twoPow 16 k)) :=
        CrcDifference.crcShifts hp (.inl ⟨k, hk, rfl⟩) 8
      have hbyte : crcByte h c (b ^^^ BitVec.twoPow 8 bit) =
          crcByte h c b ^^^ crcShifts h.poly 8 (BitVec.twoPow 16 k) := by
        rw [crcByte_eq, hflip, ← BitVec.xor_assoc, crcShifts_xor, ← crcByte_eq]
      simp only [List.set_cons_zero, List.getD_cons_zero, List.foldl_cons, hbyte]
      exact crcByte_foldl_xor h hp B _ hd
    | succ i =>
      simp only [List.set_cons_succ, List.getD_cons_succ, List.foldl_cons]
      exact ih _ (Nat.lt_of_succ_lt_succ hi)

/-- The final reflection and exclusive or keep different registers different (R120). -/
theorem crc16_eq_iff (h : HcsCfg) (B B' : List Byte) :
    crc16 h B' = crc16 h B ↔ B'.foldl (crcByte h) h.seed = B.foldl (crcByte h) h.seed := by
  simp only [crc16, BitVec.xor_left_inj]
  cases h.refout
  · rfl
  · exact ⟨fun he => by simpa [reflectBits] using congrArg reflectBits he,
      fun he => congrArg reflectBits he⟩

/-- Settles O23: the flipped bit's difference goes through the shifts of the bytes after it, and no
shift makes it zero. -/
theorem oneFlippedBitChangesTheCheck : Obligations.OneFlippedBitChangesTheCheck := by
  rintro h B _ hpoly - ⟨i, bit, hi, hbit, rfl⟩ heq
  obtain ⟨v, hp⟩ := exists_lowestBit hpoly
  obtain ⟨e, he, hfold⟩ := crcByte_foldl_flip h hp B h.seed hi hbit
  rw [crc16_eq_iff, hfold] at heq
  have hzero : B.foldl (crcByte h) h.seed ^^^ e = B.foldl (crcByte h) h.seed ^^^ 0#16 :=
    heq.trans BitVec.xor_zero.symm
  exact he.ne_zero ((BitVec.xor_right_inj _).mp hzero)

end Sys2Proof.Machine

/-! ## The header codec commands -/

namespace Sys2Proof.Machine

variable {s : State} {B H : List Byte} {op : BitVec 8} {rx : Nat} {k : List Byte → Result}

/-! ### Bytes read and stored -/

/-- A run of bytes that reads reaches the continuation. -/
theorem withFb_of_readBytes {i n : Nat} (h : Memory.readBytes s.fb i n = .ok B)
    (k : List Byte → Result) : s.withFb i n k = k B := by
  rw [State.withFb, h]

/-- A run of bytes reads when its first byte and the others do. -/
theorem readBytes_cons {m : Memory} {i n : Nat} {b : Byte} (hb : Memory.read m i = some b)
    (hB : Memory.readBytes m (i + 1) n = .ok B) : Memory.readBytes m i (n + 1) = .ok (b :: B) := by
  simp only [Memory.readBytes, hb, hB]

/-- A command reads back the run of bytes that the one before it stored. -/
theorem withFb_of_stored (s : State) (i : Nat) (B : List Byte) (op : BitVec 8) (c : ResultCode)
    (k : List Byte → Result) : ((s.storeFb i B).complete op c).withFb i B.length k = k B :=
  withFb_of_readBytes (readBytes_writeBytes_same s.fb i B) k

/-- Storing one run and, in the next command, the run after it is storing them together. -/
theorem storeFb_complete_storeFb (s : State) (i : Nat) (A B : List Byte) (op op' : BitVec 8)
    (c c' : ResultCode) :
    (((s.storeFb i A).complete op c).storeFb (i + A.length) B).complete op' c' =
      (s.storeFb i (A ++ B)).complete op' c' := by
  simp only [State.storeFb, State.complete, writeBytes_append]

/-! ### The header code -/

/-- A code that is valid as a header code has four parity symbols (R9, R171). -/
theorem par_of_hdrRsValid {c : RsCfg} (h : HdrRsValid c) : RsCfg.par c = 4 := by
  obtain ⟨-, hn, hk, -⟩ := h
  rw [RsCfg.par, hn, hk]

/-- The seven data symbols of the header in `FB` (R123). -/
theorem hdrData_bytesAt (m : Memory) {n : Nat} (h : 5 ≤ n) :
    hdrData (bytesAt m 0 n) = symsOf 6 (bitsOf (bytesAt m 0 5)) := by
  rw [hdrData, bytesAt_take m 0 h]

/-- The eleven symbols of the header in `FB` (R123). -/
theorem hdrData_append_hdrPar (m : Memory) :
    hdrData (bytesAt m 0 8) ++ hdrPar (bytesAt m 0 8) = headerWord m := by
  rw [hdrData_bytesAt m (by decide), hdrPar, bytesAt_drop, bytesAt_take _ _ (by decide), headerWord]

/-- The decoder does not find a codeword (R129). -/
theorem hdrCorrect_of_decode_none {c : Cfg} (h : rsDecode c.hdrRs (hdrData H ++ hdrPar H) = none) :
    hdrCorrect c H = none := by
  rw [hdrCorrect, h]

/-- A pad bit of the decoded word is set (R129). -/
theorem hdrCorrect_of_pad {c : Cfg} {r : List Nat}
    (h : rsDecode c.hdrRs (hdrData H ++ hdrPar H) = some r)
    (hpad : (symBits 6 (r.take 7)).getD 40 false = true ∨
      (symBits 6 (r.take 7)).getD 41 false = true) :
    hdrCorrect c H = none := by
  simp only [hdrCorrect, h, Bool.or_eq_true, if_pos hpad]

/-- The decoded word gives the header back (R129). -/
theorem hdrCorrect_of_no_pad {c : Cfg} {r : List Nat}
    (h : rsDecode c.hdrRs (hdrData H ++ hdrPar H) = some r)
    (hpad : ¬((symBits 6 (r.take 7)).getD 40 false = true ∨
      (symBits 6 (r.take 7)).getD 41 false = true)) :
    hdrCorrect c H =
      some (bytesOf ((symBits 6 (r.take 7)).take 40) ++ bytesOf (symBits 6 (r.drop 7))) := by
  simp only [hdrCorrect, h, Bool.or_eq_true, if_neg hpad]

/-- The header check, as R131 compares it. -/
theorem hcsMatches_iff {c : Cfg} :
    hcsMatches c H = true ↔ crc16 c.hcs (H.take 3) = hcsLoad c.hcs (H.getD 3 0) (H.getD 4 0) :=
  beq_iff_eq

/-! ### The commands that pack, unpack and check -/

/-- Settles O19: `HPACK` stores the three field bytes at `FB[0]`. -/
theorem hpackPacksTheFields : Obligations.HpackPacksTheFields :=
  ⟨rfl, fun s => ⟨_, rfl, writeBytes_storedAt s.fb 0 (headerFields s.frame), rfl⟩⟩

/-- Settles O20: the three bytes are read, and the header is unpacked from them. -/
theorem hunpkUnpacksTheFields : Obligations.HunpkUnpacksTheFields :=
  ⟨rfl, fun _ _ _ _ h0 h1 h2 =>
    withFb_of_readBytes (readBytes_cons h0 (readBytes_cons h1 (readBytes_cons h2 rfl))) _⟩

/-- Settles O21: the two bytes that `hcs_store` makes of the check sequence are stored at `FB[3]`. -/
theorem hcsgenStoresTheCheck : Obligations.HcsgenStoresTheCheck := by
  refine ⟨rfl, fun s b0 b1 b2 h0 h1 h2 => ?_⟩
  have hread : Memory.readBytes s.fb 0 3 = .ok [b0, b1, b2] :=
    readBytes_cons h0 (readBytes_cons h1 (readBytes_cons h2 rfl))
  exact ⟨_, withFb_of_readBytes hread _,
    writeBytes_storedAt s.fb 3 (headerHcs s.cfg [b0, b1, b2]), rfl⟩

/-- Settles O22: the comparison is `hcsMatches` of the five bytes read. -/
theorem hcschkComparesTheCheck : Obligations.HcschkComparesTheCheck := by
  refine ⟨rfl, fun s b0 b1 b2 b3 b4 h0 h1 h2 h3 h4 => ?_⟩
  have hread : Memory.readBytes s.fb 0 5 = .ok [b0, b1, b2, b3, b4] :=
    readBytes_cons h0 (readBytes_cons h1 (readBytes_cons h2
      (readBytes_cons h3 (readBytes_cons h4 rfl))))
  refine (withFb_of_readBytes hread _).trans ?_
  simp only [hcsMatches_iff]
  rfl

/-- Settles O24: the parity of the five bytes is three bytes, stored at `FB[5]`. -/
theorem hpargenStoresTheParity : Obligations.HpargenStoresTheParity := by
  refine ⟨rfl, fun s hrs hw => ⟨_, headerParity s.cfg (bytesAt s.fb 0 5), withFb_written hw _, ?_,
    headerParity_length s.cfg (par_of_hdrRsValid hrs) _, writeBytes_storedAt s.fb 5 _, rfl⟩⟩
  rw [headerParity, hdrData_bytesAt s.fb (Nat.le_refl 5)]

/-! ### `HPARDEC` -/

theorem execHpardec_of_none (hw : FbWritten s 0 8)
    (h : hdrCorrect s.cfg (bytesAt s.fb 0 8) = none) :
    execHpardec s = .next (s.complete 0x06 .errHpar) := by
  rw [execHpardec, withFb_written hw, h]
  rfl

theorem execHpardec_of_some (hw : FbWritten s 0 8)
    (h : hdrCorrect s.cfg (bytesAt s.fb 0 8) = some H) :
    execHpardec s = .next ((s.storeFb 0 H).complete 0x06 .ok) := by
  rw [execHpardec, withFb_written hw, h]
  rfl

/-- Settles O25: the three outcomes of the header decoder, each with what `HPARDEC` makes of it. -/
theorem hpardecCorrectsInPlace : Obligations.HpardecCorrectsInPlace := by
  refine ⟨rfl, fun s _ hw => ?_⟩
  have hword := hdrData_append_hdrPar s.fb
  rw [headerWord] at hword
  rw [← hword]
  cases hdec : rsDecode s.cfg.hdrRs (hdrData (bytesAt s.fb 0 8) ++ hdrPar (bytesAt s.fb 0 8)) with
  | none => exact ⟨_, execHpardec_of_none hw (hdrCorrect_of_decode_none hdec), rfl⟩
  | some r =>
    by_cases hpad : (symBits 6 (r.take 7)).getD 40 false = true ∨
        (symBits 6 (r.take 7)).getD 41 false = true
    · exact ⟨_, execHpardec_of_none hw (hdrCorrect_of_pad hdec hpad), (if_pos hpad).mpr rfl⟩
    · have hH := hdrCorrect_of_no_pad hdec hpad
      exact ⟨_, execHpardec_of_some hw hH, (if_neg hpad).mpr
        ⟨hdrCorrect_length (bytesAt_length s.fb 0 8) hH, writeBytes_storedAt s.fb 0 _, rfl⟩⟩

/-! ### `HENC` -/

/-- `HCSGEN` on three bytes just stored appends their check sequence (R126). -/
theorem execHcsgen_of_stored (s : State) (hB : B.length = 3) (op : BitVec 8) (c : ResultCode) :
    execHcsgen ((s.storeFb 0 B).complete op c) =
      .next ((s.storeFb 0 (B ++ headerHcs s.cfg B)).complete 0x03 .ok) := by
  rw [execHcsgen, ← hB, withFb_of_stored, complete_cfg, storeFb_cfg,
    ← storeFb_complete_storeFb s 0 B _ op, Nat.zero_add]
  rfl

/-- `HPARGEN` on five bytes just stored appends their parity (R128). -/
theorem execHpargen_of_stored (s : State) (hB : B.length = 5) (op : BitVec 8) (c : ResultCode) :
    execHpargen ((s.storeFb 0 B).complete op c) =
      .next ((s.storeFb 0 (B ++ headerParity s.cfg B)).complete 0x05 .ok) := by
  rw [execHpargen, ← hB, withFb_of_stored, complete_cfg, storeFb_cfg,
    ← storeFb_complete_storeFb s 0 B _ op, Nat.zero_add]
  rfl

/-- Settles O26: each command appends to the bytes that the one before it stored, and the header is
the fields, the check and the parity one after the other. -/
theorem hencIsPackCheckParity : Obligations.HencIsPackCheckParity :=
  ⟨rfl, fun s => ⟨_, _, _, rfl, execHcsgen_of_stored s (headerFields_length s.frame) 0x01 .ok,
    execHpargen_of_stored s (by simp) 0x03 .ok, rfl⟩⟩

/-! ### `HDEC` -/

/-- The parity cannot be decoded (R131). -/
theorem receiveHeader_of_uncorrectable (hw : FbWritten s 0 8)
    (h : hdrCorrect s.cfg (bytesAt s.fb 0 8) = none) :
    s.receiveHeader op rx k = .next ((s.countFailure .hpar rx).complete op .errHpar) := by
  rw [State.receiveHeader, withFb_written hw, h]

/-- The corrected header fails its check (R131). -/
theorem receiveHeader_of_mismatch (hw : FbWritten s 0 8)
    (h : hdrCorrect s.cfg (bytesAt s.fb 0 8) = some H) (hm : ¬hcsMatches s.cfg H = true) :
    s.receiveHeader op rx k = .next ((s.countFailure .hcs rx).complete op .errHcs) := by
  simp only [State.receiveHeader, withFb_written hw, h, if_neg hm]

/-- The corrected header is accepted (R131). -/
theorem receiveHeader_of_match (hw : FbWritten s 0 8)
    (h : hdrCorrect s.cfg (bytesAt s.fb 0 8) = some H) (hm : hcsMatches s.cfg H = true) :
    s.receiveHeader op rx k = k H := by
  simp only [State.receiveHeader, withFb_written hw, h, if_pos hm]

theorem execHdec_of_outOfRange (h : s.rxOutOfRange rx = true) :
    execHdec rx s = .next (s.complete 0x08 .errParam) := if_pos h

theorem execHdec_of_short (h : ¬s.rxOutOfRange rx = true) (hlen : s.frame.rxlen.toNat < 8) :
    execHdec rx s = .next (s.complete 0x08 .errLen) := (if_neg h).trans (if_pos hlen)

theorem execHdec_of_inRange (h : ¬s.rxOutOfRange rx = true) (hlen : ¬s.frame.rxlen.toNat < 8) :
    execHdec rx s = s.receiveHeader 0x08 rx fun H =>
      .next (((s.setHeader H).clearLenv).complete 0x08 .ok) := (if_neg h).trans (if_neg hlen)

/-- The word of `HDEC` carries the receiver in its `RX` field (R101, R103). -/
theorem encode_hdec (n : BitVec 3) : encode (.hdec n.toNat) = 0#20 ++ 0#1 ++ n ++ 0x08#8 := by
  change 0#20 ++ 0#1 ++ BitVec.ofNat 3 n.toNat ++ 0x08#8 = _
  rw [BitVec.ofNat_toNat, BitVec.setWidth_eq]

/-- Settles O27: the range checks in order, then the three outcomes of the shared header steps. -/
theorem hdecDecodesTheHeader : Obligations.HdecDecodesTheHeader := by
  refine ⟨encode_hdec, fun s rx hwritten => ?_⟩
  change execHdec rx s = _
  split
  next hout => exact execHdec_of_outOfRange ((rxOutOfRange_iff rx).mpr hout)
  next hout =>
    have hin : ¬s.rxOutOfRange rx = true := fun h => hout ((rxOutOfRange_iff rx).mp h)
    split
    next hshort => exact execHdec_of_short hin hshort
    next hshort =>
      have hw : FbWritten s 0 8 := hwritten (by omega) (by omega) (by omega)
      rw [execHdec_of_inRange hin hshort]
      split
      next hnone => exact receiveHeader_of_uncorrectable hw hnone
      next H hH =>
        split
        next hne => exact receiveHeader_of_mismatch hw hH fun hm => hne (hcsMatches_iff.mp hm)
        next heq => exact receiveHeader_of_match hw hH (hcsMatches_iff.mpr (not_not.mp heq))

end Sys2Proof.Machine

/-! ## The field of the symbols

A symbol is a sum of powers of `alpha` in a field of characteristic two (41_rs_primitive.md R161).
The model computes in natural numbers; `symVal` says which field element a number stands for. A
primitive `FIELD_POLY` makes the powers of `alpha` run through all nonzero symbols (R160), so
nonzero symbols stand for nonzero elements. -/

namespace Sys2Proof.Machine

variable {c : RsCfg} {a b : Nat}

/-! ### Symbols stay symbols -/

/-- What `RsCfg.primitive` says of a valid code's field polynomial (R160). -/
theorem primitive_of_valid (hc : RsCfg.Valid c) :
    (2 ^ c.m ≤ c.fieldPoly ∧ c.fieldPoly < 2 ^ (c.m + 1)) ∧
      gfNoUnit c (RsCfg.order c - 1) 1 = true ∧ gfDoubles c (RsCfg.order c) = 1 := by
  obtain ⟨-, -, hprim, -⟩ := hc
  simpa [RsCfg.primitive, and_assoc] using hprim

theorem fieldPoly_testBit (hc : RsCfg.Valid c) : c.fieldPoly.testBit c.m = true := by
  obtain ⟨⟨hlo, hhi⟩, -⟩ := primitive_of_valid hc
  exact Nat.testBit_of_two_pow_le_and_two_pow_add_one_gt hlo hhi

/-- A number of `m + 1` bits whose top bit is clear is a symbol. -/
theorem lt_of_testBit_eq_false (ha : a < 2 ^ (c.m + 1)) (htop : a.testBit c.m = false) :
    a < 2 ^ c.m := by
  refine Nat.lt_pow_two_of_testBit a fun i hi => ?_
  rcases Nat.eq_or_lt_of_le hi with rfl | hlt
  · exact htop
  · exact Nat.testBit_lt_two_pow (ha.trans_le (Nat.pow_le_pow_right (by decide) hlt))

theorem gfDouble_lt (hc : RsCfg.Valid c) (ha : a < 2 ^ c.m) : gfDouble c a < 2 ^ c.m := by
  have h2a : 2 * a < 2 ^ (c.m + 1) := by rw [Nat.pow_succ]; omega
  unfold gfDouble
  split
  next htop =>
    refine lt_of_testBit_eq_false (Nat.xor_lt_two_pow h2a (primitive_of_valid hc).1.2) ?_
    rw [Nat.testBit_xor, htop, fieldPoly_testBit hc, Bool.xor_self]
  next htop => exact lt_of_testBit_eq_false h2a (by simpa using htop)

theorem one_lt_two_pow_m (hc : RsCfg.Valid c) : 1 < 2 ^ c.m :=
  Nat.one_lt_two_pow (by have := hc.1; omega)

theorem gfDoubles_lt (hc : RsCfg.Valid c) (e : Nat) : gfDoubles c e < 2 ^ c.m := by
  induction e with
  | zero => exact one_lt_two_pow_m hc
  | succ e ih => exact gfDouble_lt hc ih

theorem gfMulLoop_lt (hc : RsCfg.Valid c) (steps : Nat) {p : Nat} (hp : p < 2 ^ c.m)
    (ha : a < 2 ^ c.m) (b : Nat) : gfMulLoop c steps p a b < 2 ^ c.m := by
  induction steps generalizing p a b with
  | zero => exact hp
  | succ steps ih =>
    refine ih ?_ (gfDouble_lt hc ha) _
    split
    · exact Nat.xor_lt_two_pow hp ha
    · exact hp

theorem gfMul_lt (hc : RsCfg.Valid c) (ha : a < 2 ^ c.m) (b : Nat) : gfMul c a b < 2 ^ c.m :=
  gfMulLoop_lt hc c.m (Nat.two_pow_pos c.m) ha b

theorem gfAlpha_lt (hc : RsCfg.Valid c) (e : Nat) : gfAlpha c e < 2 ^ c.m := gfDoubles_lt hc _

theorem gfSquares_lt (hc : RsCfg.Valid c) (steps : Nat) {acc : Nat} (hacc : acc < 2 ^ c.m)
    (sq : Nat) : gfSquares c steps acc sq < 2 ^ c.m := by
  induction steps generalizing acc sq with
  | zero => exact hacc
  | succ steps ih => exact ih (gfMul_lt hc hacc _) _

theorem gfInv_lt (hc : RsCfg.Valid c) (a : Nat) : gfInv c a < 2 ^ c.m :=
  gfSquares_lt hc _ (one_lt_two_pow_m hc) a

/-! ### The powers of `alpha` are the nonzero symbols -/

theorem order_pos (hc : RsCfg.Valid c) : 0 < RsCfg.order c := by
  have := one_lt_two_pow_m hc
  simp only [RsCfg.order]; omega

/-- `gfNoUnit`, started at a power of `alpha`, looks at the powers after it. -/
theorem gfDoubles_ne_one_of_gfNoUnit {steps e j : Nat}
    (h : gfNoUnit c steps (gfDoubles c e) = true) (hlo : e < j) (hhi : j ≤ e + steps) :
    gfDoubles c j ≠ 1 := by
  induction steps generalizing e with
  | zero => omega
  | succ steps ih =>
    simp only [gfNoUnit, Bool.and_eq_true, bne_iff_ne] at h
    obtain ⟨hne, hrest⟩ := h
    rcases Nat.eq_or_lt_of_le hlo with rfl | hlt
    · exact hne
    · exact ih (e := e + 1) hrest hlt (by omega)

/-- `alpha` has order exactly `2^m - 1` (R160). -/
theorem gfDoubles_ne_one (hc : RsCfg.Valid c) {e : Nat} (hpos : 0 < e) (he : e < RsCfg.order c) :
    gfDoubles c e ≠ 1 :=
  gfDoubles_ne_one_of_gfNoUnit (e := 0) (primitive_of_valid hc).2.1 hpos (by omega)

theorem gfDoubles_order (hc : RsCfg.Valid c) : gfDoubles c (RsCfg.order c) = 1 :=
  (primitive_of_valid hc).2.2

/-- Equal powers stay equal when both exponents grow. -/
theorem gfDoubles_add_congr {i j : Nat} (h : gfDoubles c i = gfDoubles c j) (k : Nat) :
    gfDoubles c (i + k) = gfDoubles c (j + k) := by
  induction k with
  | zero => exact h
  | succ k ih => exact congrArg (gfDouble c) ih

theorem gfDoubles_injOn (hc : RsCfg.Valid c) :
    Set.InjOn (gfDoubles c) (Finset.range (RsCfg.order c) : Finset Nat) := by
  have hlt : ∀ i j, i < j → j < RsCfg.order c → gfDoubles c i ≠ gfDoubles c j := by
    intro i j hij hj heq
    have hunit := gfDoubles_add_congr heq (RsCfg.order c - j)
    rw [Nat.add_sub_of_le hj.le, gfDoubles_order hc] at hunit
    exact gfDoubles_ne_one hc (by omega) (by omega) hunit
  intro i hi j hj heq
  simp only [Finset.coe_range, Set.mem_Iio] at hi hj
  rcases Nat.lt_trichotomy i j with h | h | h
  · exact absurd heq (hlt i j h hj)
  · exact h
  · exact absurd heq.symm (hlt j i h hi)

theorem gfDoubles_pos (hc : RsCfg.Valid c) {e : Nat} (he : e ≤ RsCfg.order c) :
    0 < gfDoubles c e := by
  refine Nat.pos_of_ne_zero fun hzero => ?_
  have hstay : ∀ k, gfDoubles c (e + k) = 0 := by
    intro k
    induction k with
    | zero => exact hzero
    | succ k ih => rw [← Nat.add_assoc, gfDoubles, ih]; simp [gfDouble]
  have := hstay (RsCfg.order c - e)
  rw [Nat.add_sub_of_le he, gfDoubles_order hc] at this
  exact one_ne_zero this

/-- There are as many powers as nonzero symbols. -/
theorem exists_gfDoubles_eq (hc : RsCfg.Valid c) (ha : a < 2 ^ c.m) (hne : a ≠ 0) :
    ∃ e, gfDoubles c e = a := by
  have hsub : (Finset.range (RsCfg.order c)).image (gfDoubles c) ⊆ Finset.Ico 1 (2 ^ c.m) := by
    intro x hx
    obtain ⟨e, he, rfl⟩ := Finset.mem_image.mp hx
    exact Finset.mem_Ico.mpr ⟨gfDoubles_pos hc (Finset.mem_range.mp he).le, gfDoubles_lt hc e⟩
  have heq := Finset.eq_of_subset_of_card_le hsub (by
    rw [Finset.card_image_of_injOn (gfDoubles_injOn hc), Finset.card_range, Nat.card_Ico,
      RsCfg.order])
  have hmem : a ∈ Finset.Ico 1 (2 ^ c.m) := Finset.mem_Ico.mpr ⟨by omega, ha⟩
  rw [← heq] at hmem
  obtain ⟨e, -, he⟩ := Finset.mem_image.mp hmem
  exact ⟨e, he⟩

/-! ### The value of a symbol -/

/-- The element that the bits of `a` stand for, bit `i` the coefficient of `alpha^i` (R161). Bit `m`
is read too, for a symbol that has been doubled and not yet reduced. -/
def symVal (c : RsCfg) {K : Type} [Semiring K] (alpha : K) (a : Nat) : K :=
  ∑ i ∈ Finset.range (c.m + 1), if a.testBit i then alpha ^ i else 0

section Value

variable {K : Type} [Field K] {alpha : K}

theorem symVal_zero (c : RsCfg) (alpha : K) : symVal c alpha 0 = 0 := by simp [symVal]

/-- The lowest bit apart, the bits stand for `alpha` times what they stand for one place lower. -/
theorem symVal_eq_half (alpha : K) (ha : a < 2 ^ (c.m + 1)) :
    symVal c alpha a = (if a.testBit 0 then 1 else 0) + alpha * symVal c alpha (a / 2) := by
  have htop : (a / 2).testBit c.m = false := by
    rw [Nat.testBit_div_two]; exact Nat.testBit_lt_two_pow ha
  rw [symVal, Finset.sum_range_succ', symVal, Finset.sum_range_succ, htop, add_comm,
    if_neg Bool.false_ne_true, add_zero, Finset.mul_sum, pow_zero]
  refine congrArg _ (Finset.sum_congr rfl fun i _ => ?_)
  rw [Nat.testBit_add_one, mul_ite, pow_succ', mul_zero]

theorem symVal_one (c : RsCfg) (alpha : K) : symVal c alpha 1 = 1 := by
  rw [symVal_eq_half alpha (Nat.one_lt_two_pow (Nat.succ_ne_zero _))]
  simp [symVal_zero]

variable [CharP K 2]

/-- Addition of symbols is exclusive or (R161). -/
theorem symVal_xor (c : RsCfg) (alpha : K) (a b : Nat) :
    symVal c alpha (a ^^^ b) = symVal c alpha a + symVal c alpha b := by
  simp only [symVal, ← Finset.sum_add_distrib, Nat.testBit_xor]
  refine Finset.sum_congr rfl fun i _ => ?_
  cases a.testBit i <;> cases b.testBit i <;> simp [CharTwo.add_self_eq_zero]

/-- `FIELD_POLY` is zero at `alpha`, so reducing by it changes no value. -/
theorem symVal_gfDouble (hroot : symVal c alpha c.fieldPoly = 0) (ha : a < 2 ^ c.m) :
    symVal c alpha (gfDouble c a) = alpha * symVal c alpha a := by
  have h2a : symVal c alpha (2 * a) = alpha * symVal c alpha a := by
    rw [symVal_eq_half alpha (by rw [Nat.pow_succ]; omega)]; simp
  unfold gfDouble
  split
  · rw [symVal_xor, hroot, add_zero, h2a]
  · exact h2a

theorem symVal_gfMulLoop (hc : RsCfg.Valid c) (hroot : symVal c alpha c.fieldPoly = 0)
    {steps : Nat} (hsteps : steps ≤ c.m) (p : Nat) (ha : a < 2 ^ c.m) (hb : b < 2 ^ steps) :
    symVal c alpha (gfMulLoop c steps p a b) =
      symVal c alpha p + symVal c alpha a * symVal c alpha b := by
  induction steps generalizing p a b with
  | zero =>
    obtain rfl : b = 0 := by simpa using hb
    simp [gfMulLoop, symVal_zero]
  | succ steps ih =>
    have hb' : b < 2 ^ (c.m + 1) := hb.trans_le (Nat.pow_le_pow_right (by decide) (by omega))
    rw [gfMulLoop, ih (by omega) _ (gfDouble_lt hc ha) (by rw [Nat.pow_succ] at hb; omega),
      symVal_gfDouble hroot ha, symVal_eq_half alpha hb']
    split
    · rw [symVal_xor]; ring
    · ring

theorem symVal_gfMul (hc : RsCfg.Valid c) (hroot : symVal c alpha c.fieldPoly = 0)
    (ha : a < 2 ^ c.m) (hb : b < 2 ^ c.m) :
    symVal c alpha (gfMul c a b) = symVal c alpha a * symVal c alpha b := by
  rw [gfMul, symVal_gfMulLoop hc hroot (Nat.le_refl _) 0 ha hb, symVal_zero, zero_add]

theorem symVal_gfDoubles (hc : RsCfg.Valid c) (hroot : symVal c alpha c.fieldPoly = 0) (e : Nat) :
    symVal c alpha (gfDoubles c e) = alpha ^ e := by
  induction e with
  | zero => rw [gfDoubles, symVal_one, pow_zero]
  | succ e ih => rw [gfDoubles, symVal_gfDouble hroot (gfDoubles_lt hc e), ih, pow_succ']

end Value

/-! ### The field -/

/-- `val` reads the symbols of the code as elements of a field, `alpha = 2` as `alpha`. -/
structure SymbolField (c : RsCfg) {K : Type} [Field K] (alpha : K) (val : Nat → K) : Prop where
  val_one : val 1 = 1
  val_xor : ∀ a b, val (a ^^^ b) = val a + val b
  val_mul : ∀ a b, a < 2 ^ c.m → b < 2 ^ c.m → val (gfMul c a b) = val a * val b
  val_doubles : ∀ e, val (gfDoubles c e) = alpha ^ e
  alpha_order : alpha ^ RsCfg.order c = 1
  eq_zero : ∀ a, a < 2 ^ c.m → val a = 0 → a = 0

/-- Read as a polynomial, `FIELD_POLY` has its bit `m` as a coefficient. -/
theorem fieldPoly_coeff (hc : RsCfg.Valid c) (K : Type) [Field K] :
    (symVal c (Polynomial.X : Polynomial K) c.fieldPoly).coeff c.m = 1 := by
  rw [symVal, Polynomial.finsetSum_coeff, Finset.sum_eq_single c.m]
  · rw [if_pos (fieldPoly_testBit hc), Polynomial.coeff_X_pow_self]
  · intro i _ hi
    split
    · rw [Polynomial.coeff_X_pow, if_neg hi.symm]
    · exact Polynomial.coeff_zero _
  · simp

/-- The value of a symbol is its polynomial evaluated at `alpha`. -/
theorem eval_symVal_X {K : Type} [Field K] (alpha : K) (a : Nat) :
    (symVal c (Polynomial.X : Polynomial K) a).eval alpha = symVal c alpha a := by
  simp [symVal, Polynomial.eval_finsetSum, apply_ite (Polynomial.eval alpha)]

/-- In an algebraically closed field `FIELD_POLY` has a root. -/
theorem exists_fieldPoly_root (hc : RsCfg.Valid c) (K : Type) [Field K] [IsAlgClosed K] :
    ∃ alpha : K, symVal c alpha c.fieldPoly = 0 := by
  have hcoeff := fieldPoly_coeff hc K
  have hm : 0 < c.m := Nat.lt_of_lt_of_le (by decide) hc.1
  have hdeg : (symVal c (Polynomial.X : Polynomial K) c.fieldPoly).degree ≠ 0 := fun h => by
    rw [Polynomial.coeff_eq_zero_of_degree_lt (by rw [h]; exact_mod_cast hm)] at hcoeff
    exact zero_ne_one hcoeff
  obtain ⟨alpha, hroot⟩ := IsAlgClosed.exists_root _ hdeg
  exact ⟨alpha, (eval_symVal_X alpha _).symm.trans hroot⟩

/-- The symbols of a valid code are elements of a field (R160, R161). -/
theorem exists_symbolField (hc : RsCfg.Valid c) :
    ∃ alpha : AlgebraicClosure (ZMod 2), SymbolField c alpha (symVal c alpha) := by
  obtain ⟨alpha, hroot⟩ := exists_fieldPoly_root hc (AlgebraicClosure (ZMod 2))
  have : CharP (AlgebraicClosure (ZMod 2)) 2 := inferInstance
  have hdoubles := symVal_gfDoubles hc hroot
  have horder : alpha ^ RsCfg.order c = 1 := by
    rw [← hdoubles, gfDoubles_order hc, symVal_one]
  refine ⟨alpha, symVal_one c alpha, symVal_xor c alpha, fun a b => symVal_gfMul hc hroot,
    hdoubles, horder, fun a ha hzero => ?_⟩
  by_contra hne
  obtain ⟨e, rfl⟩ := exists_gfDoubles_eq hc ha hne
  rw [hdoubles] at hzero
  rw [eq_zero_of_pow_eq_zero hzero, zero_pow (order_pos hc).ne'] at horder
  exact zero_ne_one horder

namespace SymbolField

variable {K : Type} [Field K] {alpha : K} {val : Nat → K}

theorem val_zero (F : SymbolField c alpha val) : val 0 = 0 := by
  have := F.val_xor 0 0
  simpa using this

theorem add_self (F : SymbolField c alpha val) (x : K) : x + x = 0 := by
  have h := F.val_xor 1 1
  rw [Nat.xor_self, F.val_zero, F.val_one] at h
  rw [← mul_one x, ← mul_add, ← h, mul_zero]

/-- In characteristic two a sum is zero when its terms are equal. -/
theorem add_eq_zero_iff (F : SymbolField c alpha val) {x y : K} : x + y = 0 ↔ x = y := by
  rw [← F.add_self y, add_left_inj]

theorem val_eq_zero_iff (F : SymbolField c alpha val) (ha : a < 2 ^ c.m) : val a = 0 ↔ a = 0 :=
  ⟨F.eq_zero a ha, fun h => h ▸ F.val_zero⟩

theorem val_inj (F : SymbolField c alpha val) (ha : a < 2 ^ c.m) (hb : b < 2 ^ c.m)
    (h : val a = val b) : a = b := by
  rw [← Nat.xor_eq_zero_iff]
  exact F.eq_zero _ (Nat.xor_lt_two_pow ha hb) (by rw [F.val_xor, F.add_eq_zero_iff, h])

theorem alpha_ne_zero (F : SymbolField c alpha val) (hc : RsCfg.Valid c) : alpha ≠ 0 := fun h => by
  have horder := F.alpha_order
  rw [h, zero_pow (order_pos hc).ne'] at horder
  exact zero_ne_one horder

/-- Exponents are taken modulo `2^m - 1` (R161). -/
theorem val_alpha (F : SymbolField c alpha val) (e : Nat) : val (gfAlpha c e) = alpha ^ e := by
  rw [gfAlpha, F.val_doubles, ← pow_mod_orderOf, ← pow_mod_orderOf alpha e,
    Nat.mod_mod_of_dvd _ (orderOf_dvd_of_pow_eq_one F.alpha_order)]

theorem val_alphaNeg (F : SymbolField c alpha val) (hc : RsCfg.Valid c) (d : Nat) :
    val (gfAlphaNeg c d) = (alpha ^ d)⁻¹ := by
  have hle := (Nat.mod_lt d (order_pos hc)).le
  refine eq_inv_of_mul_eq_one_left ?_
  rw [gfAlphaNeg, F.val_alpha, ← F.val_alpha d, gfAlpha, F.val_doubles, ← pow_add,
    Nat.sub_add_cancel hle, F.alpha_order]

/-- Different exponents below `2^m - 1` give different powers. -/
theorem alpha_pow_injOn (F : SymbolField c alpha val) (hc : RsCfg.Valid c) :
    Set.InjOn (alpha ^ ·) (Finset.range (RsCfg.order c) : Finset Nat) := fun i hi j hj h => by
  refine gfDoubles_injOn hc hi hj (F.val_inj (gfDoubles_lt hc i) (gfDoubles_lt hc j) ?_)
  simpa only [F.val_doubles] using h

theorem val_pow_order (F : SymbolField c alpha val) (hc : RsCfg.Valid c) (ha : a < 2 ^ c.m)
    (hne : a ≠ 0) : val a ^ RsCfg.order c = 1 := by
  obtain ⟨e, rfl⟩ := exists_gfDoubles_eq hc ha hne
  rw [F.val_doubles, ← pow_mul, mul_comm, pow_mul, F.alpha_order, one_pow]

theorem val_gfSquares (F : SymbolField c alpha val) (hc : RsCfg.Valid c) (steps : Nat)
    {acc sq : Nat} (hacc : acc < 2 ^ c.m) (hsq : sq < 2 ^ c.m) :
    val (gfSquares c steps acc sq) = val acc * val sq ^ (2 ^ (steps + 1) - 2) := by
  induction steps generalizing acc sq with
  | zero => simp [gfSquares]
  | succ steps ih =>
    have hsq' := gfMul_lt hc hsq sq
    have hexp : 2 + 2 * (2 ^ (steps + 1) - 2) = 2 ^ (steps + 1 + 1) - 2 := by
      have := Nat.one_le_two_pow (n := steps)
      rw [Nat.pow_succ, Nat.pow_succ]; omega
    rw [gfSquares, ih (gfMul_lt hc hacc _) hsq', F.val_mul _ _ hacc hsq', F.val_mul _ _ hsq hsq,
      ← pow_two, ← pow_mul, mul_assoc, ← pow_add, hexp]

/-- `gfinv` is the inverse, as `a^(2^m - 2)` (R161). -/
theorem val_inv (F : SymbolField c alpha val) (hc : RsCfg.Valid c) (ha : a < 2 ^ c.m)
    (hne : a ≠ 0) : val (gfInv c a) = (val a)⁻¹ := by
  have hm : c.m - 1 + 1 = c.m := by have := hc.1; omega
  have horder : 2 ^ c.m - 2 + 1 = RsCfg.order c := by
    have := one_lt_two_pow_m hc
    rw [RsCfg.order]; omega
  refine eq_inv_of_mul_eq_one_left ?_
  rw [gfInv, F.val_gfSquares hc _ (one_lt_two_pow_m hc) ha, hm, F.val_one, one_mul, ← pow_succ,
    horder, F.val_pow_order hc ha hne]

end SymbolField

end Sys2Proof.Machine

/-! ## Words as polynomials -/

namespace Sys2Proof.Machine

variable {c : RsCfg} {K : Type} [Field K] {alpha : K} {val : Nat → K}

/-! ### The symbols of a word -/

@[simp] theorem isWord_nil (c : RsCfg) : IsWord c [] := by simp [IsWord]

@[simp] theorem isWord_cons {a : Nat} {w : List Nat} :
    IsWord c (a :: w) ↔ a < 2 ^ c.m ∧ IsWord c w := by simp [IsWord]

@[simp] theorem isWord_append {v w : List Nat} : IsWord c (v ++ w) ↔ IsWord c v ∧ IsWord c w := by
  simp [IsWord, or_imp, forall_and]

@[simp] theorem isWord_replicate_zero (c : RsCfg) (n : Nat) : IsWord c (List.replicate n 0) :=
  fun x hx => by rw [List.eq_of_mem_replicate hx]; exact Nat.two_pow_pos c.m

theorem IsWord.tail {w : List Nat} (hw : IsWord c w) : IsWord c w.tail :=
  fun x hx => hw x (List.mem_of_mem_tail hx)

theorem IsWord.getD_lt {w : List Nat} (hw : IsWord c w) (i : Nat) : w.getD i 0 < 2 ^ c.m := by
  rw [List.getD_eq_getElem?_getD]
  cases h : w[i]? with
  | none => exact Nat.two_pow_pos c.m
  | some a => exact hw a (List.mem_of_getElem? h)

theorem IsWord.headD_lt {w : List Nat} (hw : IsWord c w) : w.headD 0 < 2 ^ c.m := by
  cases w with
  | nil => exact Nat.two_pow_pos c.m
  | cons a w => exact (isWord_cons.mp hw).1

theorem IsWord.xorLists {v w : List Nat} (hv : IsWord c v) (hw : IsWord c w) :
    IsWord c (xorLists v w) := by
  induction v generalizing w with
  | nil => exact hw
  | cons a v ih =>
    cases w with
    | nil => exact hv
    | cons b w =>
      obtain ⟨ha, hv⟩ := isWord_cons.mp hv
      obtain ⟨hb, hw⟩ := isWord_cons.mp hw
      exact isWord_cons.mpr ⟨Nat.xor_lt_two_pow ha hb, ih hv hw⟩

theorem isWord_gfScale (hc : RsCfg.Valid c) {a : Nat} (ha : a < 2 ^ c.m) (w : List Nat) :
    IsWord c (gfScale c a w) := fun x hx => by
  obtain ⟨b, -, rfl⟩ := List.mem_map.mp hx
  exact gfMul_lt hc ha b

theorem isWord_genPrefix (hc : RsCfg.Valid c) (i : Nat) : IsWord c (genPrefix c i) := by
  induction i with
  | zero => simpa [genPrefix] using one_lt_two_pow_m hc
  | succ i ih =>
    refine IsWord.xorLists (isWord_append.mpr ⟨ih, isWord_replicate_zero c 1⟩) ?_
    exact isWord_cons.mpr ⟨Nat.two_pow_pos c.m, isWord_gfScale hc (gfAlpha_lt hc _) _⟩

theorem isWord_parityStep (hc : RsCfg.Valid c) {rem : List Nat} {s : Nat} (hrem : IsWord c rem)
    (hs : s < 2 ^ c.m) (taps : List Nat) : IsWord c (parityStep c taps rem s) :=
  IsWord.xorLists (isWord_append.mpr ⟨hrem.tail, isWord_replicate_zero c 1⟩)
    (isWord_gfScale hc (Nat.xor_lt_two_pow hs hrem.headD_lt) _)

/-- The parity symbols are field elements (R163). -/
theorem isWord_rsParity (hc : RsCfg.Valid c) {M : List Nat} (hM : IsWord c M) :
    IsWord c (rsParity c M) :=
  List.foldlRecOn M _ (isWord_replicate_zero c _) fun _ hrem s hs =>
    isWord_parityStep hc hrem (hM s hs) _

/-! ### Values of a polynomial, highest degree first -/

/-- The value at `x` of the polynomial that a word lists, highest degree first (R162). -/
def highAt (val : Nat → K) (x : K) (w : List Nat) : K :=
  w.foldl (fun acc s => acc * x + val s) 0

theorem highAt_concat (val : Nat → K) (x : K) (w : List Nat) (s : Nat) :
    highAt val x (w ++ [s]) = highAt val x w * x + val s := by
  simp [highAt, List.foldl_append]

theorem highAt_append (val : Nat → K) (x : K) (v w : List Nat) :
    highAt val x (v ++ w) = highAt val x v * x ^ w.length + highAt val x w := by
  induction w using List.reverseRecOn with
  | nil => simp [highAt]
  | append_singleton w s ih =>
    rw [← List.append_assoc, highAt_concat, highAt_concat, ih, List.length_append,
      List.length_singleton, pow_succ]
    ring

theorem highAt_cons (val : Nat → K) (x : K) (s : Nat) (w : List Nat) :
    highAt val x (s :: w) = val s * x ^ w.length + highAt val x w := by
  rw [← List.singleton_append, highAt_append]
  simp [highAt]

/-- The coefficient of symbol `i` of `N` belongs to degree `N - 1 - i` (R162). -/
theorem highAt_eq_sum (val : Nat → K) (x : K) (w : List Nat) :
    highAt val x w = ∑ i ∈ Finset.range w.length, val (w.getD i 0) * x ^ (w.length - 1 - i) := by
  induction w with
  | nil => rfl
  | cons s w ih =>
    rw [highAt_cons, ih, List.length_cons, Finset.sum_range_succ', add_comm, List.getD_cons_zero,
      Nat.add_sub_cancel, Nat.sub_zero]
    refine congrArg (· + _) (Finset.sum_congr rfl fun i _ => ?_)
    rw [List.getD_cons_succ, Nat.sub_sub, Nat.add_comm 1]

namespace SymbolField

theorem highAt_replicate_zero (F : SymbolField c alpha val) (x : K) (n : Nat) :
    highAt val x (List.replicate n 0) = 0 := by
  induction n with
  | zero => rfl
  | succ n ih => rw [List.replicate_succ, highAt_cons, ih, F.val_zero, zero_mul, zero_add]

theorem highAt_xorLists (F : SymbolField c alpha val) (x : K) {v w : List Nat}
    (hlen : v.length = w.length) :
    highAt val x (xorLists v w) = highAt val x v + highAt val x w := by
  induction v generalizing w with
  | nil =>
    obtain rfl := List.length_eq_zero_iff.mp hlen.symm
    simp [xorLists, highAt]
  | cons a v ih =>
    cases w with
    | nil => cases hlen
    | cons b w =>
      have hlen : v.length = w.length := Nat.succ.inj hlen
      rw [xorLists, highAt_cons, highAt_cons, highAt_cons, ih hlen, xorLists_length, ← hlen,
        Nat.max_self, F.val_xor]
      ring

theorem highAt_gfScale (F : SymbolField c alpha val) (x : K) {a : Nat} (ha : a < 2 ^ c.m)
    {w : List Nat} (hw : IsWord c w) :
    highAt val x (gfScale c a w) = val a * highAt val x w := by
  induction w with
  | nil => simp [gfScale, highAt]
  | cons b w ih =>
    obtain ⟨hb, hw⟩ := isWord_cons.mp hw
    rw [show gfScale c a (b :: w) = gfMul c a b :: gfScale c a w from rfl, highAt_cons, highAt_cons,
      ih hw, F.val_mul a b ha hb, gfScale_length]
    ring

/-- `evalHigh` evaluates the polynomial, from any partial value on. -/
theorem val_foldl_evalHigh (F : SymbolField c alpha val) (hc : RsCfg.Valid c) {x acc : Nat}
    {w : List Nat} (hx : x < 2 ^ c.m) (hacc : acc < 2 ^ c.m) (hw : IsWord c w) :
    w.foldl (fun acc s => gfMul c acc x ^^^ s) acc < 2 ^ c.m ∧
      val (w.foldl (fun acc s => gfMul c acc x ^^^ s) acc) =
        w.foldl (fun acc s => acc * val x + val s) (val acc) := by
  induction w generalizing acc with
  | nil => exact ⟨hacc, rfl⟩
  | cons s w ih =>
    obtain ⟨hs, hw⟩ := isWord_cons.mp hw
    have hstep := ih (Nat.xor_lt_two_pow (gfMul_lt hc hacc x) hs) hw
    rwa [F.val_xor, F.val_mul acc x hacc hx] at hstep

theorem val_evalHigh (F : SymbolField c alpha val) (hc : RsCfg.Valid c) {x : Nat} {w : List Nat}
    (hx : x < 2 ^ c.m) (hw : IsWord c w) : val (evalHigh c x w) = highAt val (val x) w := by
  rw [evalHigh, (F.val_foldl_evalHigh hc hx (Nat.two_pow_pos c.m) hw).2, F.val_zero, highAt]

end SymbolField

theorem evalHigh_lt (hc : RsCfg.Valid c) {x : Nat} {w : List Nat} (hx : x < 2 ^ c.m)
    (hw : IsWord c w) : evalHigh c x w < 2 ^ c.m := by
  obtain ⟨_, F⟩ := exists_symbolField hc
  exact (F.val_foldl_evalHigh hc hx (Nat.two_pow_pos c.m) hw).1

/-! ### Codewords -/

/-- The syndromes of a codeword are zero (R162). -/
theorem isCodeword_iff {w : List Nat} :
    isCodeword c w = true ↔ ∀ i < RsCfg.par c, evalHigh c (gfAlpha c (c.fcr + i)) w = 0 := by
  simp [isCodeword, syndromes]

namespace SymbolField

/-- A codeword is zero at each root of the generator polynomial (R162). -/
theorem isCodeword_iff_highAt (F : SymbolField c alpha val) (hc : RsCfg.Valid c) {w : List Nat}
    (hw : IsWord c w) :
    isCodeword c w = true ↔ ∀ i < RsCfg.par c, highAt val (alpha ^ (c.fcr + i)) w = 0 := by
  rw [isCodeword_iff]
  refine forall₂_congr fun i _ => ?_
  have hlt := gfAlpha_lt hc (c.fcr + i)
  rw [← F.val_eq_zero_iff (evalHigh_lt hc hlt hw), F.val_evalHigh hc hlt hw, F.val_alpha]

end SymbolField

/-! ### The generator polynomial and the parity symbols -/

/-- The generator polynomial is monic (R162). -/
theorem genPrefix_eq_cons (c : RsCfg) (i : Nat) : genPrefix c i = 1 :: (genPrefix c i).tail := by
  induction i with
  | zero => rfl
  | succ i ih => rw [genPrefix, ih]; simp [xorLists]

namespace SymbolField

/-- The generator polynomial is zero at `alpha^FCR .. alpha^(FCR+r-1)` (R162). -/
theorem highAt_genPrefix (F : SymbolField c alpha val) (hc : RsCfg.Valid c) {i j : Nat}
    (hij : i < j) : highAt val (alpha ^ (c.fcr + i)) (genPrefix c j) = 0 := by
  induction j with
  | zero => omega
  | succ j ih =>
    have hfactor : highAt val (alpha ^ (c.fcr + i)) (genPrefix c (j + 1)) =
        (alpha ^ (c.fcr + i) + alpha ^ (c.fcr + j)) *
          highAt val (alpha ^ (c.fcr + i)) (genPrefix c j) := by
      rw [genPrefix, F.highAt_xorLists _ (by simp), highAt_concat, highAt_cons,
        F.highAt_gfScale _ (gfAlpha_lt hc _) (isWord_genPrefix hc j), F.val_zero, F.val_alpha]
      ring
    rcases Nat.lt_succ_iff_lt_or_eq.mp hij with hlt | rfl
    · rw [hfactor, ih hlt, mul_zero]
    · rw [hfactor, F.add_self, zero_mul]

/-- At a root of the generator polynomial its taps stand for `x^r`. -/
theorem highAt_taps (F : SymbolField c alpha val) (hc : RsCfg.Valid c) {i : Nat}
    (hi : i < RsCfg.par c) :
    highAt val (alpha ^ (c.fcr + i)) (generator c).tail =
      (alpha ^ (c.fcr + i)) ^ (generator c).tail.length := by
  have hroot := F.highAt_genPrefix hc hi
  rw [genPrefix_eq_cons, highAt_cons, F.val_one, one_mul, F.add_eq_zero_iff] at hroot
  exact hroot.symm

/-- One step of the shift register multiplies by `x` and takes in `s * x^r`, modulo the generator
polynomial (R163). -/
theorem highAt_parityStep (F : SymbolField c alpha val) {x : K}
    {taps rem : List Nat} {s : Nat} (hx : highAt val x taps = x ^ taps.length)
    (htaps : IsWord c taps) (hrem : IsWord c rem) (hs : s < 2 ^ c.m)
    (hlen : rem.length = taps.length) (hpos : 0 < taps.length) :
    highAt val x (parityStep c taps rem s) = highAt val x rem * x + val s * x ^ taps.length := by
  cases rem with
  | nil => simp at hlen; omega
  | cons r0 rem =>
    have hr0 : r0 < 2 ^ c.m := (isWord_cons.mp hrem).1
    rw [parityStep, List.tail_cons, List.headD_cons, F.highAt_xorLists _ (by simpa using hlen),
      highAt_concat, F.highAt_gfScale _ (Nat.xor_lt_two_pow hs hr0) htaps, hx, highAt_cons,
      F.val_zero, F.val_xor, ← hlen, List.length_cons, pow_succ]
    ring

/-- The shift register after a message: the message times `x^r`, modulo the generator polynomial. -/
theorem highAt_foldl_parityStep (F : SymbolField c alpha val) (hc : RsCfg.Valid c) {x : K}
    {taps rem M : List Nat} (hx : highAt val x taps = x ^ taps.length) (htaps : IsWord c taps)
    (hM : IsWord c M) (hrem : IsWord c rem) (hlen : rem.length = taps.length)
    (hpos : 0 < taps.length) :
    highAt val x (M.foldl (parityStep c taps) rem) =
      highAt val x rem * x ^ M.length + highAt val x M * x ^ taps.length := by
  induction M generalizing rem with
  | nil => simp [highAt]
  | cons s M ih =>
    obtain ⟨hs, hM⟩ := isWord_cons.mp hM
    rw [List.foldl_cons, ih hM (isWord_parityStep hc hrem hs taps)
      (parityStep_length c rfl hlen hpos s), F.highAt_parityStep hx htaps hrem hs hlen hpos,
      highAt_cons, List.length_cons, pow_succ]
    ring

/-- `RSParity` is the message times `x^r` at each root of the generator polynomial (R163). -/
theorem highAt_rsParity (F : SymbolField c alpha val) (hc : RsCfg.Valid c) {M : List Nat}
    (hM : IsWord c M) {i : Nat} (hi : i < RsCfg.par c) :
    highAt val (alpha ^ (c.fcr + i)) (rsParity c M) =
      highAt val (alpha ^ (c.fcr + i)) M * (alpha ^ (c.fcr + i)) ^ RsCfg.par c := by
  have hlen : (generator c).tail.length = RsCfg.par c := by simp [generator, genPrefix_length]
  have hword : IsWord c (generator c).tail := (isWord_genPrefix hc _).tail
  rw [rsParity, F.highAt_foldl_parityStep hc (F.highAt_taps hc hi) hword hM
    (isWord_replicate_zero c _) (by simp [hlen]) (by rw [hlen]; exact par_pos hc),
    F.highAt_replicate_zero, zero_mul, zero_add, hlen]

end SymbolField

/-- The message followed by its parity symbols is a codeword (R163). -/
theorem isCodeword_append_rsParity (hc : RsCfg.Valid c) {M : List Nat} (hM : IsWord c M) :
    isCodeword c (M ++ rsParity c M) = true := by
  obtain ⟨alpha, F⟩ := exists_symbolField hc
  have hword : IsWord c (M ++ rsParity c M) := isWord_append.mpr ⟨hM, isWord_rsParity hc hM⟩
  refine (F.isCodeword_iff_highAt hc hword).mpr fun i hi => ?_
  rw [highAt_append, rsParity_length c (par_pos hc), F.highAt_rsParity hc hM hi, F.add_self]

/-- Settles O29: at each root of the generator polynomial the parity symbols cancel the message. -/
theorem parityMakesACodeword : Obligations.ParityMakesACodeword := fun c M hc hM _ _ =>
  ⟨rsParity_length c (par_pos hc) M, isWord_rsParity hc hM, isCodeword_append_rsParity hc hM⟩

/-! ### What the decoder returns -/

/-- Adding error values leaves the other positions as they were. -/
theorem applyErrors_getD_of_notMem {w : List Nat} {es : List (Nat × Nat)} {i : Nat}
    (hi : i ∉ es.map Prod.fst) : (applyErrors w es).getD i 0 = w.getD i 0 := by
  induction es generalizing w with
  | nil => rfl
  | cons e es ih =>
    obtain ⟨idx, v⟩ := e
    simp only [List.map_cons, List.mem_cons, not_or] at hi
    obtain ⟨hne, hrest⟩ := hi
    rw [applyErrors, ih hrest, List.getD_eq_getElem?_getD, List.getElem?_set_ne (Ne.symm hne),
      ← List.getD_eq_getElem?_getD]

/-- Words that agree outside some positions differ in no more positions than those. -/
theorem differences_le_length {v w pos : List Nat}
    (h : ∀ i, i ∉ pos → w.getD i 0 = v.getD i 0) : differences v w ≤ pos.length := by
  rw [differences, List.countP_eq_length_filter]
  refine (List.subperm_of_subset (List.nodup_range.filter _) fun i hi => ?_).length_le
  obtain ⟨-, hne⟩ := List.mem_filter.mp hi
  by_contra hnot
  exact bne_iff_ne.mp hne (h i hnot).symm

/-- What `RSDecode` returns is at most `t` positions away (R165, R166). -/
theorem rsDecode_differences_le {R C : List Nat} (h : rsDecode c R = some C) :
    differences R C ≤ RsCfg.cap c := by
  rcases rsDecode_some h with ⟨rfl, -⟩ | ⟨pos, vals, hpos, rfl, -⟩
  · simp [differences]
  · refine le_trans (differences_le_length fun i hi => ?_) hpos
    refine applyErrors_getD_of_notMem fun hmem => hi ?_
    obtain ⟨e, he, rfl⟩ := List.mem_map.mp hmem
    exact (List.of_mem_zip he).1

/-- Settles O30: the last step of the decoder checks that its answer is a codeword, and only the
positions found, no more than `t`, are changed. -/
theorem decoderStaysWithinTheRadius : Obligations.DecoderStaysWithinTheRadius := by
  refine fun c R =>
    ⟨fun C h => ⟨rsDecode_length h, ?_, rsDecode_differences_le h⟩, fun h => if_pos h⟩
  rcases rsDecode_some h with ⟨rfl, hcw⟩ | ⟨-, -, -, -, hcw⟩
  · exact hcw
  · exact hcw

end Sys2Proof.Machine

/-! ## Linear equations over the symbols

The decoder solves its equations by elimination (41_rs_primitive.md R168 step 4). When the equations
have a solution and the homogeneous equations have none but zero, elimination finds it. -/

namespace Sys2Proof.Machine

variable {c : RsCfg} {K : Type} [Field K] {alpha : K} {val : Nat → K}

/-! ### Rows -/

/-- The sum of the products of a row's symbols with field elements; the longer list is cut off. -/
def dot (val : Nat → K) : List Nat → List K → K
  | a :: row, x :: xs => val a * x + dot val row xs
  | [], _ => 0
  | _ :: _, [] => 0

@[simp] theorem dot_cons (val : Nat → K) (a : Nat) (row : List Nat) (x : K) (xs : List K) :
    dot val (a :: row) (x :: xs) = val a * x + dot val row xs := rfl

@[simp] theorem dot_nil (val : Nat → K) (xs : List K) : dot val [] xs = 0 := rfl

theorem dot_append (val : Nat → K) {row : List Nat} {xs : List K} (hlen : row.length = xs.length)
    (row' : List Nat) (xs' : List K) :
    dot val (row ++ row') (xs ++ xs') = dot val row xs + dot val row' xs' := by
  induction row generalizing xs with
  | nil => obtain rfl := List.length_eq_zero_iff.mp hlen.symm; simp
  | cons a row ih =>
    cases xs with
    | nil => cases hlen
    | cons x xs => simp [ih (Nat.succ.inj hlen), add_assoc]

theorem dot_replicate_zero (val : Nat → K) (row : List Nat) (n : Nat) :
    dot val row (List.replicate n 0) = 0 := by
  induction n generalizing row with
  | zero => cases row <;> rfl
  | succ n ih => cases row <;> simp [List.replicate_succ, ih]

theorem dot_map_map (val : Nat → K) (g : Nat → Nat) (y : Nat → K) (pos : List Nat) :
    dot val (pos.map g) (pos.map y) = (pos.map fun i => val (g i) * y i).sum := by
  induction pos with
  | nil => rfl
  | cons i pos ih => simp [ih]

theorem dot_map_eq_sum (val : Nat → K) (g : Nat → Nat) {pos : List Nat} {xs : List K}
    (hlen : xs.length = pos.length) :
    dot val (pos.map g) xs =
      ∑ j ∈ Finset.range pos.length, val (g (pos.getD j 0)) * xs.getD j 0 := by
  induction pos generalizing xs with
  | nil => rfl
  | cons i pos ih =>
    cases xs with
    | nil => cases hlen
    | cons x xs =>
      rw [List.map_cons, dot_cons, ih (Nat.succ.inj hlen), List.length_cons, Finset.sum_range_succ',
        add_comm]
      simp

/-- A sum of products, as the decoder computes it, stays a symbol. -/
theorem foldl_gfMul_lt (hc : RsCfg.Valid c) {row : List Nat} (hrow : IsWord c row) (vs : List Nat)
    {s : Nat} (hs : s < 2 ^ c.m) :
    ((row.zip vs).map fun p => gfMul c p.1 p.2).foldl (· ^^^ ·) s < 2 ^ c.m :=
  List.foldlRecOn (motive := (· < 2 ^ c.m)) _ _ hs fun acc hacc x hx => by
    obtain ⟨p, hp, rfl⟩ := List.mem_map.mp hx
    exact Nat.xor_lt_two_pow hacc (gfMul_lt hc (hrow _ (List.of_mem_zip hp).1) _)

namespace SymbolField

theorem val_foldl_gfMul (F : SymbolField c alpha val) {row vs : List Nat} (hrow : IsWord c row)
    (hvs : IsWord c vs) (s : Nat) :
    val (((row.zip vs).map fun p => gfMul c p.1 p.2).foldl (· ^^^ ·) s) =
      val s + dot val row (vs.map val) := by
  induction row generalizing vs s with
  | nil => simp
  | cons a row ih =>
    cases vs with
    | nil => simp [dot]
    | cons b vs =>
      obtain ⟨ha, hrow⟩ := isWord_cons.mp hrow
      obtain ⟨hb, hvs⟩ := isWord_cons.mp hvs
      rw [List.zip_cons_cons, List.map_cons, List.foldl_cons, ih hrow hvs, F.val_xor,
        F.val_mul a b ha hb, List.map_cons, dot_cons, add_assoc]

theorem dot_xorLists (F : SymbolField c alpha val) {row row' : List Nat}
    (hlen : row.length = row'.length) (xs : List K) :
    dot val (xorLists row row') xs = dot val row xs + dot val row' xs := by
  induction row generalizing row' xs with
  | nil => obtain rfl := List.length_eq_zero_iff.mp hlen.symm; simp [xorLists]
  | cons a row ih =>
    cases row' with
    | nil => cases hlen
    | cons b row' =>
      cases xs with
      | nil => simp [xorLists, dot]
      | cons x xs =>
        rw [xorLists, dot_cons, dot_cons, dot_cons, ih (Nat.succ.inj hlen), F.val_xor]
        ring

theorem dot_gfScale (F : SymbolField c alpha val) {a : Nat} (ha : a < 2 ^ c.m) {row : List Nat}
    (hrow : IsWord c row) (xs : List K) :
    dot val (gfScale c a row) xs = val a * dot val row xs := by
  induction row generalizing xs with
  | nil => simp [gfScale]
  | cons b row ih =>
    obtain ⟨hb, hrow⟩ := isWord_cons.mp hrow
    cases xs with
    | nil => simp [gfScale, dot]
    | cons x xs =>
      rw [show gfScale c a (b :: row) = gfMul c a b :: gfScale c a row from rfl, dot_cons, dot_cons,
        ih hrow, F.val_mul a b ha hb]
      ring

end SymbolField

/-! ### Elimination -/

/-- Rows of `e` coefficients and a right side. -/
def RowsOk (c : RsCfg) (e : Nat) (rows : List (List Nat)) : Prop :=
  ∀ row ∈ rows, IsWord c row ∧ row.length = e + 1

/-- Every row is orthogonal to `xs`. In characteristic two `ys` solves the equations when
`ys ++ [1]` is orthogonal to the rows, and the homogeneous equations when `ys ++ [0]` is. -/
def Orthogonal (val : Nat → K) (rows : List (List Nat)) (xs : List K) : Prop :=
  ∀ row ∈ rows, dot val row xs = 0

/-- The homogeneous equations have no solution but zero. -/
def Independent (val : Nat → K) (e : Nat) (rows : List (List Nat)) : Prop :=
  ∀ ys : List K, ys.length = e → Orthogonal val rows (ys ++ [0]) → ys = List.replicate e 0

theorem pickPivot_none {rows : List (List Nat)} (h : pickPivot rows = none) :
    ∀ row ∈ rows, row.headD 0 = 0 := by
  induction rows with
  | nil => simp
  | cons r rows ih =>
    rw [pickPivot] at h
    split at h
    · cases h
    next hzero =>
      exact List.forall_mem_cons.mpr ⟨not_not.mp hzero, ih (Option.map_eq_none_iff.mp h)⟩

/-- The pivot and the other rows are the rows. -/
theorem pickPivot_some {rows others : List (List Nat)} {pivot : List Nat}
    (h : pickPivot rows = some (pivot, others)) :
    pivot.headD 0 ≠ 0 ∧ ∀ row, row ∈ rows ↔ row = pivot ∨ row ∈ others := by
  induction rows generalizing others with
  | nil => cases h
  | cons r rows ih =>
    rw [pickPivot] at h
    split at h
    next hne => cases h; exact ⟨hne, fun row => List.mem_cons⟩
    next =>
      obtain ⟨⟨p, rest⟩, hp, heq⟩ := Option.map_eq_some_iff.mp h
      cases heq
      obtain ⟨hne, hmem⟩ := ih hp
      refine ⟨hne, fun row => ?_⟩
      rw [List.mem_cons, hmem, List.mem_cons, or_left_comm]

/-- The pivot row without its leading coefficient, normalised. -/
def pivotTail (c : RsCfg) (pivot : List Nat) : List Nat :=
  gfScale c (gfInv c (pivot.headD 0)) pivot.tail

theorem solveLinear_succ_some {e : Nat} {rows others : List (List Nat)} {pivot : List Nat}
    (h : pickPivot rows = some (pivot, others)) :
    solveLinear c (e + 1) rows =
      (solveLinear c e (others.map (clearLead c (pivotTail c pivot)))).map fun vals =>
        leadValue c (pivotTail c pivot) vals :: vals := by
  rw [solveLinear, h]; rfl

theorem isWord_pivotTail (hc : RsCfg.Valid c) (pivot : List Nat) : IsWord c (pivotTail c pivot) :=
  isWord_gfScale hc (gfInv_lt hc _) _

theorem pivotTail_length (c : RsCfg) (pivot : List Nat) :
    (pivotTail c pivot).length = pivot.length - 1 := by simp [pivotTail]

theorem rowsOk_clearLead (hc : RsCfg.Valid c) {e : Nat} {rows : List (List Nat)} {tail : List Nat}
    (hrows : RowsOk c (e + 1) rows) (htail : tail.length = e + 1) :
    RowsOk c e (rows.map (clearLead c tail)) := fun row' hrow' => by
  obtain ⟨row, hrow, rfl⟩ := List.mem_map.mp hrow'
  obtain ⟨hword, hlen⟩ := hrows row hrow
  refine ⟨hword.tail.xorLists (isWord_gfScale hc hword.headD_lt _), ?_⟩
  simp [clearLead, hlen, htail]

namespace SymbolField

/-- A row with its leading coefficient cleared says of the later unknowns what the row says when the
pivot row gives the leading unknown. -/
theorem dot_clearLead (F : SymbolField c alpha val) {row tail : List Nat} (hrow : IsWord c row)
    (htail : IsWord c tail) (hlen : row.length = tail.length + 1) (xs : List K) :
    dot val (clearLead c tail row) xs = dot val row (dot val tail xs :: xs) := by
  cases row with
  | nil => cases hlen
  | cons a row =>
    rw [clearLead, List.headD_cons, List.tail_cons,
      F.dot_xorLists (by simpa using Nat.succ.inj hlen),
      F.dot_gfScale (isWord_cons.mp hrow).1 htail, dot_cons, add_comm]

/-- The pivot row gives the leading unknown. -/
theorem dot_pivot_eq_zero_iff (F : SymbolField c alpha val) (hc : RsCfg.Valid c) {pivot : List Nat}
    (hpivot : IsWord c pivot) (hne : pivot.headD 0 ≠ 0) (x : K) (xs : List K) :
    dot val pivot (x :: xs) = 0 ↔ x = dot val (pivotTail c pivot) xs := by
  cases pivot with
  | nil => simp at hne
  | cons a row =>
    obtain ⟨ha, hrow⟩ := isWord_cons.mp hpivot
    have hval : val a ≠ 0 := fun h => hne (F.eq_zero a ha h)
    rw [pivotTail, List.headD_cons, List.tail_cons, F.dot_gfScale (gfInv_lt hc a) hrow,
      F.val_inv hc ha hne, dot_cons, F.add_eq_zero_iff, eq_inv_mul_iff_mul_eq₀ hval]

/-- One round of elimination changes no solution. -/
theorem orthogonal_cons_iff (F : SymbolField c alpha val) (hc : RsCfg.Valid c) {e : Nat}
    {rows others : List (List Nat)} {pivot : List Nat} (hrows : RowsOk c (e + 1) rows)
    (h : pickPivot rows = some (pivot, others)) (x : K) (xs : List K) :
    Orthogonal val rows (x :: xs) ↔ x = dot val (pivotTail c pivot) xs ∧
      Orthogonal val (others.map (clearLead c (pivotTail c pivot))) xs := by
  obtain ⟨hne, hmem⟩ := pickPivot_some h
  obtain ⟨hpivot, hlen⟩ := hrows pivot ((hmem pivot).mpr (.inl rfl))
  have hclear : ∀ row ∈ others, dot val (clearLead c (pivotTail c pivot) row) xs =
      dot val row (dot val (pivotTail c pivot) xs :: xs) := fun row hrow => by
    obtain ⟨hword, hlen'⟩ := hrows row ((hmem row).mpr (.inr hrow))
    exact F.dot_clearLead hword (isWord_pivotTail hc pivot)
      (by rw [pivotTail_length]; omega) xs
  have hsplit : Orthogonal val rows (x :: xs) ↔ dot val pivot (x :: xs) = 0 ∧
      ∀ row ∈ others, dot val row (x :: xs) = 0 := by
    simp only [Orthogonal, hmem, forall_eq_or_imp]
  rw [hsplit, F.dot_pivot_eq_zero_iff hc hpivot hne, Orthogonal, List.forall_mem_map]
  refine and_congr_right fun hx => forall₂_congr fun row hrow => ?_
  rw [hclear row hrow, hx]

/-- The leading unknown, from a row that ends in its right side. -/
theorem val_leadValue (F : SymbolField c alpha val) {tail vals : List Nat} (htail : IsWord c tail)
    (hvals : IsWord c vals) (hlen : tail.length = vals.length + 1) :
    val (leadValue c tail vals) = dot val tail (vals.map val ++ [1]) := by
  obtain ⟨row, s, rfl⟩ : ∃ row s, tail = row ++ [s] :=
    ⟨_, _, (List.dropLast_append_getLast (List.ne_nil_of_length_eq_add_one hlen)).symm⟩
  have hrow : row.length = vals.length := by simpa using hlen
  have hzip : (row ++ [s]).zip vals = row.zip vals := by
    simpa using List.zip_append (r₁ := [s]) (r₂ := ([] : List Nat)) hrow
  rw [leadValue, hzip, List.getLastD_concat, F.val_foldl_gfMul (isWord_append.mp htail).1 hvals,
    dot_append val (by simpa using hrow), dot_cons, dot_nil, mul_one, add_zero, add_comm]

end SymbolField

theorem leadValue_lt (hc : RsCfg.Valid c) {tail : List Nat} (htail : IsWord c tail)
    (vals : List Nat) :
    leadValue c tail vals < 2 ^ c.m :=
  foldl_gfMul_lt hc htail vals (by
    rw [List.getLastD_eq_getLast?]
    cases h : tail.getLast? with
    | none => exact Nat.two_pow_pos c.m
    | some s => exact htail s (List.mem_of_getLast? h))

/-- Independent rows with an unknown left have a pivot. -/
theorem SymbolField.pickPivot_ne_none (F : SymbolField c alpha val) {e : Nat}
    {rows : List (List Nat)} (hind : Independent val (e + 1) rows) :
    pickPivot rows ≠ none := fun h => by
  have hunit : Orthogonal val rows ((1 :: List.replicate e 0) ++ [0]) := fun row hrow => by
    have hlead := pickPivot_none h row hrow
    cases row with
    | nil => rfl
    | cons a row =>
      obtain rfl : a = 0 := hlead
      rw [List.cons_append, ← List.replicate_succ', dot_cons, dot_replicate_zero, F.val_zero,
        zero_mul, add_zero]
  have hcons := hind _ (by simp) hunit
  exact one_ne_zero (List.cons.inj hcons).1

/-- One round of elimination keeps the rows independent. -/
theorem SymbolField.independent_clearLead (F : SymbolField c alpha val) (hc : RsCfg.Valid c)
    {e : Nat} {rows others : List (List Nat)} {pivot : List Nat} (hrows : RowsOk c (e + 1) rows)
    (h : pickPivot rows = some (pivot, others)) (hind : Independent val (e + 1) rows) :
    Independent val e (others.map (clearLead c (pivotTail c pivot))) := fun ys hlen hys => by
  have hcons := hind (dot val (pivotTail c pivot) (ys ++ [0]) :: ys) (by simp [hlen])
    ((F.orthogonal_cons_iff hc hrows h _ _).mpr ⟨rfl, hys⟩)
  exact (List.cons.inj hcons).2

/-- Elimination finds the only solution (R168 step 4). -/
theorem SymbolField.exists_solveLinear_eq (F : SymbolField c alpha val) (hc : RsCfg.Valid c)
    {e : Nat} {rows : List (List Nat)} (hrows : RowsOk c e rows) (hind : Independent val e rows)
    {ys : List K} (hlen : ys.length = e) (hys : Orthogonal val rows (ys ++ [1])) :
    ∃ vals, solveLinear c e rows = some vals ∧ IsWord c vals ∧ vals.map val = ys := by
  induction e generalizing rows ys with
  | zero =>
    obtain rfl := List.length_eq_zero_iff.mp hlen
    exact ⟨[], rfl, isWord_nil c, rfl⟩
  | succ e ih =>
    obtain ⟨y, ys, rfl⟩ := List.exists_cons_of_length_eq_add_one hlen
    have hlen : ys.length = e := Nat.succ.inj hlen
    cases hp : pickPivot rows with
    | none => exact absurd hp (F.pickPivot_ne_none hind)
    | some p =>
      obtain ⟨pivot, others⟩ := p
      have hmem := (pickPivot_some hp).2
      have htail : (pivotTail c pivot).length = e + 1 := by
        rw [pivotTail_length, (hrows pivot ((hmem pivot).mpr (.inl rfl))).2]; rfl
      have hothers : RowsOk c (e + 1) others := fun row hrow =>
        hrows row ((hmem row).mpr (.inr hrow))
      obtain ⟨hy, hys⟩ := (F.orthogonal_cons_iff hc hrows hp _ _).mp hys
      obtain ⟨vals, hvals, hword, rfl⟩ := ih (rowsOk_clearLead hc hothers htail)
        (F.independent_clearLead hc hrows hp hind) hlen hys
      have hpt := isWord_pivotTail hc pivot
      refine ⟨leadValue c (pivotTail c pivot) vals :: vals, ?_,
        isWord_cons.mpr ⟨leadValue_lt hc hpt vals, hword⟩, ?_⟩
      · rw [solveLinear_succ_some hp, hvals, Option.map_some]
      · rw [List.map_cons, F.val_leadValue hpt hword (by simpa [htail] using hlen.symm), hy]
        rfl

end Sys2Proof.Machine

/-! ## The Berlekamp-Massey recurrence

The syndromes of a word with errors at some positions are sums of powers, one for each position
(41_rs_primitive.md R168). A recurrence that generates as many syndromes as its length and the
number of errors together is zero at the inverse of every error's locator: this bounds the length
from above while the recurrence runs, and finds the errors when it ends. -/

namespace Sys2Proof.Machine

variable {c : RsCfg} {K : Type} [Field K] {alpha : K} {val : Nat → K}

/-! ### Values of a polynomial, lowest degree first -/

/-- The value at `x` of the polynomial that a list gives, lowest degree first. -/
def lowAt {A : Type} [CommRing A] (val : Nat → A) (x : A) (p : List Nat) : A :=
  p.foldr (fun s acc => val s + acc * x) 0

@[simp] theorem lowAt_nil {A : Type} [CommRing A] (val : Nat → A) (x : A) :
    lowAt val x [] = 0 := rfl

@[simp] theorem lowAt_cons {A : Type} [CommRing A] (val : Nat → A) (x : A) (s : Nat)
    (p : List Nat) : lowAt val x (s :: p) = val s + lowAt val x p * x := rfl

namespace SymbolField

theorem lowAt_xorLists (F : SymbolField c alpha val) (x : K) (p q : List Nat) :
    lowAt val x (xorLists p q) = lowAt val x p + lowAt val x q := by
  induction p generalizing q with
  | nil => simp [xorLists]
  | cons a p ih =>
    cases q with
    | nil => simp [xorLists]
    | cons b q =>
      rw [xorLists, lowAt_cons, lowAt_cons, lowAt_cons, ih, F.val_xor]
      ring

theorem lowAt_gfScale (F : SymbolField c alpha val) (x : K) {a : Nat} (ha : a < 2 ^ c.m)
    {p : List Nat} (hp : IsWord c p) : lowAt val x (gfScale c a p) = val a * lowAt val x p := by
  induction p with
  | nil => simp [gfScale]
  | cons b p ih =>
    obtain ⟨hb, hp⟩ := isWord_cons.mp hp
    rw [show gfScale c a (b :: p) = gfMul c a b :: gfScale c a p from rfl, lowAt_cons, lowAt_cons,
      ih hp, F.val_mul a b ha hb]
    ring

theorem lowAt_replicate_append (F : SymbolField c alpha val) (x : K) (n : Nat) (p : List Nat) :
    lowAt val x (List.replicate n 0 ++ p) = x ^ n * lowAt val x p := by
  induction n with
  | zero => simp
  | succ n ih =>
    rw [List.replicate_succ, List.cons_append, lowAt_cons, ih, F.val_zero, pow_succ]
    ring

/-- The value at zero is the constant coefficient. -/
theorem lowAt_zero (F : SymbolField c alpha val) (p : List Nat) :
    lowAt val 0 p = val (p.headD 0) := by
  cases p with
  | nil => exact F.val_zero.symm
  | cons s p => rw [lowAt_cons, mul_zero, add_zero, List.headD_cons]

/-- `evalLow` evaluates the polynomial. -/
theorem val_evalLow (F : SymbolField c alpha val) (hc : RsCfg.Valid c) {x : Nat} (hx : x < 2 ^ c.m)
    {p : List Nat} (hp : IsWord c p) :
    evalLow c x p < 2 ^ c.m ∧ val (evalLow c x p) = lowAt val (val x) p := by
  induction p with
  | nil => exact ⟨Nat.two_pow_pos c.m, F.val_zero⟩
  | cons s p ih =>
    obtain ⟨hs, hp⟩ := isWord_cons.mp hp
    obtain ⟨hlt, heq⟩ := ih hp
    have hcons : evalLow c x (s :: p) = s ^^^ gfMul c (evalLow c x p) x := rfl
    rw [hcons, F.val_xor, F.val_mul _ x hlt hx, heq, lowAt_cons]
    exact ⟨Nat.xor_lt_two_pow hs (gfMul_lt hc hlt x), rfl⟩

end SymbolField

/-- The polynomial itself, whose value at `x` is `lowAt val x p`. -/
noncomputable def lowPoly (val : Nat → K) (p : List Nat) : Polynomial K :=
  lowAt (fun s => Polynomial.C (val s)) Polynomial.X p

theorem eval_lowPoly (val : Nat → K) (x : K) (p : List Nat) :
    (lowPoly val p).eval x = lowAt val x p := by
  induction p with
  | nil => simp [lowPoly]
  | cons s p ih => rw [lowAt_cons, ← ih]; simp [lowPoly]

theorem degree_lowPoly_lt (val : Nat → K) (p : List Nat) : (lowPoly val p).degree < p.length := by
  rw [Polynomial.degree_lt_iff_coeff_zero]
  induction p with
  | nil => simp [lowPoly]
  | cons s p ih =>
    have hcons : lowPoly val (s :: p) = Polynomial.C (val s) + lowPoly val p * Polynomial.X := rfl
    intro i hi
    obtain ⟨i, rfl⟩ := Nat.exists_eq_add_of_lt (Nat.lt_of_lt_of_le (Nat.succ_pos p.length) hi)
    rw [Nat.zero_add] at hi ⊢
    rw [hcons, Polynomial.coeff_add, Polynomial.coeff_C_succ, Polynomial.coeff_mul_X,
      ih i (Nat.le_of_succ_le_succ hi), add_zero]

/-- A polynomial that is not zero at zero has no more roots than its degree. -/
theorem card_roots_lowAt_le {p : List Nat} {L : Nat} (hlen : p.length ≤ L + 1)
    (hzero : lowAt val 0 p ≠ 0) {E : Finset Nat} {x : Nat → K} (hx : Set.InjOn x E)
    (h : ∀ i ∈ E, lowAt val (x i) p = 0) : E.card ≤ L := by
  by_contra hcard
  have hdeg : (lowPoly val p).degree < E.card :=
    (degree_lowPoly_lt val p).trans_le (by exact_mod_cast (by omega : p.length ≤ E.card))
  have hpoly := Polynomial.eq_zero_of_degree_lt_of_eval_index_eq_zero E hx hdeg
    fun i hi => (eval_lowPoly val (x i) p).trans (h i hi)
  exact hzero (by rw [← eval_lowPoly, hpoly, Polynomial.eval_zero])

/-! ### Sums of powers -/

/-- As many sums of powers as there are different bases are zero only when all weights are zero. -/
theorem eq_zero_of_sum_mul_pow_eq_zero {E : Finset Nat} {X v : Nat → K} (hX : Set.InjOn X E)
    (h : ∀ i < E.card, ∑ p ∈ E, v p * X p ^ i = 0) : ∀ p ∈ E, v p = 0 := by
  let e : Fin E.card ≃ E := E.equivFin.symm
  have hinj : Function.Injective fun j => X (e j) := fun i j hij =>
    e.injective (Subtype.ext (hX (e i).2 (e j).2 hij))
  have hzero := Matrix.eq_zero_of_forall_pow_sum_mul_pow_eq_zero (v := fun j => v (e j)) hinj
    fun i => by
      rw [← h i i.2, ← Finset.sum_coe_sort E]
      exact e.sum_comp fun p : E => v p * X p ^ (i : Nat)
  intro p hp
  simpa using congrFun hzero (e.symm ⟨p, hp⟩)

/-- Errors of a received word: their positions, and for each its locator and its weight in the
syndromes (R168). -/
structure ErrorPattern (K : Type) [Field K] where
  pos : Finset Nat
  loc : Nat → K
  weight : Nat → K
  loc_ne_zero : ∀ p ∈ pos, loc p ≠ 0
  loc_injOn : Set.InjOn loc pos
  weight_ne_zero : ∀ p ∈ pos, weight p ≠ 0

namespace ErrorPattern

variable {P : ErrorPattern K}

/-- The `k`-th syndrome of the errors. -/
def syn (P : ErrorPattern K) (k : Nat) : K := ∑ p ∈ P.pos, P.weight p * P.loc p ^ k

/-- The `k`-th coefficient of the product of a polynomial with the syndromes: the discrepancy of the
recurrence `lam` at syndrome `k`. -/
def conv (P : ErrorPattern K) (val : Nat → K) (lam : List Nat) (k : Nat) : K :=
  ∑ p ∈ P.pos, P.weight p * P.loc p ^ k * lowAt val (P.loc p)⁻¹ lam

theorem conv_singleton (P : ErrorPattern K) (val : Nat → K) (a k : Nat) :
    P.conv val [a] k = val a * P.syn k := by
  simp only [conv, syn, Finset.mul_sum]
  refine Finset.sum_congr rfl fun p _ => ?_
  rw [lowAt_cons, lowAt_nil]
  ring

theorem conv_cons_succ (P : ErrorPattern K) (val : Nat → K) (a : Nat) (lam : List Nat) (k : Nat) :
    P.conv val (a :: lam) (k + 1) = val a * P.syn (k + 1) + P.conv val lam k := by
  simp only [conv, syn, Finset.mul_sum, ← Finset.sum_add_distrib]
  refine Finset.sum_congr rfl fun p hp => ?_
  have hne := P.loc_ne_zero p hp
  rw [lowAt_cons, pow_succ]
  field_simp

/-- Symbols that stand for the first syndromes, latest first. -/
def History (P : ErrorPattern K) (c : RsCfg) (val : Nat → K) : List Nat → Prop
  | [] => True
  | s :: before => (s < 2 ^ c.m ∧ val s = P.syn before.length) ∧ P.History c val before

theorem History.isWord {S : List Nat} (h : P.History c val S) : IsWord c S := by
  induction S with
  | nil => exact isWord_nil c
  | cons s S ih => exact isWord_cons.mpr ⟨h.1.1, ih h.2⟩

theorem History.right {S before : List Nat} (h : P.History c val (S ++ before)) :
    P.History c val before := by
  induction S with
  | nil => exact h
  | cons s S ih => exact ih h.2

/-- The discrepancy at the latest syndrome is a sum of products with the syndromes so far. -/
theorem History.conv_eq_dot {lam before : List Nat} {s : Nat} (h : P.History c val (s :: before))
    (hlen : lam.length ≤ before.length + 1) :
    P.conv val lam before.length = dot val lam ((s :: before).map val) := by
  induction lam generalizing s before with
  | nil => simp [conv]
  | cons a lam ih =>
    obtain ⟨⟨-, hs⟩, hbefore⟩ := h
    cases before with
    | nil =>
      obtain rfl : lam = [] := List.length_eq_zero_iff.mp (by simpa using hlen)
      simpa [hs] using P.conv_singleton val a 0
    | cons b before =>
      rw [List.length_cons, conv_cons_succ, ih hbefore (by simpa using hlen),
        List.map_cons (a := s), dot_cons, hs, List.length_cons]

/-- What the decoder computes as discrepancy (R168 step 2). -/
theorem val_bmDiscrepancy (F : SymbolField c alpha val) {lam before : List Nat} {s : Nat}
    (hlam : IsWord c lam) (hhead : lam.headD 0 = 1) (h : P.History c val (s :: before))
    (hlen : lam.length ≤ before.length + 1) :
    val (bmDiscrepancy c lam before s) = P.conv val lam before.length := by
  rw [h.conv_eq_dot hlen, bmDiscrepancy, F.val_foldl_gfMul hlam.tail (isWord_cons.mp h.isWord).2]
  cases lam with
  | nil => cases hhead
  | cons a lam =>
    obtain rfl : a = 1 := hhead
    rw [List.map_cons, dot_cons, F.val_one, one_mul, List.tail_cons]

/-- The new recurrence's discrepancies: its own and the shifted ones of the other recurrence. -/
theorem conv_update (F : SymbolField c alpha val) {a shift k : Nat} {old : List Nat}
    (ha : a < 2 ^ c.m) (hold : IsWord c old) (hk : shift ≤ k) (lam : List Nat) :
    P.conv val (xorLists lam (List.replicate shift 0 ++ gfScale c a old)) k =
      P.conv val lam k + val a * P.conv val old (k - shift) := by
  simp only [conv, Finset.mul_sum, ← Finset.sum_add_distrib]
  refine Finset.sum_congr rfl fun p hp => ?_
  have hpow : P.loc p ^ k * (P.loc p)⁻¹ ^ shift = P.loc p ^ (k - shift) := by
    rw [inv_pow, pow_sub₀ _ (P.loc_ne_zero p hp) hk]
  rw [F.lowAt_xorLists, F.lowAt_replicate_append, F.lowAt_gfScale _ ha hold, ← hpow]
  ring

/-! ### Recurrences -/

/-- `lam` is a recurrence of length `L` that generates the first `n` syndromes. -/
structure Generates (P : ErrorPattern K) (c : RsCfg) (val : Nat → K) (lam : List Nat) (L n : Nat) :
    Prop where
  isWord : IsWord c lam
  length_le : lam.length ≤ L + 1
  conv_eq_zero : ∀ k, L ≤ k → k < n → P.conv val lam k = 0

/-- A recurrence that generates enough syndromes is zero at the inverse of every locator. -/
theorem Generates.locates {lam : List Nat} {L n : Nat} (h : P.Generates c val lam L n)
    (hn : L + P.pos.card ≤ n) : ∀ p ∈ P.pos, lowAt val (P.loc p)⁻¹ lam = 0 := fun p hp => by
  have hzero := eq_zero_of_sum_mul_pow_eq_zero P.loc_injOn
    (v := fun p => P.weight p * P.loc p ^ L * lowAt val (P.loc p)⁻¹ lam)
    (fun i hi => by
      rw [← h.conv_eq_zero (L + i) (Nat.le_add_right L i) (by omega), conv]
      exact Finset.sum_congr rfl fun q _ => by rw [pow_add]; ring) p hp
  exact (mul_eq_zero.mp hzero).resolve_left
    (mul_ne_zero (P.weight_ne_zero p hp) (pow_ne_zero L (P.loc_ne_zero p hp)))

/-- A recurrence that fails cannot have generated that many syndromes (Massey's bound). -/
theorem Generates.lt_of_conv_ne_zero {lam : List Nat} {L n : Nat} (h : P.Generates c val lam L n)
    (hne : P.conv val lam n ≠ 0) : n < L + P.pos.card := by
  by_contra hle
  exact hne (Finset.sum_eq_zero fun p hp => by rw [h.locates (not_lt.mp hle) p hp, mul_zero])

/-! ### The invariant of the recurrence -/

/-- After `n` syndromes: the present recurrence, the one before the last length change, and the
lengths of the two together. -/
structure BmInv (P : ErrorPattern K) (c : RsCfg) (val : Nat → K) (n : Nat) (b : BmState) :
    Prop where
  generates : P.Generates c val b.lam b.len n
  head : b.lam.headD 0 = 1
  len_le : b.len ≤ n
  len_le_card : b.len ≤ P.pos.card
  old_generates : ∃ q, P.Generates c val b.old q (n - b.shift) ∧ q + b.len + b.shift = n + 1
  old_fails : b.shift ≤ n → P.conv val b.old (n - b.shift) = val b.disc
  disc_lt : b.disc < 2 ^ c.m
  disc_ne_zero : b.disc ≠ 0
  shift_pos : 0 < b.shift

/-- The recurrence before the first syndrome. -/
theorem bmInv_init (P : ErrorPattern K) (hc : RsCfg.Valid c) :
    P.BmInv c val 0 { lam := [1], old := [1], len := 0, shift := 1, disc := 1 } := by
  have hunit : P.Generates c val [1] 0 0 :=
    ⟨by simpa using one_lt_two_pow_m hc, by simp, by omega⟩
  exact
    { generates := hunit, head := rfl, len_le := Nat.le_refl 0, len_le_card := Nat.zero_le _
      old_generates := ⟨0, hunit, rfl⟩, old_fails := by simp, disc_lt := one_lt_two_pow_m hc
      disc_ne_zero := one_ne_zero, shift_pos := one_pos }

end ErrorPattern

/-- The recurrence with the multiple of the older one added that corrects the discrepancy `d`. -/
def bmUpdate (c : RsCfg) (b : BmState) (d : Nat) : List Nat :=
  xorLists b.lam (List.replicate b.shift 0 ++ gfScale c (gfMul c d (gfInv c b.disc)) b.old)

section Step

variable {b : BmState} {before : List Nat} {s : Nat}

theorem bmStep_of_zero (hd : bmDiscrepancy c b.lam before s = 0) :
    bmStep c b before s = { b with shift := b.shift + 1 } := if_pos hd

theorem bmStep_of_grow (hd : bmDiscrepancy c b.lam before s ≠ 0)
    (hlen : 2 * b.len ≤ before.length) :
    bmStep c b before s =
      { lam := bmUpdate c b (bmDiscrepancy c b.lam before s), old := b.lam,
        len := before.length + 1 - b.len, shift := 1, disc := bmDiscrepancy c b.lam before s } :=
  (if_neg hd).trans (if_pos hlen)

theorem bmStep_of_keep (hd : bmDiscrepancy c b.lam before s ≠ 0)
    (hlen : ¬2 * b.len ≤ before.length) :
    bmStep c b before s =
      { b with lam := bmUpdate c b (bmDiscrepancy c b.lam before s), shift := b.shift + 1 } :=
  (if_neg hd).trans (if_neg hlen)

end Step

theorem bmUpdate_headD {b : BmState} (hhead : b.lam.headD 0 = 1) (hshift : 0 < b.shift) (d : Nat) :
    (bmUpdate c b d).headD 0 = 1 := by
  obtain ⟨n, hn⟩ := Nat.exists_eq_succ_of_ne_zero hshift.ne'
  rw [bmUpdate, hn, List.replicate_succ, List.cons_append]
  cases hlam : b.lam with
  | nil => rw [hlam] at hhead; cases hhead
  | cons a lam => rw [hlam] at hhead; simpa [xorLists] using hhead

namespace ErrorPattern

variable {P : ErrorPattern K} {b : BmState} {before : List Nat} {s n d : Nat}

/-- The corrected recurrence generates one syndrome more, for every length that both recurrences
allow. -/
theorem BmInv.generates_bmUpdate (h : P.BmInv c val n b) (F : SymbolField c alpha val)
    (hc : RsCfg.Valid c) (hlt : d < 2 ^ c.m) (hd : val d = P.conv val b.lam n) {L : Nat}
    (hL : b.len ≤ L) (hL' : n + 1 ≤ L + b.len) :
    P.Generates c val (bmUpdate c b d) L (n + 1) := by
  obtain ⟨q, hold, hq⟩ := h.old_generates
  have hscale := gfMul_lt hc hlt (gfInv c b.disc)
  have hdisc : val b.disc ≠ 0 := fun hz => h.disc_ne_zero (F.eq_zero _ h.disc_lt hz)
  refine ⟨h.generates.isWord.xorLists (isWord_append.mpr
    ⟨isWord_replicate_zero c _, isWord_gfScale hc hscale _⟩), ?_, fun k hk hkn => ?_⟩
  · have hlam := h.generates.length_le
    have hlen := hold.length_le
    simp only [bmUpdate, xorLists_length, List.length_append, List.length_replicate, gfScale_length]
    omega
  · rw [bmUpdate, conv_update F hscale hold.isWord (by omega)]
    rcases Nat.lt_succ_iff_lt_or_eq.mp hkn with hlt' | rfl
    · rw [h.generates.conv_eq_zero k (by omega) hlt', hold.conv_eq_zero _ (by omega) (by omega),
        mul_zero, add_zero]
    · rw [h.old_fails (by omega), F.val_mul d _ hlt (gfInv_lt hc _), F.val_inv hc h.disc_lt
        h.disc_ne_zero, ← hd, inv_mul_cancel_right₀ hdisc, F.add_self]

/-- A recurrence of the same length that generates one syndrome more. -/
theorem BmInv.replace (h : P.BmInv c val n b) {lam : List Nat}
    (hlam : P.Generates c val lam b.len (n + 1)) (hhead : lam.headD 0 = 1) :
    P.BmInv c val (n + 1) { b with lam := lam, shift := b.shift + 1 } := by
  obtain ⟨q, hold, hq⟩ := h.old_generates
  have hsub : n + 1 - (b.shift + 1) = n - b.shift := by omega
  exact
    { h with
      generates := hlam
      head := hhead
      len_le := Nat.le_succ_of_le h.len_le
      old_generates := ⟨q, hsub ▸ hold, by rw [← hq]; ac_rfl⟩
      old_fails := fun hs => hsub ▸ h.old_fails (Nat.le_of_succ_le_succ hs)
      shift_pos := Nat.succ_pos _ }

/-- The corrected recurrence, when it has to be longer. -/
theorem BmInv.grow (h : P.BmInv c val n b) (F : SymbolField c alpha val) (hc : RsCfg.Valid c)
    (hlt : d < 2 ^ c.m) (hne : d ≠ 0) (hd : val d = P.conv val b.lam n) (hlen : 2 * b.len ≤ n) :
    P.BmInv c val (n + 1)
      { lam := bmUpdate c b d, old := b.lam, len := n + 1 - b.len, shift := 1, disc := d } := by
  have hfail : P.conv val b.lam n ≠ 0 := fun hz => hne (F.eq_zero d hlt (hd.trans hz))
  have hbound := h.generates.lt_of_conv_ne_zero hfail
  have hgen : P.Generates c val (bmUpdate c b d) (n + 1 - b.len) (n + 1) :=
    h.generates_bmUpdate F hc hlt hd (by omega) (by omega)
  exact
    { generates := hgen
      head := bmUpdate_headD h.head h.shift_pos d
      len_le := Nat.sub_le _ _
      len_le_card := by dsimp only; omega
      old_generates := ⟨b.len, h.generates, by dsimp only; omega⟩
      old_fails := fun _ => hd.symm
      disc_lt := hlt
      disc_ne_zero := hne
      shift_pos := one_pos }

/-- One step of the recurrence (R168 step 2). -/
theorem BmInv.step (h : P.BmInv c val before.length b) (F : SymbolField c alpha val)
    (hc : RsCfg.Valid c) (hS : P.History c val (s :: before)) :
    P.BmInv c val (before.length + 1) (bmStep c b before s) := by
  have hlam := h.generates.isWord
  have hlen := h.generates.length_le
  have hd := val_bmDiscrepancy F hlam h.head hS (hlen.trans (Nat.succ_le_succ h.len_le))
  have hlt : bmDiscrepancy c b.lam before s < 2 ^ c.m :=
    foldl_gfMul_lt hc hlam.tail before (isWord_cons.mp hS.isWord).1
  by_cases hzero : bmDiscrepancy c b.lam before s = 0
  case pos =>
    rw [hzero, F.val_zero] at hd
    rw [bmStep_of_zero hzero]
    refine h.replace ⟨hlam, hlen, fun k hk hkn => ?_⟩ h.head
    rcases Nat.lt_succ_iff_lt_or_eq.mp hkn with hlt' | rfl
    · exact h.generates.conv_eq_zero k hk hlt'
    · exact hd.symm
  case neg =>
    by_cases hgrow : 2 * b.len ≤ before.length
    case pos =>
      rw [bmStep_of_grow hzero hgrow]
      exact h.grow F hc hlt hzero hd hgrow
    case neg =>
      rw [bmStep_of_keep hzero hgrow]
      exact h.replace (h.generates_bmUpdate F hc hlt hd (Nat.le_refl _) (by omega))
        (bmUpdate_headD h.head h.shift_pos _)

theorem BmInv.run {rest : List Nat} (h : P.BmInv c val before.length b)
    (F : SymbolField c alpha val) (hc : RsCfg.Valid c)
    (hS : P.History c val (rest.reverse ++ before)) :
    P.BmInv c val (before.length + rest.length) (bmRun c b before rest) := by
  induction rest generalizing b before with
  | nil => exact h
  | cons s rest ih =>
    rw [List.reverse_cons, List.append_assoc, List.singleton_append] at hS
    have hrun := ih (before := s :: before) (h.step F hc hS.right) hS
    rwa [List.length_cons, Nat.add_right_comm] at hrun

/-- The recurrence of a list of syndromes (R168 step 2). -/
theorem bmInv_berlekampMassey (F : SymbolField c alpha val) (hc : RsCfg.Valid c) {S : List Nat}
    (hS : P.History c val S.reverse) : P.BmInv c val S.length (berlekampMassey c S) := by
  have hrun := (P.bmInv_init (val := val) hc).run (before := []) F hc (rest := S)
    (by simpa using hS)
  rwa [List.length_nil, Nat.zero_add] at hrun

end ErrorPattern

end Sys2Proof.Machine

/-! ## The decoder corrects up to `t` errors -/

namespace Sys2Proof.Machine

variable {c : RsCfg} {K : Type} [Field K] {alpha : K} {val : Nat → K} {R C : List Nat}

/-! ### The errors of a received word -/

/-- The positions in which a received word differs from a codeword. -/
def errorSet (R C : List Nat) : Finset Nat :=
  (Finset.range R.length).filter fun i => R.getD i 0 ≠ C.getD i 0

/-- What has to be added to a received symbol to correct it. -/
def errorValue (R C : List Nat) (i : Nat) : Nat := R.getD i 0 ^^^ C.getD i 0

/-- The locator of position `i` of `N`, `alpha` to the position's degree (R168 step 3). -/
def errorLoc (alpha : K) (N i : Nat) : K := alpha ^ (N - 1 - i)

theorem mem_errorSet {i : Nat} :
    i ∈ errorSet R C ↔ i < R.length ∧ R.getD i 0 ≠ C.getD i 0 := by
  simp only [errorSet, Finset.mem_filter, Finset.mem_range]

theorem card_errorSet (hlen : R.length = C.length) : (errorSet R C).card = differences R C := by
  rw [differences, List.countP_eq_length_filter, ← hlen,
    ← List.toFinset_card_of_nodup (List.nodup_range.filter _), List.toFinset_filter,
    List.toFinset_range]
  simp only [errorSet, bne_iff_ne]

theorem errorValue_lt (hR : IsWord c R) (hC : IsWord c C) (i : Nat) :
    errorValue R C i < 2 ^ c.m := Nat.xor_lt_two_pow (hR.getD_lt i) (hC.getD_lt i)

theorem errorValue_eq_zero_iff {i : Nat} :
    errorValue R C i = 0 ↔ R.getD i 0 = C.getD i 0 := Nat.xor_eq_zero_iff

theorem SymbolField.errorLoc_injOn (F : SymbolField c alpha val) (hc : RsCfg.Valid c) {N : Nat}
    (hN : N ≤ c.n) : Set.InjOn (errorLoc alpha N) (Finset.range N : Finset Nat) := by
  have horder : c.n ≤ RsCfg.order c := hc.2.2.2.1
  intro i hi j hj h
  simp only [Finset.coe_range, Set.mem_Iio] at hi hj
  have hmem : ∀ l, N - 1 - l ∈ (Finset.range (RsCfg.order c) : Finset Nat) := fun l =>
    Finset.mem_range.mpr (by omega)
  have hexp := F.alpha_pow_injOn hc (hmem i) (hmem j) h
  omega

/-- The errors of a received word, as the syndromes show them. -/
def SymbolField.errorPattern (F : SymbolField c alpha val) (hc : RsCfg.Valid c) (hR : IsWord c R)
    (hC : IsWord c C) (hN : R.length ≤ c.n) : ErrorPattern K where
  pos := errorSet R C
  loc := errorLoc alpha R.length
  weight i := val (errorValue R C i) * errorLoc alpha R.length i ^ c.fcr
  loc_ne_zero _ _ := pow_ne_zero _ (F.alpha_ne_zero hc)
  loc_injOn := (F.errorLoc_injOn hc hN).mono (Finset.coe_subset.mpr (Finset.filter_subset _ _))
  weight_ne_zero i hi := mul_ne_zero
    (fun h => (mem_errorSet.mp hi).2
      (errorValue_eq_zero_iff.mp (F.eq_zero _ (errorValue_lt hR hC i) h)))
    (pow_ne_zero _ (pow_ne_zero _ (F.alpha_ne_zero hc)))

namespace SymbolField

/-- Two words of one length differ, at a power of `alpha`, by the errors between them. -/
theorem highAt_add_highAt (F : SymbolField c alpha val) (hlen : R.length = C.length) (e : Nat) :
    highAt val (alpha ^ e) R + highAt val (alpha ^ e) C =
      ∑ i ∈ errorSet R C, val (errorValue R C i) * errorLoc alpha R.length i ^ e := by
  rw [highAt_eq_sum, highAt_eq_sum, ← hlen, ← Finset.sum_add_distrib, errorSet, Finset.sum_filter]
  refine Finset.sum_congr rfl fun i _ => ?_
  rw [← add_mul, ← F.val_xor, errorLoc, pow_right_comm]
  split
  · rfl
  next heq => rw [not_not.mp heq, Nat.xor_self, F.val_zero, zero_mul]

/-- The syndromes of a received word are those of its errors (R168). -/
theorem val_syndrome (F : SymbolField c alpha val) (hc : RsCfg.Valid c) (hR : IsWord c R)
    (hC : IsWord c C) (hN : R.length ≤ c.n) (hlen : R.length = C.length)
    (hcw : isCodeword c C = true) {k : Nat} (hk : k < RsCfg.par c) :
    val (evalHigh c (gfAlpha c (c.fcr + k)) R) = (F.errorPattern hc hR hC hN).syn k := by
  have hsum := F.highAt_add_highAt hlen (c.fcr + k)
  rw [(F.isCodeword_iff_highAt hc hC).mp hcw k hk, add_zero] at hsum
  rw [F.val_evalHigh hc (gfAlpha_lt hc _) hR, F.val_alpha, hsum]
  exact Finset.sum_congr rfl fun i _ => by rw [pow_add]; exact (mul_assoc _ _ _).symm

end SymbolField

theorem syndromes_length (c : RsCfg) (w : List Nat) : (syndromes c w).length = RsCfg.par c := by
  simp [syndromes]

theorem syndromes_getD {k : Nat} (hk : k < RsCfg.par c) (w : List Nat) :
    (syndromes c w).getD k 0 = evalHigh c (gfAlpha c (c.fcr + k)) w := by
  simp [syndromes, hk]

/-- Any number of symbols that stand for the first syndromes. -/
theorem history_reverse_map_range {P : ErrorPattern K} {f : Nat → Nat} {n : Nat}
    (h : ∀ k < n, f k < 2 ^ c.m ∧ val (f k) = P.syn k) :
    P.History c val ((List.range n).map f).reverse := by
  induction n with
  | zero => trivial
  | succ n ih =>
    rw [List.range_succ, List.map_append, List.reverse_append]
    refine ⟨⟨(h n (Nat.lt_succ_self n)).1, ?_⟩, ih fun k hk => h k (Nat.lt_succ_of_lt hk)⟩
    simpa using (h n (Nat.lt_succ_self n)).2

/-! ### The positions found -/

theorem SymbolField.mem_errorPositions (F : SymbolField c alpha val) (hc : RsCfg.Valid c)
    {lam : List Nat} (hlam : IsWord c lam) {N i : Nat} :
    i ∈ errorPositions c lam N ↔ i < N ∧ lowAt val (errorLoc alpha N i)⁻¹ lam = 0 := by
  have hloc : gfAlphaNeg c (N - 1 - i) < 2 ^ c.m := gfAlpha_lt hc _
  obtain ⟨hlt, heq⟩ := F.val_evalLow hc hloc hlam
  rw [errorPositions, List.mem_filter, List.mem_range, beq_iff_eq, errorLoc, ← F.val_alphaNeg hc,
    ← heq, F.val_eq_zero_iff hlt]

theorem nodup_errorPositions (c : RsCfg) (lam : List Nat) (N : Nat) :
    (errorPositions c lam N).Nodup := List.nodup_range.filter _

/-- A recurrence for enough syndromes has the length and the roots of the errors (R168 step 3). -/
theorem SymbolField.errorPositions_of_bmInv (F : SymbolField c alpha val) (hc : RsCfg.Valid c)
    {P : ErrorPattern K} {b : BmState} {n N : Nat} (h : P.BmInv c val n b)
    (hn : 2 * P.pos.card ≤ n) (hN : N ≤ c.n) (hloc : P.loc = errorLoc alpha N)
    (hpos : P.pos ⊆ Finset.range N) :
    (errorPositions c b.lam N).toFinset = P.pos ∧ (errorPositions c b.lam N).length = b.len := by
  have hmem := fun i => F.mem_errorPositions hc h.generates.isWord (N := N) (i := i)
  have hle := h.len_le_card
  have hsub : P.pos ⊆ (errorPositions c b.lam N).toFinset := fun i hi => by
    rw [List.mem_toFinset, hmem, ← hloc]
    exact ⟨Finset.mem_range.mp (hpos hi), h.generates.locates (by omega) i hi⟩
  have hinj : Set.InjOn (fun i => (errorLoc alpha N i)⁻¹)
      ((errorPositions c b.lam N).toFinset : Finset Nat) :=
    inv_injective.injOn.comp ((F.errorLoc_injOn hc hN).mono fun i hi =>
      Finset.mem_range.mpr ((hmem i).mp (List.mem_toFinset.mp hi)).1) (Set.mapsTo_univ _ _)
  have hzero : lowAt val 0 b.lam ≠ 0 := by
    rw [F.lowAt_zero, h.head, F.val_one]; exact one_ne_zero
  have hroots := card_roots_lowAt_le h.generates.length_le hzero hinj fun i hi =>
    ((hmem i).mp (List.mem_toFinset.mp hi)).2
  have heq := Finset.eq_of_subset_of_card_le hsub (hroots.trans hle)
  have hcard := List.toFinset_card_of_nodup (nodup_errorPositions c b.lam N)
  have hcard' := Finset.card_le_card hsub
  exact ⟨heq.symm, by omega⟩

/-! ### The error values -/

/-- The equation of syndrome `k` (R168 step 4). -/
theorem mem_errorEquations {S pos row : List Nat} {N : Nat} :
    row ∈ errorEquations c S pos N ↔ ∃ k < pos.length,
      (pos.map fun i => gfAlpha c ((N - 1 - i) * (c.fcr + k))) ++ [S.getD k 0] = row := by
  simp only [errorEquations, List.mem_map, List.mem_range]

theorem rowsOk_errorEquations (hc : RsCfg.Valid c) {S : List Nat} (hS : IsWord c S) (pos : List Nat)
    (N : Nat) : RowsOk c pos.length (errorEquations c S pos N) := fun row hrow => by
  obtain ⟨k, -, rfl⟩ := mem_errorEquations.mp hrow
  refine ⟨isWord_append.mpr ⟨fun x hx => ?_, by simpa using hS.getD_lt k⟩, by simp⟩
  obtain ⟨i, -, rfl⟩ := List.mem_map.mp hx
  exact gfAlpha_lt hc _

namespace SymbolField

theorem val_coefficient (F : SymbolField c alpha val) (N i e : Nat) :
    val (gfAlpha c ((N - 1 - i) * e)) = errorLoc alpha N i ^ e := by
  rw [F.val_alpha, pow_mul, errorLoc]

/-- Different positions have independent equations. -/
theorem independent_errorEquations (F : SymbolField c alpha val) (hc : RsCfg.Valid c) {N : Nat}
    {pos : List Nat} (hnodup : pos.Nodup)
    (hinj : Set.InjOn (errorLoc alpha N) (pos.toFinset : Finset Nat)) (S : List Nat) :
    Independent val pos.length (errorEquations c S pos N) := by
  intro ys hlen hys
  have hsum : ∀ k < pos.length, ∑ j ∈ Finset.range pos.length,
      ys.getD j 0 * errorLoc alpha N (pos.getD j 0) ^ c.fcr *
        errorLoc alpha N (pos.getD j 0) ^ k = 0 := by
    intro k hk
    have hrow := hys _ (mem_errorEquations.mpr ⟨k, hk, rfl⟩)
    rw [dot_append val (by simpa using hlen.symm), dot_map_eq_sum val _ hlen, dot_cons, dot_nil,
      mul_zero, add_zero, add_zero] at hrow
    refine (Finset.sum_congr rfl fun j _ => ?_).trans hrow
    rw [F.val_coefficient, pow_add]
    ring
  have hloc : Set.InjOn (fun j => errorLoc alpha N (pos.getD j 0))
      (Finset.range pos.length : Finset Nat) := by
    intro i hi j hj hij
    simp only [Finset.coe_range, Set.mem_Iio] at hi hj
    have heq := hinj (by simp [hi]) (by simp [hj]) hij
    simpa [hi, hj, hnodup.getElem_inj_iff] using heq
  have hzero := eq_zero_of_sum_mul_pow_eq_zero hloc (by simpa using hsum)
  refine List.eq_replicate_iff.mpr ⟨hlen, fun y hy => ?_⟩
  obtain ⟨j, hj, rfl⟩ := List.mem_iff_getElem.mp hy
  have hj0 := hzero j (Finset.mem_range.mpr (hlen ▸ hj))
  have hne : errorLoc alpha N (pos.getD j 0) ^ c.fcr ≠ 0 :=
    pow_ne_zero _ (pow_ne_zero _ (F.alpha_ne_zero hc))
  simpa [hj] using (mul_eq_zero.mp hj0).resolve_right hne

/-- The error values solve the equations. -/
theorem orthogonal_errorEquations (F : SymbolField c alpha val) (hc : RsCfg.Valid c)
    (hR : IsWord c R) (hC : IsWord c C) (hN : R.length ≤ c.n) {S pos : List Nat}
    (hnodup : pos.Nodup) (hpos : pos.toFinset = errorSet R C)
    (hS : ∀ k < pos.length, val (S.getD k 0) = (F.errorPattern hc hR hC hN).syn k) :
    Orthogonal val (errorEquations c S pos R.length)
      ((pos.map fun i => val (errorValue R C i)) ++ [1]) := by
  intro row hrow
  obtain ⟨k, hk, rfl⟩ := mem_errorEquations.mp hrow
  rw [dot_append val (by simp), dot_map_map, dot_cons, dot_nil, mul_one, add_zero, hS k hk,
    F.add_eq_zero_iff, ← List.sum_toFinset _ hnodup, hpos]
  refine Finset.sum_congr rfl fun i _ => ?_
  rw [F.val_coefficient, pow_add]
  simp only [errorPattern]
  ring

end SymbolField

/-- Equal values, symbol by symbol, are equal symbols. -/
theorem SymbolField.map_val_inj (F : SymbolField c alpha val) {v w : List Nat} (hv : IsWord c v)
    (hw : IsWord c w) (h : v.map val = w.map val) : v = w := by
  induction v generalizing w with
  | nil => exact (List.map_eq_nil_iff.mp h.symm).symm
  | cons a v ih =>
    cases w with
    | nil => cases h
    | cons b w =>
      obtain ⟨ha, hv⟩ := isWord_cons.mp hv
      obtain ⟨hb, hw⟩ := isWord_cons.mp hw
      obtain ⟨hab, htail⟩ := List.cons.inj h
      rw [F.val_inj ha hb hab, ih hv hw htail]

/-- Each error value is added at its position (R168 step 5). -/
theorem applyErrors_zip_getD {f : Nat → Nat} {pos w : List Nat} (hnodup : pos.Nodup)
    (hpos : ∀ i ∈ pos, i < w.length) (i : Nat) :
    (applyErrors w (pos.zip (pos.map f))).getD i 0 =
      if i ∈ pos then w.getD i 0 ^^^ f i else w.getD i 0 := by
  induction pos generalizing w with
  | nil => rfl
  | cons p pos ih =>
    obtain ⟨hp, hnodup⟩ := List.nodup_cons.mp hnodup
    obtain ⟨hlt, hpos⟩ := List.forall_mem_cons.mp hpos
    rw [List.map_cons, List.zip_cons_cons, applyErrors, ih hnodup (by simpa using hpos)]
    by_cases hi : i = p
    · subst hi
      simp [hp, hlt]
    · simp [hi, List.getElem?_set_ne (Ne.symm hi)]

/-- Adding the error values gives the codeword. -/
theorem applyErrors_errorValue (hlen : R.length = C.length) {pos : List Nat} (hnodup : pos.Nodup)
    (hpos : pos.toFinset = errorSet R C) :
    applyErrors R (pos.zip (pos.map (errorValue R C))) = C := by
  have hmem : ∀ i, i ∈ pos ↔ i < R.length ∧ R.getD i 0 ≠ C.getD i 0 := fun i => by
    rw [← mem_errorSet, ← hpos, List.mem_toFinset]
  have hget := applyErrors_zip_getD (f := errorValue R C) (w := R) hnodup fun i hi =>
    ((hmem i).mp hi).1
  refine List.ext_getElem (by simpa using hlen) fun i hi hi' => ?_
  have hgeti := hget i
  rw [List.getD_eq_getElem _ _ hi] at hgeti
  rw [hgeti, ← List.getD_eq_getElem _ 0 hi']
  split
  · rw [errorValue, ← Nat.xor_assoc, Nat.xor_self, Nat.zero_xor]
  next hnot =>
    by_contra hne
    exact hnot ((hmem i).mpr ⟨by simpa using hi, hne⟩)

/-! ### The decoder -/

theorem rsDecode_of_positions {b : BmState} {pos : List Nat} (h : isCodeword c R = false)
    (hb : berlekampMassey c (syndromes c R) = b) (hcap : b.len ≤ RsCfg.cap c)
    (hpos : errorPositions c b.lam R.length = pos) (hlen : pos.length = b.len) :
    rsDecode c R = rsCorrect c R (syndromes c R) pos := by
  have hnot : ¬(syndromes c R).all (· == 0) = true := by rw [← isCodeword, h]; decide
  subst hb hpos
  rw [rsDecode, if_neg hnot, if_neg (by omega), if_neg (by omega)]

theorem rsCorrect_of_solution {S pos vals : List Nat}
    (hsolve : solveLinear c pos.length (errorEquations c S pos R.length) = some vals)
    (hne : ∀ v ∈ vals, v ≠ 0) (hC : applyErrors R (pos.zip vals) = C)
    (hcw : isCodeword c C = true) :
    rsCorrect c R S pos = some C := by
  have hany : vals.any (· == 0) = false := by simpa using hne
  simp only [rsCorrect, hsolve, hany, hC, hcw, if_true, Bool.false_eq_true, if_false]

/-- Errors that no syndrome shows are none, when there are as many syndromes as errors. -/
theorem ErrorPattern.pos_eq_empty {P : ErrorPattern K} (h : ∀ k < P.pos.card, P.syn k = 0) :
    P.pos = ∅ :=
  Finset.eq_empty_of_forall_notMem fun p hp =>
    P.weight_ne_zero p hp (eq_zero_of_sum_mul_pow_eq_zero P.loc_injOn h p hp)

section Decode

variable (F : SymbolField c alpha val) (hc : RsCfg.Valid c) (hR : IsWord c R) (hC : IsWord c C)
  (hN : R.length ≤ c.n) (hlen : R.length = C.length) (hcw : isCodeword c C = true)

include F hc hR hC hN hlen hcw

/-- Codewords that differ in no more positions than there are syndromes are equal. -/
theorem eq_of_isCodeword (hcard : (errorSet R C).card ≤ RsCfg.par c)
    (hRcw : isCodeword c R = true) : R = C := by
  have hempty : (F.errorPattern hc hR hC hN).pos = ∅ := ErrorPattern.pos_eq_empty fun k hk => by
    have hkpar : k < RsCfg.par c := hk.trans_le hcard
    rw [← F.val_syndrome hc hR hC hN hlen hcw hkpar, isCodeword_iff.mp hRcw k hkpar, F.val_zero]
  exact applyErrors_errorValue hlen List.nodup_nil hempty.symm

theorem history_syndromes :
    (F.errorPattern hc hR hC hN).History c val (syndromes c R).reverse :=
  history_reverse_map_range fun _ hk =>
    ⟨evalHigh_lt hc (gfAlpha_lt hc _) hR, F.val_syndrome hc hR hC hN hlen hcw hk⟩

/-- With the positions of the errors, the equations give the codeword (R168 steps 4 and 5). -/
theorem rsCorrect_eq_some {pos : List Nat} (hnodup : pos.Nodup)
    (hpos : pos.toFinset = errorSet R C) (hle : pos.length ≤ RsCfg.par c) :
    rsCorrect c R (syndromes c R) pos = some C := by
  have hinj : Set.InjOn (errorLoc alpha R.length) (pos.toFinset : Finset Nat) :=
    hpos ▸ (F.errorPattern hc hR hC hN).loc_injOn
  have hS : IsWord c (syndromes c R) := fun x hx =>
    (history_syndromes F hc hR hC hN hlen hcw).isWord x (List.mem_reverse.mpr hx)
  have hvalues : IsWord c (pos.map (errorValue R C)) := fun x hx => by
    obtain ⟨i, -, rfl⟩ := List.mem_map.mp hx
    exact errorValue_lt hR hC i
  obtain ⟨vals, hsolve, hvals, hmap⟩ := F.exists_solveLinear_eq hc
    (rowsOk_errorEquations hc hS pos _) (F.independent_errorEquations hc hnodup hinj _) (by simp)
    (F.orthogonal_errorEquations hc hR hC hN hnodup hpos fun k hk => by
      rw [syndromes_getD (hk.trans_le hle), F.val_syndrome hc hR hC hN hlen hcw (hk.trans_le hle)])
  obtain rfl : vals = pos.map (errorValue R C) :=
    F.map_val_inj hvals hvalues (by rw [hmap, List.map_map]; rfl)
  refine rsCorrect_of_solution hsolve (fun v hv => ?_) (applyErrors_errorValue hlen hnodup hpos) hcw
  obtain ⟨i, hi, rfl⟩ := List.mem_map.mp hv
  have hmem : i ∈ errorSet R C := hpos ▸ List.mem_toFinset.mpr hi
  obtain ⟨-, hne⟩ := mem_errorSet.mp hmem
  exact fun h => hne (errorValue_eq_zero_iff.mp h)

/-- A word with at most `t` errors is decoded to the codeword (R165 P2). -/
theorem rsDecode_eq_some (hcard : (errorSet R C).card ≤ RsCfg.cap c) : rsDecode c R = some C := by
  have hcap : 2 * RsCfg.cap c ≤ RsCfg.par c := Nat.mul_div_le _ 2
  cases hRcw : isCodeword c R
  case true =>
    rw [← eq_of_isCodeword F hc hR hC hN hlen hcw (by omega) hRcw]
    exact if_pos hRcw
  case false =>
    have hinv := ErrorPattern.bmInv_berlekampMassey F hc (history_syndromes F hc hR hC hN hlen hcw)
    rw [syndromes_length] at hinv
    obtain ⟨hpos, hlength⟩ := F.errorPositions_of_bmInv hc hinv
      ((Nat.mul_le_mul_left 2 hcard).trans hcap) hN rfl (Finset.filter_subset _ _)
    have hle := hinv.len_le_card.trans hcard
    rw [rsDecode_of_positions hRcw rfl hle rfl hlength]
    exact rsCorrect_eq_some F hc hR hC hN hlen hcw (nodup_errorPositions c _ _) hpos (by omega)

end Decode

/-- Settles O31: the syndromes are those of the errors, the recurrence finds their positions, and
the linear equations their values. -/
theorem decoderCorrectsUpToTheRadius : Obligations.DecoderCorrectsUpToTheRadius := by
  intro c R C hc hR hC hlen _ hN hcw hdiff
  obtain ⟨_, F⟩ := exists_symbolField hc
  exact rsDecode_eq_some F hc hR hC hN hlen hcw ((card_errorSet hlen).trans_le hdiff)

end Sys2Proof.Machine

/-! ## Bits, symbols and bytes -/

namespace Sys2Proof.Machine

/-! ### Bits of numbers -/

/-- The first bit is the most significant (R17). -/
theorem bitsNat_cons (b : Bool) (X : List Bool) :
    bitsNat (b :: X) = b.toNat * 2 ^ X.length + bitsNat X := by
  have hacc : ∀ a, X.foldl (fun a b => 2 * a + b.toNat) a = a * 2 ^ X.length + bitsNat X := by
    unfold bitsNat
    induction X with
    | nil => simp
    | cons x X ih =>
      intro a
      rw [List.foldl_cons, List.foldl_cons, ih, ih (2 * 0 + x.toNat), List.length_cons,
        Nat.pow_succ]
      ring
  simpa [bitsNat] using hacc b.toNat

theorem bitsNat_lt (X : List Bool) : bitsNat X < 2 ^ X.length := by
  induction X with
  | nil => decide
  | cons b X ih =>
    have hb : b.toNat * 2 ^ X.length ≤ 1 * 2 ^ X.length := Nat.mul_le_mul_right _ b.toNat_le
    rw [bitsNat_cons, List.length_cons, Nat.pow_succ]
    omega

/-- Writing the bits of a number and reading them back keeps its low bits (R17). -/
theorem bitsNat_natBits (w v : Nat) : bitsNat (natBits w v) = v % 2 ^ w := by
  induction w with
  | zero => simp [natBits, bitsNat, Nat.mod_one]
  | succ w ih =>
    rw [natBits, bitsNat_cons, natBits_length, ih, Nat.mod_pow_succ, Nat.toNat_testBit]
    ring

theorem natBits_mod {w n : Nat} (h : w ≤ n) (v : Nat) : natBits w (v % 2 ^ n) = natBits w v := by
  induction w with
  | zero => rfl
  | succ w ih =>
    rw [natBits, natBits, ih (by omega), Nat.testBit_mod_two_pow]
    simp; omega

/-- Reading bits as a number and writing them out gives them back (R17). -/
theorem natBits_bitsNat (X : List Bool) : natBits X.length (bitsNat X) = X := by
  induction X with
  | nil => rfl
  | cons b X ih =>
    have hlow : bitsNat (b :: X) % 2 ^ X.length = bitsNat X := by
      rw [bitsNat_cons, Nat.mul_add_mod_self_right, Nat.mod_eq_of_lt (bitsNat_lt X)]
    have htop : (bitsNat (b :: X)).testBit X.length = b := by
      rw [bitsNat_cons, Nat.mul_comm, Nat.testBit_two_pow_mul_add _ (bitsNat_lt X)]
      cases b <;> simp
    rw [List.length_cons, natBits, htop, ← natBits_mod (Nat.le_refl _), hlow, ih]

theorem chunks_mem_length_le {α : Type} {m n : Nat} {X g : List α} (h : g ∈ chunks m n X) :
    g.length ≤ m := by
  induction n generalizing X with
  | zero => cases h
  | succ n ih =>
    rcases List.mem_cons.mp h with rfl | h
    · exact List.length_take_le m X
    · exact ih h

/-! ### Bit streams -/

theorem le_ceilDiv_mul (a : Nat) {b : Nat} (hb : 0 < b) : a ≤ ceilDiv a b * b := by
  have hdiv := Nat.div_add_mod' (a + b - 1) b
  have hmod := Nat.mod_lt (a + b - 1) hb
  simp only [ceilDiv]
  omega

theorem ceilDiv_le {a b k : Nat} (hb : 0 < b) (h : a ≤ k * b) : ceilDiv a b ≤ k := by
  rw [ceilDiv, Nat.div_le_iff_le_mul_add_pred hb, Nat.mul_comm]
  omega

theorem ceilDiv_pos {a b : Nat} (ha : 0 < a) (hb : 0 < b) : 0 < ceilDiv a b :=
  Nat.div_pos (by omega) hb

theorem padTo_take (m : Nat) (X : List Bool) : (padTo m X).take X.length = X := by simp [padTo]

/-- What padding appends is zero bits (R17). -/
theorem padTo_drop (m : Nat) (X : List Bool) :
    (padTo m X).drop X.length = List.replicate (m - X.length) false := by simp [padTo]

theorem padTo_getD (m : Nat) {X : List Bool} {i : Nat} (h : X.length ≤ i) :
    (padTo m X).getD i false = false := by
  rw [padTo, List.getD_append_right _ _ _ _ h, List.getD_eq_getElem?_getD, List.getElem?_replicate]
  split <;> rfl

theorem padTo_eq_self {m : Nat} {X : List Bool} (h : m ≤ X.length) : padTo m X = X := by
  simp [padTo, Nat.sub_eq_zero_of_le h]

theorem padTo_length {m : Nat} {X : List Bool} (h : X.length ≤ m) : (padTo m X).length = m := by
  simp [padTo]; omega

/-- Each symbol of a stream is below `2^m` (R17). -/
theorem symsOf_lt (m : Nat) (X : List Bool) : ∀ x ∈ symsOf m X, x < 2 ^ m := by
  intro x hx
  obtain ⟨g, hg, rfl⟩ := List.mem_map.mp hx
  refine (bitsNat_lt _).trans_eq ?_
  rw [padTo_length (chunks_mem_length_le hg)]

/-- Padding every group pads the list (R17). -/
theorem flatMap_padTo_chunks {m n : Nat} {X : List Bool} (h : X.length ≤ n * m) :
    (chunks m n X).flatMap (padTo m) = padTo (n * m) X := by
  induction n generalizing X with
  | zero => simp_all [chunks, padTo]
  | succ n ih =>
    rw [Nat.succ_mul] at h ⊢
    have hdrop : (X.drop m).length ≤ n * m := by rw [List.length_drop]; omega
    rw [chunks, List.flatMap_cons, ih hdrop]
    rcases Nat.le_total m X.length with hle | hle
    · rw [padTo_eq_self (by simpa using hle), padTo, padTo, ← List.append_assoc,
        List.take_append_drop, List.length_drop]
      congr 2; omega
    · rw [List.take_of_length_le hle, List.drop_of_length_le hle]
      simp [padTo]; omega

/-- Cutting a stream into symbols and writing their bits out appends the padding, nothing else
(R17). -/
theorem symBits_symsOf {m : Nat} (hm : 0 < m) (X : List Bool) :
    symBits m (symsOf m X) = padTo (ceilDiv X.length m * m) X := by
  rw [← flatMap_padTo_chunks (le_ceilDiv_mul _ hm), symBits, symsOf, List.flatMap_map]
  refine List.flatMap_congr fun g hg => ?_
  have hlen := padTo_length (chunks_mem_length_le hg)
  nth_rw 1 [← hlen]
  exact natBits_bitsNat _

/-- Writing out the bits of symbols and cutting the stream again gives the symbols (R17). -/
theorem symsOf_symBits {m : Nat} (hm : 0 < m) {S : List Nat} (hS : ∀ x ∈ S, x < 2 ^ m) :
    symsOf m (symBits m S) = S := by
  have hcut : (chunks m S.length (symBits m S)).map (fun g => bitsNat (padTo m g)) = S := by
    induction S with
    | nil => rfl
    | cons s S ih =>
      obtain ⟨hs, hS⟩ := List.forall_mem_cons.mp hS
      have hbits : symBits m (s :: S) = natBits m s ++ symBits m S := rfl
      rw [hbits, List.length_cons, chunks, List.take_left' (natBits_length m s),
        List.drop_left' (natBits_length m s), List.map_cons, ih hS,
        padTo_eq_self (natBits_length m s).ge, bitsNat_natBits, Nat.mod_eq_of_lt hs]
  rwa [symsOf, symBits_length, ceilDiv_mul _ _ hm]

theorem bitsOf_eq_symBits (B : List Byte) : bitsOf B = symBits 8 (B.map BitVec.toNat) := by
  rw [bitsOf, symBits, List.flatMap_map]

/-- Bytes are read back from their bits (R17). -/
theorem bytesOf_bitsOf (B : List Byte) : bytesOf (bitsOf B) = B := by
  have hB : ∀ x ∈ B.map BitVec.toNat, x < 2 ^ 8 := fun x hx => by
    obtain ⟨b, -, rfl⟩ := List.mem_map.mp hx
    exact b.isLt
  rw [bytesOf, bitsOf_eq_symBits, symsOf_symBits (by decide) hB, List.map_map]
  simp [Function.comp_def]

/-- The bits of the bytes that hold a stream are the stream and its padding (R17). -/
theorem bitsOf_bytesOf (X : List Bool) : bitsOf (bytesOf X) = padTo (ceilDiv X.length 8 * 8) X := by
  have hsyms : (bytesOf X).map BitVec.toNat = symsOf 8 X := by
    rw [bytesOf, List.map_map]
    refine (List.map_congr_left fun x hx => ?_).trans (List.map_id _)
    exact (BitVec.toNat_ofNat x 8).trans (Nat.mod_eq_of_lt (symsOf_lt 8 X x hx))
  rw [bitsOf_eq_symBits, hsyms, symBits_symsOf (by decide)]

end Sys2Proof.Machine

/-! ## A header and a payload received with errors -/

namespace Sys2Proof.Machine

/-! ### Bytes stored and read back -/

/-- The bytes stored from an index on are read back there. -/
theorem bytesAt_of_storedAt {m m' : Memory} {i : Nat} {bs : List Byte} (h : StoredAt m m' i bs) :
    bytesAt m' i bs.length = bs := by
  obtain ⟨hstored, -⟩ := h
  refine List.ext_getElem (bytesAt_length _ _ _) fun j _ hj => ?_
  simp [bytesAt, hstored j hj, hj]

/-- A run inside a longer one. -/
theorem bytesAt_drop_take (m : Memory) (i : Nat) {n j k : Nat} (h : j + k ≤ n) :
    ((bytesAt m i n).drop j).take k = bytesAt m (i + j) k := by
  rw [bytesAt_drop, bytesAt_take _ _ (by omega)]

/-! ### Words received with errors -/

theorem m_pos {c : RsCfg} (hc : RsCfg.Valid c) : 0 < c.m := by
  obtain ⟨hm, -⟩ := hc
  omega

/-- The symbols of a stream are field elements (R161). -/
theorem isWord_symsOf (rs : RsCfg) (X : List Bool) : IsWord rs (symsOf rs.m X) := symsOf_lt rs.m X

theorem differences_comm {v w : List Nat} (h : v.length = w.length) :
    differences v w = differences w v := by
  simp only [differences, h, bne_comm]

theorem differences_self (w : List Nat) : differences w w = 0 := by simp [differences]

/-- A message and its parity, received with at most `t` wrong symbols, are decoded (R163, R165). -/
theorem rsDecode_of_sent {c : RsCfg} (hc : RsCfg.Valid c) {M R : List Nat} (hM : IsWord c M)
    (hR : IsWord c R) (hlen : R.length = M.length + RsCfg.par c) (hpos : 0 < M.length)
    (hk : M.length ≤ c.k) (hdiff : differences (M ++ rsParity c M) R ≤ RsCfg.cap c) :
    rsDecode c R = some (M ++ rsParity c M) := by
  obtain ⟨hparity, hP, hcw⟩ := parityMakesACodeword c M hc hM hpos hk
  obtain ⟨-, -, -, -, -, hkn, -⟩ := id hc
  have hpar : RsCfg.par c = c.n - c.k := rfl
  have hC : (M ++ rsParity c M).length = R.length := by rw [List.length_append, hparity, hlen, hpar]
  exact decoderCorrectsUpToTheRadius c R _ hc hR (isWord_append.mpr ⟨hM, hP⟩) hC.symm (by omega)
    (by omega) hcw (by rwa [differences_comm hC.symm])

/-! ### The header -/

theorem hcsLoad_hcsStore (h : HcsCfg) (x : BitVec 16) :
    hcsLoad h ((hcsStore h x).getD 0 0) ((hcsStore h x).getD 1 0) = x := by
  unfold hcsLoad hcsStore
  cases h.big <;>
    exact (BitVec.extractLsb'_append_extractLsb'_eq_extractLsb' (by rfl)).trans
      BitVec.extractLsb'_eq_self

section Header

variable {c : Cfg} {f : FrameRegs} {B : List Byte}

/-- The five bytes of a header that its parity covers: the fields and their check (R93, R94). -/
def headerCovered (c : Cfg) (f : FrameRegs) : List Byte :=
  headerFields f ++ headerHcs c (headerFields f)

theorem headerEncode_eq (c : Cfg) (f : FrameRegs) :
    headerEncode c f = headerCovered c f ++ headerParity c (headerCovered c f) := rfl

@[simp] theorem headerCovered_length (c : Cfg) (f : FrameRegs) :
    (headerCovered c f).length = 5 := by
  simp [headerCovered]

/-- Six-bit symbols are field elements of the header code (R123, R171). -/
theorem isWord_symsOf_six (hc : HdrRsValid c.hdrRs) (X : List Bool) :
    IsWord c.hdrRs (symsOf 6 X) := by
  obtain ⟨hm, -⟩ := hc
  exact hm ▸ isWord_symsOf c.hdrRs X

theorem hdrData_headerCovered_length (c : Cfg) (f : FrameRegs) :
    (hdrData (headerCovered c f)).length = 7 := by
  simp [hdrData, ceilDiv]

/-- The data symbols of a header are those of the bytes its parity covers (R123). -/
theorem hdrData_headerEncode (c : Cfg) (f : FrameRegs) :
    hdrData (headerEncode c f) = hdrData (headerCovered c f) := by
  rw [headerEncode_eq, hdrData, hdrData, List.take_left' (headerCovered_length c f),
    List.take_of_length_le (headerCovered_length c f).le]

/-- The parity symbols of a header are the parity of its data symbols (R123, R128). -/
theorem hdrPar_headerEncode (hc : HdrRsValid c.hdrRs) (f : FrameRegs) :
    hdrPar (headerEncode c f) = rsParity c.hdrRs (hdrData (headerCovered c f)) := by
  have hpar := par_of_hdrRsValid hc
  obtain ⟨hm, -, -, hrs⟩ := id hc
  have hword : IsWord c.hdrRs (rsParity c.hdrRs (hdrData (headerCovered c f))) :=
    isWord_rsParity hrs (isWord_symsOf_six hc _)
  have hlen : (rsParity c.hdrRs (hdrData (headerCovered c f))).length = 4 := by
    rw [rsParity_length _ (par_pos hrs), hpar]
  rw [IsWord, hm] at hword
  rw [headerEncode_eq, hdrPar, List.drop_left' (headerCovered_length c f),
    List.take_of_length_le (headerParity_length c hpar _).le, headerParity, bitsOf_bytesOf,
    padTo_eq_self (by rw [symBits_length, hlen]; decide), symsOf_symBits (by decide) hword]

/-- The word of an encoded header, decoded, gives the header back (R129). -/
theorem hdrCorrect_of_decoded
    (h : rsDecode c.hdrRs (hdrData B ++ hdrPar B) =
      some (hdrData (headerCovered c f) ++ rsParity c.hdrRs (hdrData (headerCovered c f)))) :
    hdrCorrect c B = some (headerEncode c f) := by
  have hdata := hdrData_headerCovered_length c f
  have hbits : (bitsOf (headerCovered c f)).length = 40 := by simp
  have hX : symBits 6 ((hdrData (headerCovered c f) ++
      rsParity c.hdrRs (hdrData (headerCovered c f))).take 7) =
      padTo 42 (bitsOf (headerCovered c f)) := by
    rw [List.take_left' hdata, hdrData, List.take_of_length_le (headerCovered_length c f).le,
      symBits_symsOf (by decide), hbits]
    rfl
  have hno : ¬((padTo 42 (bitsOf (headerCovered c f))).getD 40 false = true ∨
      (padTo 42 (bitsOf (headerCovered c f))).getD 41 false = true) := by
    rw [padTo_getD 42 hbits.le, padTo_getD 42 (by omega)]
    decide
  rw [hdrCorrect_of_no_pad h (by rwa [hX]), hX, List.drop_left' hdata, headerEncode_eq, ← hbits,
    padTo_take, bytesOf_bitsOf]
  rfl

/-- A received header with at most two wrong symbols is corrected to the one sent (R129, R165). -/
theorem hdrCorrect_of_sent (hc : HdrRsValid c.hdrRs) (hB : B.length = 8)
    (hdiff : differences (hdrData (headerEncode c f) ++ hdrPar (headerEncode c f))
      (hdrData B ++ hdrPar B) ≤ 2) :
    hdrCorrect c B = some (headerEncode c f) := by
  have hpar := par_of_hdrRsValid hc
  have hdata := hdrData_headerCovered_length c f
  obtain ⟨-, -, hk, hrs⟩ := id hc
  have hlen : (hdrData B ++ hdrPar B).length = 11 := by simp [hdrData, hdrPar, hB, ceilDiv]
  rw [hdrData_headerEncode, hdrPar_headerEncode hc] at hdiff
  exact hdrCorrect_of_decoded (rsDecode_of_sent hrs (isWord_symsOf_six hc _)
    (isWord_append.mpr ⟨isWord_symsOf_six hc _, isWord_symsOf_six hc _⟩) (by omega) (by omega)
    (by omega) (by rwa [RsCfg.cap, hpar]))

/-- The check stands after the three field bytes (R93). -/
theorem headerEncode_getD_check (c : Cfg) (f : FrameRegs) {i : Nat} (hi : i < 2) :
    (headerEncode c f).getD (3 + i) 0 = (headerHcs c (headerFields f)).getD i 0 := by
  rw [headerEncode_eq, List.getD_append _ _ _ _ (by rw [headerCovered_length]; omega),
    headerCovered, List.getD_append_right _ _ _ _ (by rw [headerFields_length]; omega),
    headerFields_length, Nat.add_sub_cancel_left]

/-- An encoded header passes its own check (R127). -/
theorem hcsMatches_headerEncode (c : Cfg) (f : FrameRegs) :
    hcsMatches c (headerEncode c f) = true := by
  refine hcsMatches_iff.mpr ?_
  rw [headerEncode_getD_check c f (i := 0) (by decide),
    headerEncode_getD_check c f (i := 1) (by decide)]
  exact (hcsLoad_hcsStore c.hcs (crc16 c.hcs (headerFields f))).symm

/-- A header unpacked gives the fields it was encoded from (R92, R125). -/
theorem unpackHeader_headerEncode (c : Cfg) (f g : FrameRegs) :
    unpackHeader g (headerEncode c f) =
      { g with version := f.version, mode := f.mode, modeparm := f.modeparm, len := f.len } := by
  have h0 : (f.version ++ f.mode).extractLsb' 4 4 = f.version := BitVec.extractLsb'_append_eq_left
  have h1 : (f.version ++ f.mode).extractLsb' 0 4 = f.mode := BitVec.extractLsb'_append_eq_right
  rw [unpackHeader, show (headerEncode c f).getD 0 0 = f.version ++ f.mode from rfl, h0, h1]
  rfl

end Header

/-! ### The payload -/

section Payload

variable {rs : RsCfg} {e : ModeEntry}

/-- A segment whose symbols are decoded is given back without its padding (R196). -/
theorem segmentDecode_of_decoded (hm : 0 < rs.m) {seg seg' : List Bool} {parity : List Byte}
    {par : List Nat} (hlen : seg'.length = seg.length)
    (h : rsDecode rs (symsOf rs.m seg' ++
      symsOf rs.m ((bitsOf parity).take (RsCfg.par rs * rs.m))) = some (symsOf rs.m seg ++ par)) :
    segmentDecode rs seg' parity = some seg := by
  have hsyms : (symsOf rs.m seg').length = (symsOf rs.m seg).length := by simp [hlen]
  rw [segmentDecode, h]
  simp only [hsyms, hlen, List.take_left, symBits_symsOf hm, padTo_take, padTo_drop]
  simp

/-- The parity symbols of a segment are read back from its parity bytes (R169, R196). -/
theorem symsOf_segmentParity (hrs : RsCfg.Valid rs) (seg : List Bool) :
    symsOf rs.m ((bitsOf (segmentParity rs seg)).take (RsCfg.par rs * rs.m)) =
      rsParity rs (symsOf rs.m seg) := by
  have hm := m_pos hrs
  have hlen : (symBits rs.m (rsParity rs (symsOf rs.m seg))).length = RsCfg.par rs * rs.m := by
    rw [symBits_length, rsParity_length rs (par_pos hrs), Nat.mul_comm]
  rw [segmentParity, bitsOf_bytesOf, ← hlen, padTo_take,
    symsOf_symBits hm (isWord_rsParity hrs (isWord_symsOf rs seg))]

/-- A received segment with at most `t` wrong symbols is decoded to the one sent (R196, R202). -/
theorem segmentDecode_of_sent (hrs : RsCfg.Valid rs) {seg seg' : List Bool} {parity : List Byte}
    (hlen : seg'.length = seg.length) (hpos : 0 < seg.length) (hcap : seg.length ≤ rs.k * rs.m)
    (hparity : parity.length = ceilDiv (RsCfg.par rs * rs.m) 8)
    (hdiff : differences (symsOf rs.m seg ++ rsParity rs (symsOf rs.m seg))
      (symsOf rs.m seg' ++ symsOf rs.m ((bitsOf parity).take (RsCfg.par rs * rs.m))) ≤
        RsCfg.cap rs) :
    segmentDecode rs seg' parity = some seg := by
  have hm := m_pos hrs
  have hbits : ((bitsOf parity).take (RsCfg.par rs * rs.m)).length = RsCfg.par rs * rs.m := by
    have := le_ceilDiv_mul (RsCfg.par rs * rs.m) (b := 8) (by decide)
    rw [List.length_take, bitsOf_length, hparity]
    omega
  refine segmentDecode_of_decoded hm hlen (rsDecode_of_sent hrs (isWord_symsOf rs seg)
    (isWord_append.mpr ⟨isWord_symsOf rs seg', isWord_symsOf rs _⟩) ?_ ?_ ?_ hdiff)
  · rw [List.length_append, symsOf_length, symsOf_length, symsOf_length, hlen, hbits, Nat.mul_comm,
      ceilDiv_mul _ _ hm]
  · rw [symsOf_length]
    exact ceilDiv_pos hpos hm
  · rw [symsOf_length]
    exact ceilDiv_le hm hcap

/-- Segments that are decoded one by one are decoded together (R196). -/
theorem segmentsDecode_of_forall {segs segs' : List (List Bool)} {parity : List Byte}
    (hlen : segs'.length = segs.length)
    (h : ∀ i seg seg', segs[i]? = some seg → segs'[i]? = some seg' →
      segmentDecode e.rs seg' ((parity.drop (i * parBytes e)).take (parBytes e)) = some seg) :
    segmentsDecode e segs' parity = some segs.flatten := by
  induction segs generalizing segs' parity with
  | nil => rw [List.length_eq_zero_iff.mp hlen]; rfl
  | cons seg segs ih =>
    obtain ⟨seg', segs', rfl⟩ := List.exists_cons_of_length_eq_add_one hlen
    have hhead := h 0 seg seg' rfl rfl
    have htail : segmentsDecode e segs' (parity.drop (parBytes e)) = some segs.flatten :=
      ih (Nat.succ.inj hlen) fun i x x' hx hx' => by
        rw [List.drop_drop, Nat.add_comm, ← Nat.succ_mul]
        exact h (i + 1) x x' hx hx'
    rw [Nat.zero_mul, List.drop_zero] at hhead
    simp only [segmentsDecode, hhead, htail, Option.map_some, List.flatten_cons]

/-- Segment `i` is what is left of the payload's bits after the segments before it, up to `CAP_BITS`
of them (R193). -/
theorem segment_length {P : List Byte} {i : Nat} {seg : List Bool}
    (h : (segments e P)[i]? = some seg) :
    i < segCount e P.length ∧ seg.length = min e.capBits (8 * P.length - i * e.capBits) := by
  have hi : i < segCount e P.length := by
    simpa [segments] using (List.getElem?_eq_some_iff.mp h).1
  rw [segments_getElem? e P hi, Option.some.injEq] at h
  rw [← h, List.length_take, List.length_drop, bitsOf_length]
  exact ⟨hi, rfl⟩

/-- No segment is empty (R192). -/
theorem segment_length_pos (hcap : 0 < e.capBits) {P : List Byte} {i : Nat} {seg : List Bool}
    (h : (segments e P)[i]? = some seg) : 0 < seg.length := by
  obtain ⟨hi, hlen⟩ := segment_length h
  have hfirst : i * e.capBits < 8 * P.length := by
    by_contra hge
    exact absurd hi (Nat.not_lt.mpr (ceilDiv_le hcap (Nat.le_of_not_lt hge)))
  omega

/-- In a concatenation of blocks of one length, cut out block `i`. -/
theorem flatMap_drop_take_const {α β : Type} (f : α → List β) {n i : Nat} {x : α} {xs : List α}
    (h : ∀ y, (f y).length = n) (hx : xs[i]? = some x) :
    ((xs.flatMap f).drop (i * n)).take n = f x := by
  refine List.ext_getElem? fun j => ?_
  rw [List.getElem?_take]
  split
  next hj => rw [List.getElem?_drop, flatMap_getElem?_const f h hx hj]
  next hj => exact (List.getElem?_eq_none (by rw [h]; omega)).symm

/-- The word of segment `i` in the bytes after the header (30_encoding.md R96, R196): its run of
payload bits, then its parity. -/
def segmentSymbols (e : ModeEntry) (L : Nat) (B : List Byte) (i : Nat) : List Nat :=
  symsOf e.rs.m (((bitsOf (B.take L)).drop (i * e.capBits)).take e.capBits) ++
    symsOf e.rs.m ((bitsOf (((B.drop L).drop (i * parBytes e)).take (parBytes e))).take
      (RsCfg.par e.rs * e.rs.m))

theorem segmentWord_eq (e : ModeEntry) (L : Nat) (m : Memory) {n i : Nat}
    (h : L + (i + 1) * parBytes e ≤ n) :
    segmentWord e L m i = segmentSymbols e L (bytesAt m 8 n) i := by
  rw [Nat.succ_mul] at h
  rw [segmentSymbols, bytesAt_take _ _ (by omega), List.drop_drop,
    bytesAt_drop_take _ _ (by omega), ← Nat.add_assoc]
  rfl

/-- The word of a segment as it is sent (R196). -/
theorem segmentSymbols_payloadEncode (he : RsCfg.Valid e.rs) {P : List Byte} {i : Nat}
    {seg : List Bool} (hseg : (segments e P)[i]? = some seg) :
    segmentSymbols e P.length (payloadEncode e P) i =
      symsOf e.rs.m seg ++ rsParity e.rs (symsOf e.rs.m seg) := by
  have hrun := hseg
  rw [segments_getElem? e P (segment_length hseg).1, Option.some.injEq] at hrun
  have hparity : (((payloadEncode e P).drop P.length).drop (i * parBytes e)).take (parBytes e) =
      segmentParity e.rs seg := by
    rw [payloadEncode, List.drop_left]
    exact flatMap_drop_take_const _ (segmentParity_length e.rs (par_pos he)) hseg
  rw [segmentSymbols, hparity, symsOf_segmentParity he, payloadEncode, List.take_left, hrun]

/-- A received payload with at most `t` wrong symbols in each segment's word is decoded to the one
sent (R202). -/
theorem payloadDecode_of_sent (he : ModeEntry.Valid e) {P B : List Byte}
    (hB : B.length = P.length + segCount e P.length * parBytes e)
    (hdiff : ∀ i < segCount e P.length,
      differences (segmentSymbols e P.length (payloadEncode e P) i)
        (segmentSymbols e P.length B i) ≤ RsCfg.cap e.rs) :
    payloadDecode e P.length B = some P := by
  obtain ⟨hrs, hcap, hfit⟩ := he
  have htake : (B.take P.length).length = P.length := by rw [List.length_take]; omega
  have hsegs : segmentsDecode e (segments e (B.take P.length)) (B.drop P.length) =
      some (segments e P).flatten := by
    refine segmentsDecode_of_forall (by simp [segments, htake]) fun i seg seg' hseg hseg' => ?_
    obtain ⟨hi, hlen⟩ := segment_length hseg
    obtain ⟨hi', hlen'⟩ := segment_length hseg'
    have hblock : (i + 1) * parBytes e ≤ segCount e P.length * parBytes e :=
      Nat.mul_le_mul_right _ hi
    have hd := hdiff i hi
    rw [segmentSymbols_payloadEncode hrs hseg, segmentSymbols] at hd
    rw [segments_getElem? e _ hi', Option.some.injEq] at hseg'
    rw [hseg'] at hd
    refine segmentDecode_of_sent hrs (by rw [hlen, hlen', htake]) (segment_length_pos hcap hseg)
      (by omega) ?_ hd
    rw [Nat.succ_mul] at hblock
    rw [List.length_take, List.length_drop, List.length_drop]
    exact Nat.min_eq_left (by omega)
  rw [payloadDecode, hsegs, segments_flatten hcap, Option.map_some, bytesOf_bitsOf]

end Payload

end Sys2Proof.Machine

/-! ## The length, payload and whole-frame commands -/

namespace Sys2Proof.Machine

variable {s t : State} {op : BitVec 8} {rx : Nat} {f : FrameLen} {c : ResultCode} {sub : StarSub}

/-! ### `FRAMING` and the shared steps -/

theorem framingUsable_of_primary (h : framingOf s.frame.framing = .primary) :
    s.framingUsable = .primary := by rw [State.framingUsable, h]

theorem framingUsable_of_reserved (h : framingOf s.frame.framing = .reserved) :
    s.framingUsable = .reserved := by rw [State.framingUsable, h]

theorem framingUsable_of_present (h : framingOf s.frame.framing = .star sub)
    (hp : s.cfg.starPresent = true) : s.framingUsable = .star sub := by
  simp only [State.framingUsable, h, if_pos hp]

/-- A STAR format without the delegate is a reserved one (43_star_legacy.md R230). -/
theorem framingUsable_of_absent (h : framingOf s.frame.framing = .star sub)
    (hp : s.cfg.starPresent = false) : s.framingUsable = .reserved := by
  simp only [State.framingUsable, h, hp, Bool.false_eq_true, if_false]

theorem framingOf_eq_primary {g : BitVec 2} : framingOf g = .primary ↔ g = 0 := by
  revert g; decide

theorem framingUsable_of_zero (h : s.frame.framing = 0) : s.framingUsable = .primary :=
  framingUsable_of_primary (framingOf_eq_primary.mpr h)

theorem withFrameLen_of_error {k : FrameLen → State → Result} (h : s.frameLen = .error c) :
    s.withFrameLen op k = .next (s.setLenErr.complete op c) := by rw [State.withFrameLen, h]

theorem withFrameLen_of_ok {k : FrameLen → State → Result} (h : s.frameLen = .ok f) :
    s.withFrameLen op k = k f (s.setLenOk f.segs f.tot) := by rw [State.withFrameLen, h]

/-- The bytes that are sent after the header (R196). -/
def State.sentPayload (s : State) (e : ModeEntry) : List Byte :=
  payloadEncode e (bytesAt s.pb 0 s.frame.len.toNat)

theorem sendPayload_of_written {e : ModeEntry} (h : PbWritten s s.frame.len.toNat) :
    s.sendPayload op e = .next ((s.storeFb hdrSize (s.sentPayload e)).complete op .ok) :=
  withPb_written h _

/-! ### The payload part of a receive command -/

theorem receivePayload_of_error (h : s.frameLen = .error c) :
    s.receivePayload op rx = .next (s.setLenErr.complete op c) := withFrameLen_of_error h

theorem receivePayload_of_short (h : s.frameLen = .ok f) (hlen : s.frame.rxlen.toNat < f.tot) :
    s.receivePayload op rx = .next ((s.setLenOk f.segs f.tot).complete op .errLen) :=
  (withFrameLen_of_ok h).trans (if_pos hlen)

/-- The received bytes are decoded once there are enough of them (R198). -/
theorem receivePayload_of_fits (h : s.frameLen = .ok f) (hlen : ¬s.frame.rxlen.toNat < f.tot)
    (hw : FbWritten s 8 (f.tot - 8)) :
    s.receivePayload op rx =
      match payloadDecode f.entry s.frame.len.toNat (bytesAt s.fb 8 (f.tot - 8)) with
      | none => .next (((s.setLenOk f.segs f.tot).countFailure .pld rx).complete op .errPld)
      | some P => .next (((s.setLenOk f.segs f.tot).storePb P).complete op .ok) :=
  (withFrameLen_of_ok h).trans ((if_neg hlen).trans (withFb_written hw _))

theorem receivePayload_of_undecodable (h : s.frameLen = .ok f)
    (hlen : ¬s.frame.rxlen.toNat < f.tot) (hw : FbWritten s 8 (f.tot - 8))
    (hP : payloadDecode f.entry s.frame.len.toNat (bytesAt s.fb 8 (f.tot - 8)) = none) :
    s.receivePayload op rx =
      .next (((s.setLenOk f.segs f.tot).countFailure .pld rx).complete op .errPld) := by
  rw [receivePayload_of_fits h hlen hw, hP]

theorem receivePayload_of_payload {P : List Byte} (h : s.frameLen = .ok f)
    (hlen : ¬s.frame.rxlen.toNat < f.tot) (hw : FbWritten s 8 (f.tot - 8))
    (hP : payloadDecode f.entry s.frame.len.toNat (bytesAt s.fb 8 (f.tot - 8)) = some P) :
    s.receivePayload op rx = .next (((s.setLenOk f.segs f.tot).storePb P).complete op .ok) := by
  rw [receivePayload_of_fits h hlen hw, hP]

/-- What the payload part of `PDEC` and `FDEC` does, from the length computation on (R198, R200). -/
def PayloadReceived (s t : State) (op : BitVec 8) (rx : Nat) : Prop :=
  match s.frameLen with
  | .error c => t = s.setLenErr.complete op c
  | .ok f =>
    if s.frame.rxlen.toNat < f.tot then t = (s.setLenOk f.segs f.tot).complete op .errLen
    else
      match payloadDecode f.entry s.frame.len.toNat (bytesAt s.fb 8 (f.tot - 8)) with
      | none => t = ((s.setLenOk f.segs f.tot).countFailure .pld rx).complete op .errPld
      | some P =>
        (Cfg.Valid s.cfg → P.length = s.frame.len.toNat) ∧ StoredAt s.pb t.pb 0 P ∧
          t = { (s.setLenOk f.segs f.tot).complete op .ok with pb := t.pb }

/-- A payload decoded from a frame that fits has `LEN` bytes (R196). -/
theorem payloadDecode_length_of_frameLen {P : List Byte} (hc : Cfg.Valid s.cfg)
    (hf : s.frameLen = .ok f)
    (hP : payloadDecode f.entry s.frame.len.toNat (bytesAt s.fb 8 (f.tot - 8)) = some P) :
    P.length = s.frame.len.toNat := by
  obtain ⟨he, -, htot, -⟩ := primaryLen_ok.mp hf
  have hle : 8 + s.frame.len.toNat ≤ f.tot := htot ▸ Nat.le_add_right _ _
  refine payloadDecode_length (modeEntry_valid hc he) ?_ hP
  rw [bytesAt_length]
  exact Nat.le_sub_of_add_le' hle

theorem receivePayload_received
    (hw : ∀ f, s.frameLen = .ok f → f.tot ≤ s.frame.rxlen.toNat → FbWritten s 8 (f.tot - 8)) :
    ∃ t, s.receivePayload op rx = .next t ∧ PayloadReceived s t op rx := by
  unfold PayloadReceived
  cases hf : s.frameLen with
  | error c => exact ⟨_, receivePayload_of_error hf, rfl⟩
  | ok f =>
    by_cases hshort : s.frame.rxlen.toNat < f.tot
    · exact ⟨_, receivePayload_of_short hf hshort, (if_pos hshort).mpr rfl⟩
    · have hread := hw f hf (Nat.le_of_not_lt hshort)
      simp only [if_neg hshort]
      cases hP : payloadDecode f.entry s.frame.len.toNat (bytesAt s.fb 8 (f.tot - 8)) with
      | none => exact ⟨_, receivePayload_of_undecodable hf hshort hread hP, rfl⟩
      | some P =>
        exact ⟨_, receivePayload_of_payload hf hshort hread hP,
          fun hc => payloadDecode_length_of_frameLen hc hf hP, writeBytes_storedAt s.pb 0 P, rfl⟩

/-! ### The STAR parts of `FENC` and `FDEC` -/

/-- What transmit of a STAR frame does, where the payload has been written (43_star_legacy.md
R237). -/
theorem starSend_result (hw : s.frame.len ≤ s.frame.maxpl → PbWritten s s.frame.len.toNat) :
    ∃ t, s.starSend op sub = .next t ∧ StarSendResult s t op sub := by
  unfold State.starSend StarSendResult
  by_cases hmax : s.frame.maxpl < s.frame.len
  · simp only [if_pos hmax]
    exact ⟨_, rfl, rfl⟩
  · simp only [if_neg hmax, withPb_written (hw (BitVec.not_lt.mp hmax))]
    cases starEncode Config.star sub s.frame.mode s.frame.modeparm
        (bytesAt s.pb 0 s.frame.len.toNat) with
    | none => exact ⟨_, rfl, rfl⟩
    | some F =>
      by_cases hlen : 1024 < F.length
      · simp only [gt_iff_lt, if_pos hlen]
        exact ⟨_, rfl, rfl⟩
      · simp only [gt_iff_lt, if_neg hlen]
        exact ⟨_, rfl, writeBytes_storedAt s.fb 0 F, rfl⟩

/-- What receive of a STAR frame does, where the bytes it reads have been written (R238). -/
theorem starRecv_result (hr : s.frame.rxlen.toNat ≤ 1024) (hw : StarRecvWritten s sub) :
    ∃ t, s.starRecv op rx sub = .next t ∧ StarRecvResult s t op rx sub := by
  unfold State.starRecv State.starLength StarRecvResult
  by_cases hhdr : s.frame.rxlen.toNat < Config.star.hdrLen sub
  · simp only [if_pos hhdr]
    exact ⟨_, rfl, rfl⟩
  · obtain ⟨hhw, htw⟩ := hw hr (Nat.le_of_not_lt hhdr)
    simp only [if_neg hhdr, withFb_written hhw]
    cases hL : starRxLen Config.star sub (bytesAt s.fb 0 (Config.star.hdrLen sub)) with
    | error c => exact ⟨_, rfl, rfl⟩
    | ok p =>
      obtain ⟨L, tot⟩ := p
      by_cases htot : s.frame.rxlen.toNat < tot
      · have hshort : ((s.setLen L).setLenOk 0 tot).frame.rxlen.toNat < tot := htot
        simp only [if_pos htot, if_pos hshort]
        exact ⟨_, rfl, rfl⟩
      · have hlong : ¬((s.setLen L).setLenOk 0 tot).frame.rxlen.toNat < tot := htot
        have hread : FbWritten ((s.setLen L).setLenOk 0 tot) 0 tot :=
          htw L tot hL (Nat.le_of_not_lt htot)
        simp only [if_neg htot, if_neg hlong, withFb_written hread, setLenOk_fb, setLen_fb]
        cases starReceive Config.star sub (bytesAt s.fb 0 (Config.star.hdrLen sub))
            (bytesAt s.fb 0 tot) with
        | fecFail => exact ⟨_, rfl, rfl⟩
        | badFrame => exact ⟨_, rfl, rfl⟩
        | payload P => exact ⟨_, rfl, writeBytes_storedAt s.pb 0 P, rfl⟩

/-! ### `LENC`, `PENC`, `PDEC` -/

theorem frameLen_of_none (h : modeEntry s.cfg s.frame.mode s.frame.modeparm = none) :
    s.frameLen = .error .errMode := by rw [State.frameLen, primaryLen, h]

/-- The length of a frame whose mode has an entry (R194). -/
theorem frameLen_of_some {e : ModeEntry}
    (h : modeEntry s.cfg s.frame.mode s.frame.modeparm = some e) :
    s.frameLen =
      if 1024 < 8 + s.frame.len.toNat + segCount e s.frame.len.toNat * parBytes e then
        .error .errLen
      else .ok
        { segs := segCount e s.frame.len.toNat
          tot := 8 + s.frame.len.toNat + segCount e s.frame.len.toNat * parBytes e
          entry := e } := by
  rw [State.frameLen, primaryLen, h]

theorem execLenc_of_primary (h : framingOf s.frame.framing = .primary) :
    execLenc s = s.withFrameLen 0x10 fun _ s => .next (s.complete 0x10 .ok) := by
  rw [execLenc, framingUsable_of_primary h]
  rfl

/-- Settles O32: the formats of `FRAMING`, and in each the errors before the length. -/
theorem lencComputesTheLength : Obligations.LencComputesTheLength := by
  refine ⟨rfl, fun s => ?_⟩
  change execLenc s = _
  cases hf : framingOf s.frame.framing with
  | primary =>
    rw [execLenc_of_primary hf]
    cases he : modeEntry s.cfg s.frame.mode s.frame.modeparm with
    | none => exact withFrameLen_of_error (frameLen_of_none he)
    | some e =>
      have hlen := frameLen_of_some he
      dsimp only
      split
      next hlong => exact withFrameLen_of_error (hlen.trans (if_pos hlong))
      next hfits => exact withFrameLen_of_ok (hlen.trans (if_neg hfits))
  | star sub =>
    dsimp only
    split
    next hp =>
      rw [execLenc, framingUsable_of_present hf hp]
      dsimp only
      cases starTxLen Config.star sub s.frame.mode s.frame.modeparm s.frame.len.toNat with
      | none => rfl
      | some n => exact (apply_ite Host.Outcome.next _ _ _).symm
    next hp =>
      rw [execLenc, framingUsable_of_absent hf (Bool.eq_false_iff.mpr hp)]
      rfl
  | reserved =>
    rw [execLenc, framingUsable_of_reserved hf]
    rfl

theorem execPenc_of_tooLong (h : s.frame.maxpl < s.frame.len) :
    execPenc s = .next (s.complete 0x11 .errParam) := if_pos h

theorem execPenc_of_le (h : ¬s.frame.maxpl < s.frame.len) :
    execPenc s = s.withFrameLen 0x11 fun f s => s.sendPayload 0x11 f.entry := if_neg h

/-- The bytes sent after the header fill the frame (R196). -/
theorem sentPayload_length (hc : Cfg.Valid s.cfg) (hf : s.frameLen = .ok f) :
    (s.sentPayload f.entry).length = f.tot - 8 := by
  rw [← encodedPayload_length hc hf]
  exact (Nat.add_sub_cancel_left ..).symm

/-- Settles O33: the operand check, the length, and the bytes of `payload_encode` stored at
`FB[8]`. -/
theorem pencEncodesThePayload : Obligations.PencEncodesThePayload := by
  refine ⟨rfl, fun s hwritten => ?_⟩
  change ∃ t, execPenc s = _ ∧ _
  by_cases hmax : s.frame.maxpl < s.frame.len
  · exact ⟨_, execPenc_of_tooLong hmax, (if_pos hmax).mpr rfl⟩
  · simp only [if_neg hmax, execPenc_of_le hmax]
    cases hf : s.frameLen with
    | error c => exact ⟨_, withFrameLen_of_error hf, rfl⟩
    | ok f =>
      have hw : PbWritten (s.setLenOk f.segs f.tot) s.frame.len.toNat :=
        hwritten f (BitVec.not_lt.mp hmax) hf
      exact ⟨_, (withFrameLen_of_ok hf).trans (sendPayload_of_written hw),
        writeBytes_storedAt s.fb 8 _, fun hc => sentPayload_length hc hf, rfl⟩

theorem execPdec_of_outOfRange (h : s.rxOutOfRange rx = true) :
    execPdec rx s = .next (s.complete 0x12 .errParam) := if_pos h

theorem execPdec_of_inRange (h : ¬s.rxOutOfRange rx = true) :
    execPdec rx s = s.receivePayload 0x12 rx := if_neg h

/-- The word of a command with `RX` only carries the receiver in its `RX` field (R101, R102). -/
theorem encode_of_rxField {i : Instr} {n : BitVec 3} (hrx : i.rxField = BitVec.ofNat 3 n.toNat)
    (hall : i.allField = false) : encode i = 0#20 ++ 0#1 ++ n ++ i.opcode := by
  rw [encode, hrx, hall, BitVec.ofNat_toNat, BitVec.setWidth_eq]
  rfl

/-- Settles O34: the operand checks, then the payload part of a receive command. -/
theorem pdecDecodesThePayload : Obligations.PdecDecodesThePayload := by
  refine ⟨fun _ => encode_of_rxField rfl rfl, fun s rx hwritten => ?_⟩
  by_cases hout : s.cfg.nRx ≤ rx ∨ 1024 < s.frame.rxlen.toNat
  · exact ⟨_, execPdec_of_outOfRange ((rxOutOfRange_iff rx).mpr hout), (if_pos hout).mpr rfl⟩
  · have hin : ¬s.rxOutOfRange rx = true := fun h => hout ((rxOutOfRange_iff rx).mp h)
    obtain ⟨t, ht, hresult⟩ := receivePayload_received (s := s) (op := 0x12) (rx := rx)
      fun f hf hlen => hwritten f (by omega) (by omega) hf hlen
    exact ⟨t, (execPdec_of_inRange hin).trans ht, (if_neg hout).mpr hresult⟩
/-! ### `FENC` -/

theorem execFenc_of_reserved (h : s.framingUsable = .reserved) :
    execFenc s = .next (s.complete 0x13 .errParam) := by
  rw [execFenc, h]
  rfl

theorem execFenc_of_star (h : s.framingUsable = .star sub) :
    execFenc s = s.starSend 0x13 sub := by
  rw [execFenc, h]
  rfl

theorem execFenc_of_tooLong (h : s.framingUsable = .primary) (hmax : s.frame.maxpl < s.frame.len) :
    execFenc s = .next (s.complete 0x13 .errParam) := by
  rw [execFenc, h]
  exact if_pos hmax

theorem execFenc_of_primary (h : s.framingUsable = .primary) (hmax : ¬s.frame.maxpl < s.frame.len) :
    execFenc s = s.withFrameLen 0x13 fun f s =>
      (s.storeFb 0 (headerEncode s.cfg s.frame)).sendPayload 0x13 f.entry := by
  rw [execFenc, h]
  exact if_neg hmax

/-- The state after `FENC` has sent a frame of the primary format (R199). -/
def State.frameSent (s : State) (f : FrameLen) : State :=
  (((s.setLenOk f.segs f.tot).storeFb 0 (headerEncode s.cfg s.frame)).storeFb 8
    (s.sentPayload f.entry)).complete 0x13 .ok

theorem execFenc_of_written (h : s.framingUsable = .primary) (hmax : ¬s.frame.maxpl < s.frame.len)
    (hf : s.frameLen = .ok f) (hw : PbWritten s s.frame.len.toNat) :
    execFenc s = .next (s.frameSent f) :=
  (execFenc_of_primary h hmax).trans ((withFrameLen_of_ok hf).trans
    (sendPayload_of_written (s := (s.setLenOk f.segs f.tot).storeFb 0 _) hw))

/-- `FENC` of the primary format completes with `OK` only when it has read the payload and sent the
frame (R199). -/
theorem execFenc_ok (h : s.framingUsable = .primary) (hf : s.frameLen = .ok f)
    (ht : execFenc s = .next t) (hok : t.status.code = .ok) :
    PbWritten s s.frame.len.toNat ∧ t = s.frameSent f := by
  by_cases hmax : s.frame.maxpl < s.frame.len
  · rw [execFenc_of_tooLong h hmax] at ht
    cases ht
    cases hok
  · rw [execFenc_of_primary h hmax, withFrameLen_of_ok hf] at ht
    exact sendPayload_next ht

/-- The frame that `FENC` sends stands in `FB` from byte 0 on (R90, R199). -/
theorem frameSent_storedAt (hc : Cfg.Valid s.cfg) (f : FrameLen) :
    StoredAt s.fb (s.frameSent f).fb 0 (headerEncode s.cfg s.frame ++ s.sentPayload f.entry) := by
  have hfb : (s.frameSent f).fb =
      Memory.writeBytes s.fb 0 (headerEncode s.cfg s.frame ++ s.sentPayload f.entry) := by
    rw [writeBytes_append, headerEncode_length s.cfg (hdrRs_par hc)]
    rfl
  rw [hfb]
  exact writeBytes_storedAt s.fb 0 _

/-- Settles O35: the formats of `FRAMING`, the operand check, the length, and the header with the
payload after it stored at `FB[0]`. -/
theorem fencEncodesTheFrame : Obligations.FencEncodesTheFrame := by
  refine ⟨rfl, fun s hstar hwritten => ?_⟩
  change ∃ t, execFenc s = _ ∧ _
  cases hfr : framingOf s.frame.framing with
  | reserved => exact ⟨_, execFenc_of_reserved (framingUsable_of_reserved hfr), rfl⟩
  | star sub =>
    dsimp only
    cases hp : s.cfg.starPresent with
    | false => exact ⟨_, execFenc_of_reserved (framingUsable_of_absent hfr hp), rfl⟩
    | true =>
      obtain ⟨t, ht, hresult⟩ := starSend_result (s := s) (op := 0x13) (hstar sub hfr hp)
      exact ⟨t, (execFenc_of_star (framingUsable_of_present hfr hp)).trans ht, hresult⟩
  | primary =>
    have hus := framingUsable_of_primary hfr
    dsimp only
    by_cases hmax : s.frame.maxpl < s.frame.len
    · exact ⟨_, execFenc_of_tooLong hus hmax, (if_pos hmax).mpr rfl⟩
    · simp only [if_neg hmax]
      cases hf : s.frameLen with
      | error c => exact ⟨_, (execFenc_of_primary hus hmax).trans (withFrameLen_of_error hf), rfl⟩
      | ok f =>
        have hw := hwritten f (framingOf_eq_primary.mp hfr) (BitVec.not_lt.mp hmax) hf
        exact ⟨_, execFenc_of_written hus hmax hf hw, rfl, fun hc => ⟨frameSent_storedAt hc f,
          headerEncode_length s.cfg (hdrRs_par hc) s.frame, sentPayload_length hc hf⟩⟩

/-! ### `FDEC` -/

theorem execFdec_of_outOfRange (h : s.rxOutOfRange rx = true) :
    execFdec rx s = .next (s.complete 0x14 .errParam) := if_pos h

theorem execFdec_of_reserved (hin : ¬s.rxOutOfRange rx = true) (h : s.framingUsable = .reserved) :
    execFdec rx s = .next (s.complete 0x14 .errParam) := by
  rw [execFdec, if_neg hin, h]
  rfl

theorem execFdec_of_star (hin : ¬s.rxOutOfRange rx = true) (h : s.framingUsable = .star sub) :
    execFdec rx s = s.starRecv 0x14 rx sub := by
  rw [execFdec, if_neg hin, h]
  rfl

theorem execFdec_of_short (hin : ¬s.rxOutOfRange rx = true) (h : s.framingUsable = .primary)
    (hlen : s.frame.rxlen.toNat < 8) : execFdec rx s = .next (s.complete 0x14 .errLen) := by
  rw [execFdec, if_neg hin, h]
  exact if_pos hlen

theorem execFdec_of_primary (hin : ¬s.rxOutOfRange rx = true) (h : s.framingUsable = .primary)
    (hlen : ¬s.frame.rxlen.toNat < 8) :
    execFdec rx s = s.receiveHeader 0x14 rx fun H => (s.setHeader H).receivePayload 0x14 rx := by
  rw [execFdec, if_neg hin, h]
  exact if_neg hlen

/-- Settles O37: the operand checks, the header steps that `HDEC` has, and after an accepted header
the payload part of a receive command. -/
theorem fdecDecodesTheFrame : Obligations.FdecDecodesTheFrame := by
  refine ⟨fun _ => encode_of_rxField rfl rfl, fun s rx hstar hwritten => ?_⟩
  change ∃ t, execFdec rx s = _ ∧ _
  by_cases hout : s.cfg.nRx ≤ rx ∨ 1024 < s.frame.rxlen.toNat
  · exact ⟨_, execFdec_of_outOfRange ((rxOutOfRange_iff rx).mpr hout), (if_pos hout).mpr rfl⟩
  have hin : ¬s.rxOutOfRange rx = true := fun h => hout ((rxOutOfRange_iff rx).mp h)
  simp only [if_neg hout]
  cases hfr : framingOf s.frame.framing with
  | reserved => exact ⟨_, execFdec_of_reserved hin (framingUsable_of_reserved hfr), rfl⟩
  | star sub =>
    dsimp only
    cases hp : s.cfg.starPresent with
    | false => exact ⟨_, execFdec_of_reserved hin (framingUsable_of_absent hfr hp), rfl⟩
    | true =>
      obtain ⟨t, ht, hresult⟩ := starRecv_result (s := s) (op := 0x14) (rx := rx) (by omega)
        (hstar sub hfr hp (by omega))
      exact ⟨t, (execFdec_of_star hin (framingUsable_of_present hfr hp)).trans ht, hresult⟩
  | primary =>
    have hus := framingUsable_of_primary hfr
    dsimp only
    by_cases hshort : s.frame.rxlen.toNat < 8
    · exact ⟨_, execFdec_of_short hin hus hshort, (if_pos hshort).mpr rfl⟩
    obtain ⟨hw8, hwtot⟩ :=
      hwritten (framingOf_eq_primary.mp hfr) (by omega) (by omega) (by omega)
    simp only [if_neg hshort, execFdec_of_primary hin hus hshort]
    cases hH : hdrCorrect s.cfg (bytesAt s.fb 0 8) with
    | none => exact ⟨_, receiveHeader_of_uncorrectable hw8 hH, rfl⟩
    | some H =>
      dsimp only
      by_cases hm : hcsMatches s.cfg H = true
      · have heq := not_not.mpr (hcsMatches_iff.mp hm)
        obtain ⟨t, ht, hresult⟩ := receivePayload_received (s := s.setHeader H) (op := 0x14)
          (rx := rx) fun f hf hlen a h8 ha => hwtot H f hH hm hf hlen a (Nat.zero_le a) (by omega)
        exact ⟨t, (receiveHeader_of_match hw8 hH hm).trans ht, (if_neg heq).mpr hresult⟩
      · have hne := fun heq => hm (hcsMatches_iff.mpr heq)
        exact ⟨_, receiveHeader_of_mismatch hw8 hH hm, (if_pos hne).mpr rfl⟩

end Sys2Proof.Machine

/-! ## A frame sent and received -/

namespace Sys2Proof.Machine

variable {s : State} {op : BitVec 8} {rx : Nat} {f : FrameLen}

theorem fbWritten_of_storedAt {m : Memory} {i : Nat} {bs : List Byte} (h : StoredAt m s.fb i bs) :
    FbWritten s i bs.length := by
  obtain ⟨hstored, -⟩ := h
  intro a hlo hhi
  have hread := hstored (a - i) (by omega)
  rw [Nat.add_sub_cancel' hlo] at hread
  rw [hread, ne_eq, List.getElem?_eq_none_iff]
  omega

/-- The frame is the header and the payload's bytes, `TOT` of them (R90). -/
theorem frameSent_length (hc : Cfg.Valid s.cfg) (hf : s.frameLen = .ok f) :
    (headerEncode s.cfg s.frame ++ s.sentPayload f.entry).length = f.tot := by
  rw [List.length_append, headerEncode_length s.cfg (hdrRs_par hc)]
  exact encodedPayload_length hc hf

theorem frameSent_header (hc : Cfg.Valid s.cfg) (f : FrameLen) :
    bytesAt (s.frameSent f).fb 0 8 = headerEncode s.cfg s.frame := by
  have hH := headerEncode_length s.cfg (hdrRs_par hc) s.frame
  rw [← bytesAt_take _ 0 (n := (headerEncode s.cfg s.frame ++ s.sentPayload f.entry).length)
    (by rw [List.length_append]; omega), bytesAt_of_storedAt (frameSent_storedAt hc f),
    List.take_left' hH]

theorem frameSent_payload (hc : Cfg.Valid s.cfg) (hf : s.frameLen = .ok f) :
    bytesAt (s.frameSent f).fb 8 (f.tot - 8) = s.sentPayload f.entry := by
  have hH := headerEncode_length s.cfg (hdrRs_par hc) s.frame
  have hall := bytesAt_of_storedAt (frameSent_storedAt hc f)
  rw [frameSent_length hc hf] at hall
  have hdrop := congrArg (List.drop 8) hall
  rwa [bytesAt_drop, List.drop_left' hH] at hdrop

/-- `FDEC` with an acceptable header in `FB` goes on to the payload (R200). -/
theorem execFdec_of_accepted {H : List Byte} (hin : ¬s.rxOutOfRange rx = true)
    (h : s.framingUsable = .primary) (hlen : ¬s.frame.rxlen.toNat < 8) (hw : FbWritten s 0 8)
    (hH : hdrCorrect s.cfg (bytesAt s.fb 0 8) = some H) (hm : hcsMatches s.cfg H = true) :
    execFdec rx s = (s.setHeader H).receivePayload 0x14 rx :=
  (execFdec_of_primary hin h hlen).trans (receiveHeader_of_match hw hH hm)

/-- The bytes after the header, received with at most `t` wrong symbols in each segment's word, are
decoded to the payload that was sent (R202). -/
theorem payloadDecode_of_frameSent {m : Memory} (hc : Cfg.Valid s.cfg) (hf : s.frameLen = .ok f)
    (hdiff : ∀ i < f.segs, differences (segmentWord f.entry s.frame.len.toNat (s.frameSent f).fb i)
      (segmentWord f.entry s.frame.len.toNat m i) ≤ RsCfg.cap f.entry.rs) :
    payloadDecode f.entry s.frame.len.toNat (bytesAt m 8 (f.tot - 8)) =
      some (bytesAt s.pb 0 s.frame.len.toNat) := by
  obtain ⟨he, hsegs, htot, -⟩ := primaryLen_ok.mp hf
  have hP := bytesAt_length s.pb 0 s.frame.len.toNat
  have hrest : f.tot - 8 = s.frame.len.toNat + f.segs * parBytes f.entry := by
    rw [htot, Nat.add_assoc]
    exact Nat.add_sub_cancel_left ..
  have hword : ∀ i < f.segs, ∀ m, segmentWord f.entry s.frame.len.toNat m i =
      segmentSymbols f.entry s.frame.len.toNat (bytesAt m 8 (f.tot - 8)) i := fun i hi m =>
    segmentWord_eq _ _ m (hrest ▸ Nat.add_le_add_left (Nat.mul_le_mul_right _ hi) _)
  have hdec := payloadDecode_of_sent (P := bytesAt s.pb 0 s.frame.len.toNat)
    (B := bytesAt m 8 (f.tot - 8)) (modeEntry_valid hc he)
  rw [hP, ← hsegs] at hdec
  refine hdec (by rw [bytesAt_length, hrest]) fun i hi => ?_
  have hd := hdiff i hi
  rwa [hword i hi, hword i hi, frameSent_payload hc hf] at hd

/-- The header, received with at most two wrong symbols, is corrected to the one that was sent
(R202). -/
theorem hdrCorrect_of_frameSent {m : Memory} (hc : Cfg.Valid s.cfg)
    (hdiff : differences (headerWord (s.frameSent f).fb) (headerWord m) ≤ 2) :
    hdrCorrect s.cfg (bytesAt m 0 8) = some (headerEncode s.cfg s.frame) := by
  obtain ⟨-, -, hrs, -⟩ := id hc
  refine hdrCorrect_of_sent hrs (bytesAt_length _ _ _) ?_
  rwa [← frameSent_header hc f, hdrData_append_hdrPar, hdrData_append_hdrPar]

/-- A receiver that unpacks a header has the fields it was encoded from (R92, R125). -/
theorem setHeader_headerEncode_frame (r s : State) :
    (r.setHeader (headerEncode s.cfg s.frame)).frame =
      { r.frame with
        version := s.frame.version, mode := s.frame.mode, modeparm := s.frame.modeparm
        len := s.frame.len } := unpackHeader_headerEncode s.cfg s.frame r.frame

/-- A receiver that unpacks the header sent computes the length that the sender did (R194). -/
theorem setHeader_headerEncode_frameLen {r : State} (hcfg : r.cfg = s.cfg) :
    (r.setHeader (headerEncode s.cfg s.frame)).frameLen = s.frameLen := by
  rw [State.frameLen, State.frameLen, setHeader_headerEncode_frame, setHeader_cfg, hcfg]

/-- Where a payload read from another buffer is stored, it reads as it does there. -/
theorem read_of_storedAt_bytesAt {m m' src : Memory} {n a : Nat}
    (h : StoredAt m m' 0 (bytesAt src 0 n)) (ha : a < n) (hsrc : Memory.read src a ≠ none) :
    Memory.read m' a = Memory.read src a := by
  obtain ⟨hstored, -⟩ := h
  obtain ⟨b, hb⟩ := Option.ne_none_iff_exists'.mp hsrc
  have hread := hstored a (by rwa [bytesAt_length])
  rw [Nat.zero_add] at hread
  simp [hread, bytesAt, ha, hb]

/-- Settles O39: the corrected header is the one sent, so the length is the one computed when it was
sent, and each segment is decoded to the one sent. -/
theorem frameCorrection : Obligations.FrameCorrection := by
  intro s t r rx f hc hfr hf hexec hok hcfg hrfr hrx htot hrxlen hwr hhdr hseg
  obtain ⟨hwp, rfl⟩ := execFenc_ok (framingUsable_of_zero hfr) hf hexec hok
  have h8 : 8 ≤ f.tot := by
    rw [← frameSent_length hc hf, List.length_append, headerEncode_length s.cfg (hdrRs_par hc)]
    exact Nat.le_add_right _ _
  have hin : ¬r.rxOutOfRange rx = true := fun h => by
    rcases (rxOutOfRange_iff rx).mp h with h | h <;> omega
  have hframe := setHeader_headerEncode_frame r s
  have hheader : execFdec rx r =
      (r.setHeader (headerEncode s.cfg s.frame)).receivePayload 0x14 rx := by
    refine execFdec_of_accepted hin (framingUsable_of_zero hrfr) (by omega)
      (fun a hlo hhi => hwr a hlo (by omega)) ?_ ?_ <;> rw [hcfg]
    · exact hdrCorrect_of_frameSent hc hhdr
    · exact hcsMatches_headerEncode s.cfg s.frame
  have hpayload := receivePayload_of_payload (op := 0x14) (rx := rx)
    ((setHeader_headerEncode_frameLen hcfg).trans hf) (Nat.not_lt.mpr htot)
    (fun a hlo hhi => hwr a (Nat.zero_le a) (by omega))
    (by rw [hframe]; exact payloadDecode_of_frameSent hc hf hseg)
  refine ⟨_, hheader.trans hpayload, rfl, ?_⟩
  simp only [complete_frame, storePb_frame, complete_counters, storePb_counters, setLenOk_counters,
    setHeader_counters, setLenOk_frame_version, setLenOk_frame_mode, setLenOk_frame_modeparm,
    setLenOk_frame_len, hframe, true_and]
  exact fun a ha => read_of_storedAt_bytesAt (writeBytes_storedAt r.pb 0 _) ha (hwp a ha)

/-- Settles O38: the frame that `FENC` leaves is received with no symbol wrong. -/
theorem frameRoundTrip : Obligations.FrameRoundTrip := by
  intro s rx f version mode modeparm len m hc hfr hrx hmax hf hw
  have hexec : execFenc s = .next (s.frameSent f) :=
    execFenc_of_written (framingUsable_of_zero hfr) (BitVec.not_lt.mpr hmax) hf hw
  obtain ⟨-, -, -, hfit⟩ := primaryLen_ok.mp hf
  have htotlen : (s.frameSent f).frame.totlen.toNat = f.tot :=
    (BitVec.toNat_ofNat _ _).trans (Nat.mod_eq_of_lt (Nat.lt_of_le_of_lt hfit (by decide)))
  have hwr := fbWritten_of_storedAt (frameSent_storedAt hc f)
  rw [frameSent_length hc hf] at hwr
  obtain ⟨u, hu⟩ := frameCorrection s (s.frameSent f)
    { s.frameSent f with
      frame :=
        { (s.frameSent f).frame with
          rxlen := (s.frameSent f).frame.totlen, version := version, mode := mode
          modeparm := modeparm, len := len }
      pb := m } rx f hc hfr hf hexec rfl rfl hfr hrx htotlen.ge (htotlen.trans_le hfit) hwr
    (by simp [differences_self]) (fun i _ => by simp [differences_self])
  exact ⟨_, u, hexec, rfl, hu⟩

end Sys2Proof.Machine

/-! ## The STAR commands -/

namespace Sys2Proof.Machine

variable {s t : State} {op : BitVec 8} {rx L tot : Nat} {c : ResultCode} {sub : StarSub}

/-- `FRAMING` 1 and 2 are the STAR formats (43_star_legacy.md R230). -/
theorem framingOf_eq_star {g : BitVec 2} (h : g = 1 ∨ g = 2) : ∃ sub, framingOf g = .star sub := by
  rcases h with rfl | rfl
  · exact ⟨.a, rfl⟩
  · exact ⟨.b, rfl⟩

/-! ### The length of a received frame (R236) -/

theorem starFecOn_iff {sc : StarCfg} {H : List Byte} :
    starFecOn sc H = true ↔ H.getD 2 0 &&& sc.fecMask = 0 := beq_iff_eq

/-- The frame is as long as its assembled bytes, and the FEC where the header asks for it. -/
theorem starFrameLen_eq (sc : StarCfg) (sub : StarSub) (H : List Byte) (L : Nat) :
    starFrameLen sc sub H L = (sc.assemble sub H (List.replicate L 0) 0).length +
      if H.getD 2 0 &&& sc.fecMask = 0 then sc.fecLen else 0 := by
  simp only [starFrameLen, starFecOn_iff]

theorem starRxLen_of_none {sc : StarCfg} {H : List Byte} (h : sc.lenOfHdr sub H = none) :
    starRxLen sc sub H = .error .errMode := by
  rw [starRxLen, h]

theorem starRxLen_of_some {sc : StarCfg} {H : List Byte} (h : sc.lenOfHdr sub H = some L) :
    starRxLen sc sub H =
      if 255 < L then .error .errMode
      else if 1024 < starFrameLen sc sub H L then .error .errLen
      else .ok (L, starFrameLen sc sub H L) := by
  rw [starRxLen, h]

section Length

variable {k : List Byte → Nat → State → Result}

theorem starLength_of_short (h : s.frame.rxlen.toNat < Config.star.hdrLen sub) :
    s.starLength op sub k = .next (s.setLenErr.complete op .errLen) := if_pos h

theorem starLength_of_error (hlen : ¬s.frame.rxlen.toNat < Config.star.hdrLen sub)
    (hw : FbWritten s 0 (Config.star.hdrLen sub))
    (h : starRxLen Config.star sub (bytesAt s.fb 0 (Config.star.hdrLen sub)) = .error c) :
    s.starLength op sub k = .next (s.setLenErr.complete op c) := by
  rw [State.starLength, if_neg hlen, withFb_written hw, h]

theorem starLength_of_ok (hlen : ¬s.frame.rxlen.toNat < Config.star.hdrLen sub)
    (hw : FbWritten s 0 (Config.star.hdrLen sub))
    (h : starRxLen Config.star sub (bytesAt s.fb 0 (Config.star.hdrLen sub)) = .ok (L, tot)) :
    s.starLength op sub k =
      k (bytesAt s.fb 0 (Config.star.hdrLen sub)) tot ((s.setLen L).setLenOk 0 tot) := by
  rw [State.starLength, if_neg hlen, withFb_written hw, h]

end Length

/-! ### `SLEN` -/

theorem execSlen_of_absent (hp : s.cfg.starPresent = false) :
    execSlen s = .next (s.complete 0x20 .errIllcmd) := if_neg (Bool.eq_false_iff.mp hp)

theorem execSlen_of_notStar (hp : s.cfg.starPresent = true)
    (h : framingOf s.frame.framing = .primary ∨ framingOf s.frame.framing = .reserved) :
    execSlen s = .next (s.setLenErr.complete 0x20 .errParam) := by
  rw [execSlen, if_pos hp]
  rcases h with h | h <;> rw [h] <;> rfl

theorem execSlen_of_tooLong (hp : s.cfg.starPresent = true)
    (hf : framingOf s.frame.framing = .star sub) (hlong : 1024 < s.frame.rxlen.toNat) :
    execSlen s = .next (s.setLenErr.complete 0x20 .errParam) := by
  rw [execSlen, if_pos hp, hf]
  exact if_pos hlong

theorem execSlen_of_star (hp : s.cfg.starPresent = true)
    (hf : framingOf s.frame.framing = .star sub) (hlong : ¬1024 < s.frame.rxlen.toNat) :
    execSlen s = s.starLength 0x20 sub fun _ _ s => .next (s.complete 0x20 .ok) := by
  rw [execSlen, if_pos hp, hf]
  exact if_neg hlong

/-- Settles O41: the operand checks, then the errors of a header that gives no length, one over 255,
or a frame that does not fit in `FB`, before the length. -/
theorem slenComputesTheLength : Obligations.SlenComputesTheLength := by
  refine ⟨rfl, fun s hwritten => ?_⟩
  change execSlen s = _
  cases hp : s.cfg.starPresent with
  | false => exact execSlen_of_absent hp
  | true =>
    simp only [Bool.true_eq_false, if_false]
    cases hf : framingOf s.frame.framing with
    | primary => exact execSlen_of_notStar hp (.inl hf)
    | reserved => exact execSlen_of_notStar hp (.inr hf)
    | star sub =>
      by_cases hlong : 1024 < s.frame.rxlen.toNat
      · simp only [if_pos hlong]
        exact execSlen_of_tooLong hp hf hlong
      rw [execSlen_of_star hp hf hlong]
      by_cases hshort : s.frame.rxlen.toNat < Config.star.hdrLen sub
      · simp only [if_neg hlong, if_pos hshort]
        exact starLength_of_short hshort
      have hw := hwritten sub hf hp (by omega) (by omega)
      simp only [if_neg hlong, if_neg hshort, ← starFrameLen_eq]
      cases hL : Config.star.lenOfHdr sub (bytesAt s.fb 0 (Config.star.hdrLen sub)) with
      | none => exact starLength_of_error hshort hw (starRxLen_of_none hL)
      | some L =>
        have hres := starRxLen_of_some hL
        dsimp only
        split
        next hbig => exact starLength_of_error hshort hw (hres.trans (if_pos hbig))
        next hbig =>
          rw [if_neg hbig] at hres
          split
          next htot => exact starLength_of_error hshort hw (hres.trans (if_pos htot))
          next htot => exact starLength_of_ok hshort hw (hres.trans (if_neg htot))

/-! ### `SENC` -/

theorem execSenc_of_absent (hp : s.cfg.starPresent = false) :
    execSenc s = .next (s.complete 0x21 .errIllcmd) := if_neg (Bool.eq_false_iff.mp hp)

theorem execSenc_of_notStar (hp : s.cfg.starPresent = true)
    (h : framingOf s.frame.framing = .primary ∨ framingOf s.frame.framing = .reserved) :
    execSenc s = .next (s.complete 0x21 .errParam) := by
  rw [execSenc, if_pos hp]
  rcases h with h | h <;> rw [h] <;> rfl

theorem execSenc_of_star (hp : s.cfg.starPresent = true)
    (hf : framingOf s.frame.framing = .star sub) : execSenc s = s.starSend 0x21 sub := by
  rw [execSenc, if_pos hp, hf]
  rfl

/-- Settles O42: the formats of `FRAMING`, and in a STAR format the transmit steps that `FENC`
has. -/
theorem sencEncodesTheFrame : Obligations.SencEncodesTheFrame := by
  refine ⟨rfl, fun s hwritten => ?_⟩
  change ∃ t, execSenc s = _ ∧ _
  cases hp : s.cfg.starPresent with
  | false => exact ⟨_, execSenc_of_absent hp, rfl⟩
  | true =>
    simp only [Bool.true_eq_false, if_false]
    cases hf : framingOf s.frame.framing with
    | primary => exact ⟨_, execSenc_of_notStar hp (.inl hf), rfl⟩
    | reserved => exact ⟨_, execSenc_of_notStar hp (.inr hf), rfl⟩
    | star sub =>
      rw [execSenc_of_star hp hf]
      exact starSend_result (hwritten sub hf hp)

/-! ### `SDEC` -/

theorem execSdec_of_absent (hp : s.cfg.starPresent = false) :
    execSdec rx s = .next (s.complete 0x22 .errIllcmd) := if_neg (Bool.eq_false_iff.mp hp)

theorem execSdec_of_notStar (hp : s.cfg.starPresent = true)
    (h : framingOf s.frame.framing = .primary ∨ framingOf s.frame.framing = .reserved) :
    execSdec rx s = .next (s.complete 0x22 .errParam) := by
  rw [execSdec, if_pos hp]
  rcases h with h | h <;> rw [h] <;> rfl

theorem execSdec_of_outOfRange (hp : s.cfg.starPresent = true)
    (hf : framingOf s.frame.framing = .star sub) (hout : s.rxOutOfRange rx = true) :
    execSdec rx s = .next (s.complete 0x22 .errParam) := by
  rw [execSdec, if_pos hp, hf]
  exact if_pos hout

theorem execSdec_of_star (hp : s.cfg.starPresent = true)
    (hf : framingOf s.frame.framing = .star sub) (hin : ¬s.rxOutOfRange rx = true) :
    execSdec rx s = s.starRecv 0x22 rx sub := by
  rw [execSdec, if_pos hp, hf]
  exact if_neg hin

/-- Settles O43: the formats of `FRAMING`, the operand checks, and the receive steps that `FDEC`
has. -/
theorem sdecDecodesTheFrame : Obligations.SdecDecodesTheFrame := by
  refine ⟨fun _ => encode_of_rxField rfl rfl, fun s rx hwritten => ?_⟩
  change ∃ t, execSdec rx s = _ ∧ _
  cases hp : s.cfg.starPresent with
  | false => exact ⟨_, execSdec_of_absent hp, rfl⟩
  | true =>
    simp only [Bool.true_eq_false, if_false]
    cases hf : framingOf s.frame.framing with
    | primary => exact ⟨_, execSdec_of_notStar hp (.inl hf), rfl⟩
    | reserved => exact ⟨_, execSdec_of_notStar hp (.inr hf), rfl⟩
    | star sub =>
      dsimp only
      by_cases hout : s.cfg.nRx ≤ rx ∨ 1024 < s.frame.rxlen.toNat
      · exact ⟨_, execSdec_of_outOfRange hp hf ((rxOutOfRange_iff rx).mpr hout),
          (if_pos hout).mpr rfl⟩
      · have hin : ¬s.rxOutOfRange rx = true := fun h => hout ((rxOutOfRange_iff rx).mp h)
        simp only [if_neg hout, execSdec_of_star hp hf hin]
        exact starRecv_result (by omega) (hwritten sub hf hp (by omega))

/-! ### A STAR frame sent and received -/

/-- `SENC` and `FENC` complete with `OK` only when they have read the payload and stored the frame
(R237). -/
theorem starSend_ok (h : s.starSend op sub = .next t) (hok : t.status.code = .ok) :
    ∃ F, starEncode Config.star sub s.frame.mode s.frame.modeparm
        (bytesAt s.pb 0 s.frame.len.toNat) = some F ∧ F.length ≤ 1024 ∧
      t = ((s.storeFb 0 F).setLenOk 0 F.length).complete op .ok := by
  rcases starSend_next h with ⟨-, rfl⟩ | ⟨-, -, ⟨-, rfl⟩ | ⟨F, hF, ⟨-, rfl⟩ | ⟨hlen, rfl⟩⟩⟩
  · cases hok
  · cases hok
  · cases hok
  · exact ⟨F, hF, hlen, rfl⟩

/-- A frame that the delegate decodes has a length that `SLEN` answers, and all its bytes are there
(R236, R238). -/
theorem starRxLen_of_starDecodes {m : Memory} {n : Nat} {P : List Byte} (hn : n ≤ 1024)
    (h : StarDecodes Config.star sub (bytesAt m 0 n) P) :
    Config.star.hdrLen sub ≤ n ∧ ∃ L tot, tot ≤ n ∧
      starRxLen Config.star sub (bytesAt m 0 (Config.star.hdrLen sub)) = .ok (L, tot) ∧
      starReceive Config.star sub (bytesAt m 0 (Config.star.hdrLen sub)) (bytesAt m 0 tot) =
        .payload P := by
  obtain ⟨L, hhdr, hL, hbig, htot, hP⟩ := h
  rw [bytesAt_length] at hhdr htot
  rw [bytesAt_take m 0 hhdr] at hL htot hP
  rw [bytesAt_take m 0 htot] at hP
  refine ⟨hhdr, L, _, htot, ?_, hP⟩
  rw [starRxLen_of_some hL, if_neg (by omega), if_neg (by omega)]

/-- Receive of a frame that the delegate decodes stores the payload and completes with `OK`
(R238). -/
theorem starRecv_of_starDecodes {P : List Byte} (hr : s.frame.rxlen.toNat ≤ 1024)
    (hw : FbWritten s 0 s.frame.rxlen.toNat)
    (h : StarDecodes Config.star sub (bytesAt s.fb 0 s.frame.rxlen.toNat) P) :
    ∃ L tot, s.starRecv op rx sub =
      .next (((((s.setLen L).setLenOk 0 tot).storePb P).setLen P.length).complete op .ok) := by
  obtain ⟨hhdr, L, tot, htot, hres, hP⟩ := starRxLen_of_starDecodes hr h
  have hwhdr : FbWritten s 0 (Config.star.hdrLen sub) := fun a hlo hhi => hw a hlo (by omega)
  have hwtot : FbWritten ((s.setLen L).setLenOk 0 tot) 0 tot := fun a hlo hhi =>
    hw a hlo (by omega)
  have hfits : ¬((s.setLen L).setLenOk 0 tot).frame.rxlen.toNat < tot := Nat.not_lt.mpr htot
  refine ⟨L, tot, (starLength_of_ok (Nat.not_lt.mpr hhdr) hwhdr hres).trans ?_⟩
  rw [if_neg hfits, withFb_written hwtot, setLenOk_fb, setLen_fb, hP]

/-- `SDEC` of the bytes of a frame that the delegate decodes, with `RXLEN` the frame's length, gives
its payload and charges no counter (R238, R239). -/
theorem execSdec_of_sent {m : Memory} {F P : List Byte} (hp : s.cfg.starPresent = true)
    (hf : framingOf s.frame.framing = .star sub) (hrx : rx < s.cfg.nRx)
    (hstored : StoredAt m s.fb 0 F) (hlen : s.frame.rxlen.toNat = F.length) (hfit : F.length ≤ 1024)
    (hdec : StarDecodes Config.star sub F P) :
    ∃ u, execSdec rx s = .next u ∧ u.status.code = .ok ∧
      u.frame.len = BitVec.ofNat 8 P.length ∧ u.counters = s.counters ∧
      StoredAt s.pb u.pb 0 P := by
  have hin : ¬s.rxOutOfRange rx = true := fun h => by
    rcases (rxOutOfRange_iff rx).mp h with h | h <;> omega
  obtain ⟨L, tot, hu⟩ := starRecv_of_starDecodes (op := 0x22) (rx := rx) (hlen.trans_le hfit)
    (by rw [hlen]; exact fbWritten_of_storedAt hstored)
    (by rw [hlen, bytesAt_of_storedAt hstored]; exact hdec)
  exact ⟨_, (execSdec_of_star hp hf hin).trans hu, rfl, rfl, rfl, writeBytes_storedAt s.pb 0 P⟩

/-- The state in which the output of `SENC` is received: `RXLEN` is its length, and `PB` holds
anything (R239). -/
def State.looped (t : State) (m : Memory) : State :=
  { t with frame := { t.frame with rxlen := t.frame.totlen }, pb := m }

/-- Settles O44: `SENC` leaves the delegate's frame in `FB`, and the delegate's round trip says what
`SDEC` makes of those bytes. -/
theorem starRoundTrip : Obligations.StarRoundTrip := by
  intro s rx m hp hfr hrx _ hw
  obtain ⟨sub, hf⟩ := framingOf_eq_star hfr
  obtain ⟨t, ht, -⟩ := starSend_result (s := s) (op := 0x21) (sub := sub) fun _ => hw
  refine ⟨t, (execSenc_of_star hp hf).trans ht, fun hok => ?_⟩
  obtain ⟨F, hF, hfit, rfl⟩ := starSend_ok ht hok
  have htotlen : (BitVec.ofNat 11 F.length).toNat = F.length :=
    (BitVec.toNat_ofNat _ _).trans (Nat.mod_eq_of_lt (by omega))
  have hdec : StarDecodes Config.star sub F (bytesAt s.pb 0 s.frame.len.toNat) :=
    Config.star_lawful.roundTrip sub _ _ _ F
      (by rw [bytesAt_length]; exact Nat.le_of_lt_succ s.frame.len.isLt) hF hfit
  obtain ⟨u, hu, hcode, hlen, hcounters, hpb⟩ := execSdec_of_sent
    (s := (((s.storeFb 0 F).setLenOk 0 F.length).complete 0x21 .ok).looped m) hp hf hrx
    (writeBytes_storedAt s.fb 0 F) htotlen hfit hdec
  refine ⟨u, hu, hcode, ?_, hcounters, fun a ha => read_of_storedAt_bytesAt hpb ha (hw a ha)⟩
  rw [hlen, bytesAt_length, BitVec.ofNat_toNat, BitVec.setWidth_eq]

/-! ### Without the delegate -/

theorem execLenc_of_reserved (h : s.framingUsable = .reserved) :
    execLenc s = .next (s.setLenErr.complete 0x10 .errParam) := by
  rw [execLenc, h]
  rfl

/-- Settles O40: the STAR commands are illegal, and a STAR format is a reserved one. -/
theorem starAbsent : Obligations.StarAbsent := by
  refine ⟨rfl, rfl, fun s rx hp => ⟨execSlen_of_absent hp, execSenc_of_absent hp,
    execSdec_of_absent hp, fun hfr => ?_⟩⟩
  obtain ⟨sub, hf⟩ := framingOf_eq_star hfr
  have hus := framingUsable_of_absent hf hp
  refine ⟨execLenc_of_reserved hus, execFenc_of_reserved hus, ?_⟩
  by_cases hout : s.rxOutOfRange rx = true
  · exact execFdec_of_outOfRange hout
  · exact execFdec_of_reserved hout hus

end Sys2Proof.Machine

/-! ## The thermal commands -/

namespace Sys2Proof.Machine

/-! ### Saturation and rounding (00_scope.md R16) -/

theorem fitsS32_satS32 (x : Int) : FitsS32 (satS32 x) := by
  simp only [FitsS32, satS32]
  omega

theorem fitsS32_toInt (w : Word) : FitsS32 w.toInt := ⟨w.le_toInt, w.toInt_lt⟩

theorem fitsS32_max {x y : Int} (hx : FitsS32 x) (hy : FitsS32 y) : FitsS32 (max x y) :=
  ⟨hx.1.trans (le_max_left x y), max_lt hx.2 hy.2⟩

theorem toInt_ofInt_of_fitsS32 {x : Int} (h : FitsS32 x) : (BitVec.ofInt 32 x).toInt = x :=
  BitVec.toInt_ofInt_eq_self (by decide) h.1 h.2

/-- A word holds every value `sat_u32` answers. -/
theorem toNat_ofNat_satU32 (n : Nat) :
    (BitVec.ofNat 32 (satU32 n)).toNat = min (2 ^ 32 - 1) n := by
  have hlt : satU32 n < 2 ^ 32 := (Nat.min_le_left _ _).trans_lt (by decide)
  rw [BitVec.toNat_ofNat, Nat.mod_eq_of_lt hlt, satU32]

/-- `ceildiv` in the integers. For `d = 0` the two subtractions can differ, and division by 0 makes
0 of both. -/
theorem ceilDiv_cast (x d : Nat) : (ceilDiv x d : Int) = ((x : Int) + d - 1) / d := by
  rcases Nat.eq_zero_or_pos d with rfl | hd
  · simp [ceilDiv]
  · rw [ceilDiv, Int.natCast_ediv, Nat.cast_sub (by omega), Nat.cast_add, Nat.cast_one]

/-! ### `TTXD` and `TCLR` -/

theorem pendAdd_toNat (pending amount : Word) :
    (pendAdd pending amount).toNat = min (2 ^ 32 - 1) (pending.toNat + amount.toNat) :=
  toNat_ofNat_satU32 _

/-- Settles O45: both sums of the next state are `pendAdd`, which saturates. -/
theorem ttxdAccumulates : Obligations.TtxdAccumulates :=
  ⟨rfl, fun _ => ⟨_, rfl, pendAdd_toNat _ _, pendAdd_toNat _ _, rfl⟩⟩

/-- Settles O48: the arm of `TCLR` is this update. -/
theorem tclrClearsTheFlag : Obligations.TclrClearsTheFlag := ⟨rfl, fun _ => rfl⟩

/-! ### `TTICK` -/

/-- The floor keeps a temperature in 32 signed bits, so `T_VT` holds it exactly (R250, R256). -/
theorem tickVt_toInt (c : ThermCfg) (t : ThermalRegs) :
    (tickVt c t).toInt =
      max (satS32 (satS32 (t.vt.toInt + rise c t.pendB t.pendMs) -
          decay c (satS32 (t.vt.toInt + rise c t.pendB t.pendMs)))) t.sensed.toInt :=
  toInt_ofInt_of_fitsS32 (fitsS32_max (fitsS32_satS32 _) (fitsS32_toInt _))

/-- The flag after its evaluation: over the limit, or held above the release (R257). -/
theorem evalEngaged_engaged_iff (s : State) :
    s.evalEngaged.status.engaged = true ↔ s.thermal.protEn = true ∧
      (s.thermal.vt.toInt > s.cfg.therm.tLimit ∨
        s.status.engaged = true ∧ s.thermal.vt.toInt > s.cfg.therm.tRelease) := by
  rw [evalEngaged_status_engaged, State.engageOver, State.engageHold, Bool.and_assoc,
    ← Bool.and_or_distrib_left]
  simp only [Bool.and_eq_true, Bool.or_eq_true, decide_eq_true_eq]

/-- The count moves on the rising edge only (R257). -/
theorem evalEngaged_engcnt_eq (s : State) :
    s.evalEngaged.thermal.engcnt =
      if s.evalEngaged.status.engaged = true ∧ s.status.engaged = false then
        satInc s.cfg.cntW s.thermal.engcnt
      else s.thermal.engcnt := by
  rw [evalEngaged_thermal_engcnt, evalEngaged_status_engaged]
  exact if_congr (by rw [Bool.and_eq_true, Bool.not_eq_true']) rfl rfl

/-- `DIRTY` is set on either edge and never cleared (R257). -/
theorem evalEngaged_dirty_iff (s : State) :
    s.evalEngaged.status.dirty = true ↔
      s.status.dirty = true ∨ s.evalEngaged.status.engaged ≠ s.status.engaged := by
  rw [evalEngaged_status_dirty, evalEngaged_status_engaged, Bool.or_eq_true, bne_iff_ne]

/-- The state after the first four steps of a tick, before the flag is evaluated (R254, R256). -/
def State.integrated (s : State) : State :=
  { s with
    thermal := { s.thermal with vt := tickVt s.cfg.therm s.thermal, pendB := 0, pendMs := 0 } }

theorem exec_ttick (s : State) :
    exec .ttick s = .next (s.integrated.evalEngaged.complete 0x31 .ok) := rfl

/-- Settles O46: the temperature is `tickVt`, and the flag, its count and `DIRTY` are what
`eval_engaged` makes of the integrated state. -/
theorem ttickIntegratesAndEvaluates : Obligations.TtickIntegratesAndEvaluates :=
  ⟨rfl, fun s => ⟨_, exec_ttick s, tickVt_toInt s.cfg.therm s.thermal,
    evalEngaged_engaged_iff s.integrated, evalEngaged_engcnt_eq s.integrated,
    evalEngaged_dirty_iff s.integrated, rfl⟩⟩

/-! ### `TBKOF` -/

/-- The delay in the integers: each excess is nonnegative, so the naturals hold it (R258). -/
theorem delayOf_cast (c : ThermCfg) (tp : Int) :
    (delayOf c tp : Int) =
      (max 0 (tp - c.thFast) + c.dFast - 1) / c.dFast +
        (max 0 (min tp c.thFast - c.thSlow) + c.dSlow - 1) / c.dSlow := by
  simp only [delayOf, Nat.cast_add, ceilDiv_cast, Int.toNat_of_nonneg (le_max_left 0 _)]

theorem backoffOf_toNat (s : State) :
    ((backoffOf s).toNat : Int) =
      if s.thermal.protEn = true then
        min (2 ^ 32 - 1)
          (if s.status.engaged = true then
            max (delayOf s.cfg.therm (projected s.cfg.therm s.thermal) : Int) s.cfg.therm.minBackoff
           else delayOf s.cfg.therm (projected s.cfg.therm s.thermal))
      else 0 := by
  rw [backoffOf]
  by_cases hprot : s.thermal.protEn = true
  · rw [if_pos hprot, if_pos hprot, toNat_ofNat_satU32, Nat.cast_min, apply_ite Nat.cast,
      Nat.cast_max]
    rfl
  · rw [if_neg hprot, if_neg hprot]
    rfl

/-- Settles O47: `T_BACKOFF` is `backoffOf`, whose delay is the sum over the two regimes. -/
theorem tbkofComputesTheDelay : Obligations.TbkofComputesTheDelay := by
  refine ⟨rfl, fun s => ⟨_, rfl, ?_, rfl⟩⟩
  have hbackoff := backoffOf_toNat s
  rw [delayOf_cast] at hbackoff
  exact hbackoff

end Sys2Proof.Machine

/-! ## The system commands -/

namespace Sys2Proof.Machine

variable {s : State} {rx : Nat}

/-! ### `NOP` -/

/-- Settles O49: the arm of `NOP` is the one completion. -/
theorem nopOnlyCompletes : Obligations.NopOnlyCompletes := ⟨rfl, fun _ => rfl⟩

/-! ### `CLRCNT` -/

/-- The word of `CLRCNT` carries the receiver in `RX` and the choice of all in `ALL` (R101, R103). -/
theorem encode_clrcnt (n : BitVec 3) (all : Bool) :
    encode (.clrcnt n.toNat all) = 0#20 ++ BitVec.ofBool all ++ n ++ 0x3E#8 := by
  change 0#20 ++ BitVec.ofBool all ++ BitVec.ofNat 3 n.toNat ++ 0x3E#8 = _
  rw [BitVec.ofNat_toNat, BitVec.setWidth_eq]

/-- `CLRCNT all` of the counters alone. -/
def State.clearAllCounters (s : State) : State :=
  { s with counters := s.counters.map fun _ => countersZero }

/-- `CLRCNT rx` of the counters alone. -/
def State.clearCounters (s : State) (rx : Nat) : State :=
  { s with counters := s.counters.set rx countersZero }

theorem execClrcnt_all (s : State) (rx : Nat) :
    execClrcnt rx true s = .next (s.clearAllCounters.complete 0x3E .ok) := rfl

theorem execClrcnt_of_absent (h : s.cfg.nRx ≤ rx) :
    execClrcnt rx false s = .next (s.complete 0x3E .errParam) := if_pos h

theorem execClrcnt_of_present (h : ¬s.cfg.nRx ≤ rx) :
    execClrcnt rx false s = .next ((s.clearCounters rx).complete 0x3E .ok) := if_neg h

/-- Every triple of the list is zero, and a receiver past its end counts 0 anyway. -/
theorem clearAllCounters_counter (s : State) (k : CntKind) (r : Nat) :
    s.clearAllCounters.counter k r = 0 := by
  have hzero : s.clearAllCounters.rxCounters r = countersZero := by
    rw [State.rxCounters, State.clearAllCounters, List.getD_eq_getElem?_getD, List.getElem?_map]
    cases s.counters[r]? <;> rfl
  rw [State.counter, hzero, get_countersZero]

/-- The triple of `rx` is zero, and where the list holds none it reads as zero too. -/
theorem clearCounters_counter (s : State) (rx : Nat) (k : CntKind) (r : Nat) :
    (s.clearCounters rx).counter k r = if r = rx then 0 else s.counter k r := by
  have hset : (s.clearCounters rx).rxCounters r =
      if r = rx then countersZero else s.rxCounters r := by
    simp only [State.rxCounters, State.clearCounters, List.getD_eq_getElem?_getD, List.getElem?_set]
    by_cases hr : r = rx
    · rw [if_pos hr.symm, if_pos hr]
      split <;> rfl
    · rw [if_neg (Ne.symm hr), if_neg hr]
  rw [State.counter, hset, apply_ite (RxCounters.get · k), get_countersZero]
  rfl

/-- Settles O50: the three arms of `CLRCNT`, each with what it leaves in every counter. -/
theorem clrcntClearsCounters : Obligations.ClrcntClearsCounters := by
  refine ⟨encode_clrcnt, fun s rx all => ?_⟩
  change ∃ t, execClrcnt rx all s = _ ∧ _
  cases all with
  | true =>
    refine ⟨_, execClrcnt_all s rx, ?_⟩
    rw [if_neg (by simp)]
    refine ⟨fun k r => ?_, List.length_map _, rfl⟩
    rw [if_pos (.inl rfl)]
    exact clearAllCounters_counter s k r
  | false =>
    by_cases hrx : s.cfg.nRx ≤ rx
    · refine ⟨_, execClrcnt_of_absent hrx, ?_⟩
      rw [if_pos ⟨rfl, hrx⟩]
    · refine ⟨_, execClrcnt_of_present hrx, ?_⟩
      rw [if_neg fun h => hrx h.2]
      refine ⟨fun k r => ?_, List.length_set, rfl⟩
      simp only [Bool.false_eq_true, false_or]
      exact clearCounters_counter s rx k r

/-! ### `SRST` -/

/-- A completion changes `STATUS` and no other register (R302). -/
theorem readReg_complete (s : State) (op : BitVec 8) (c : ResultCode) {r : Reg} (hr : r ≠ .status) :
    (s.complete op c).readReg r = s.readReg r := by
  cases r with
  | status => exact absurd rfl hr
  | _ => rfl

/-- What the model's own fields hold does not show in a register (R340). -/
theorem readReg_resetBlock (s : State) (r : Reg) :
    s.resetBlock.readReg r = (State.resetWith s.cfg).readReg r := by cases r <;> rfl

/-- With no source enabled the line is low (R310). -/
theorem irq_of_irqen_zero (h : s.irqen = 0) : s.irq = false := by simp [State.irq, h]

/-- `STATUS` holds nothing of the configuration, so the reference machine shows its value (R22). -/
theorem statusWord_resetBlock_complete (s : State) :
    (s.resetBlock.complete 0x3F .ok).statusWord = 0x003F0002 :=
  calc (s.resetBlock.complete 0x3F .ok).statusWord
    _ = (State.reset.complete 0x3F .ok).statusWord := rfl
    _ = 0x003F0002 := by decide

/-- Settles O51: the state after reset, then the completion, whose code and opcode make `STATUS`. -/
theorem srstResets : Obligations.SrstResets :=
  ⟨rfl, fun s => ⟨s.resetBlock.complete 0x3F .ok, rfl, statusWord_resetBlock_complete s,
    irq_of_irqen_zero rfl,
    fun r hr => (readReg_complete s.resetBlock 0x3F .ok hr).trans (readReg_resetBlock s r),
    read_nil, read_nil, rfl⟩⟩

end Sys2Proof.Machine

/-! ## Illegal words, failing commands and the interrupt line -/

namespace Sys2Proof.Machine

variable {s t : State} {i : Instr} {w : Word} {c : Cfg} {e : DecodeError}

/-! ### The buffers -/

/-- A command that fails, or that is not listed as writing `FB`, leaves it (R304, R68). -/
theorem ExecNext.fb_eq (h : ExecNext s i t)
    (hi : t.status.code ≠ .ok ∨ Instr.writesFb i = false) : t.fb = s.fb := by
  cases h with
  | completes _ h | storesPb h | counts _ h => exact h.fb_eq
  | storesFb _ hw => exact (hi.elim (· rfl) (Bool.eq_false_iff.mp · hw)).elim
  | srst => exact (hi.elim (· rfl) (Bool.eq_false_iff.mp · rfl)).elim
  | heats | ttick | tclr | clrcnt => rfl

/-- A command that fails, or that is not listed as writing `PB`, leaves it (R304, R68). -/
theorem ExecNext.pb_eq (h : ExecNext s i t)
    (hi : t.status.code ≠ .ok ∨ Instr.writesPb i = false) : t.pb = s.pb := by
  cases h with
  | completes _ h | storesFb h | counts _ h => exact h.pb_eq
  | storesPb _ hw => exact (hi.elim (· rfl) (Bool.eq_false_iff.mp · hw)).elim
  | srst => exact (hi.elim (· rfl) (Bool.eq_false_iff.mp · rfl)).elim
  | heats | ttick | tclr | clrcnt => rfl

/-- Settles O52: of the forms a command's next state can have, only a store and `SRST` touch a
buffer, and they complete with `OK` and stand in the lists. -/
theorem buffersChangeOnlyAsListed : Obligations.BuffersChangeOnlyAsListed := by
  intro i s t hex
  have hnext := exec_next hex
  exact ⟨fun hi a => by rw [hnext.fb_eq hi], fun hi a => by rw [hnext.pb_eq hi]⟩

/-! ### The interrupt line -/

/-- Settles O18: offset 4 is `STATUS`, and the model's write of it is the acknowledgement. -/
theorem interruptLine : Obligations.InterruptLine := by
  intro s
  refine ⟨by simp only [State.irq, Bool.or_eq_true, Bool.and_eq_true, or_assoc], fun w hp =>
    ⟨s.acknowledge w, access_write_of_regAt hp (r := .status) w (by decide) rfl rfl,
      acknowledge_irqen s w, acknowledge_status_done s w, acknowledge_status_ovr s w,
      acknowledge_status_dirty s w⟩⟩

/-! ### The fields of a command, as R104 speaks of them -/

theorem opcode_mem_opcodeMap (i : Instr) : i.opcode ∈ opcodeMap := by
  cases i <;> simp [Instr.opcode, opcodeMap]

/-- Only the opcodes listed carry a receiver index (R102). -/
theorem rxField_eq_zero (h : i.opcode ∉ rxOpcodes) : i.rxField = 0 := by
  cases i with
  | hdec | pdec | fdec | sdec | clrcnt => exact absurd h (by simp [Instr.opcode, rxOpcodes])
  | _ => rfl

/-- Only `CLRCNT` carries the `ALL` bit (R102). -/
theorem allField_eq_false (h : i.opcode ≠ 0x3E) : i.allField = false := by
  cases i with
  | clrcnt => exact absurd rfl h
  | _ => rfl

/-- The cases of R104 on the fields that the decoder reads (R101). -/
theorem illegalWord_iff : IllegalWord c w ↔
    wordOp w ∉ opcodeMap ∨ wordReserved w ≠ 0 ∨ (wordOp w ∉ rxOpcodes ∧ wordRx w ≠ 0) ∨
      (wordOp w ≠ 0x3E ∧ wordAll w = true) ∨
      (wordOp w ∈ [0x20#8, 0x21#8, 0x22#8] ∧ c.starPresent = false) := Iff.rfl

/-! ### A word the decoder refuses is illegal -/

/-- A nonzero operand field of a command without operands is one of R104's cases. -/
theorem illegalWord_of_decodePlain (hop : (wordOp w).toNat = i.opcode.toNat)
    (h : decodePlain w i = .error e) (hi : i.opcode ∉ rxOpcodes) : IllegalWord c w := by
  rw [← BitVec.eq_of_toNat_eq hop] at hi
  by_cases hrx : wordRx w = 0
  · cases hall : wordAll w
    · cases h.symm.trans (decodePlain_ok_iff.mpr ⟨hrx, hall, rfl⟩)
    · have hne : wordOp w ≠ 0x3E := fun h3E => hi (h3E ▸ by decide)
      exact illegalWord_iff.mpr (.inr (.inr (.inr (.inl ⟨hne, hall⟩))))
  · exact illegalWord_iff.mpr (.inr (.inr (.inl ⟨hi, hrx⟩)))

/-- A nonzero `ALL` bit of a command with `RX` only is one of R104's cases. -/
theorem illegalWord_of_decodeRx {f : Nat → Instr} {op : BitVec 8}
    (hop : (wordOp w).toNat = op.toNat) (h : decodeRx w f = .error e) (hne : op ≠ 0x3E) :
    IllegalWord c w := by
  rw [← BitVec.eq_of_toNat_eq hop] at hne
  cases hall : wordAll w
  · cases h.symm.trans (decodeRx_ok_iff.mpr ⟨hall, rfl⟩)
  · exact illegalWord_iff.mpr (.inr (.inr (.inr (.inl ⟨hne, hall⟩))))

/-- What the opcode map does not read as a command is illegal in every configuration (R104). -/
theorem illegalWord_of_decodeOp (h : decodeOp w = .error e) : IllegalWord c w := by
  unfold decodeOp at h
  split at h
  -- `HDEC`, `PDEC`, `FDEC`, `SDEC`, then `CLRCNT`, then no row of the map; the rest are plain.
  case h_9 hop => exact illegalWord_of_decodeRx (op := 0x08) hop h (by decide)
  case h_12 hop => exact illegalWord_of_decodeRx (op := 0x12) hop h (by decide)
  case h_14 hop => exact illegalWord_of_decodeRx (op := 0x14) hop h (by decide)
  case h_17 hop => exact illegalWord_of_decodeRx (op := 0x22) hop h (by decide)
  case h_22 => cases h
  case h_24 =>
    refine illegalWord_iff.mpr (.inl fun hmem => ?_)
    have hnat := List.mem_map_of_mem (f := BitVec.toNat) hmem
    simp_all [opcodeMap]
  all_goals exact illegalWord_of_decodePlain ‹_› h (by decide)

/-- What the decoder refuses is illegal in every configuration (R104). -/
theorem illegalWord_of_decode (h : decode w = .error e) : IllegalWord c w := by
  by_cases hres : wordReserved w = 0
  · exact illegalWord_of_decodeOp ((if_neg (not_not_intro hres)).symm.trans h)
  · exact illegalWord_iff.mpr (.inr (.inl hres))

/-! ### A word the decoder accepts is illegal only for want of the STAR delegate -/

theorem starAbsent_of_illegalWord (hd : decode w = .ok i) (h : IllegalWord c w) :
    i.opcode ∈ [0x20#8, 0x21#8, 0x22#8] ∧ c.starPresent = false := by
  obtain ⟨hres, hfields⟩ := decode_ok_iff.mp hd
  obtain ⟨-, hop, hrx, hall⟩ := decodeOp_ok_iff.mp hfields
  rw [← hop]
  rcases illegalWord_iff.mp h with hmap | hnonzero | ⟨hnone, hnonzero⟩ | ⟨hnone, hset⟩ | hstar
  · exact absurd (hop ▸ opcode_mem_opcodeMap i) hmap
  · exact absurd hres hnonzero
  · exact absurd (hrx.trans (rxField_eq_zero (hop ▸ hnone))) hnonzero
  · cases hset.symm.trans (hall.trans (allField_eq_false (hop ▸ hnone)))
  · exact hstar

/-- Without the delegate its three commands complete as illegal words do (R230). -/
theorem exec_of_starAbsent (hi : i.opcode ∈ [0x20#8, 0x21#8, 0x22#8])
    (hp : s.cfg.starPresent = false) : exec i s = .next (s.complete i.opcode .errIllcmd) := by
  cases i with
  | slen => exact execSlen_of_absent hp
  | senc => exact execSenc_of_absent hp
  | sdec => exact execSdec_of_absent hp
  | _ => exact absurd hi (by simp [Instr.opcode])

/-! ### Running a word -/

theorem runWord_of_decode_ok (h : decode w = .ok i) : s.runWord w = exec i s := by
  simp only [State.runWord, h]

theorem runWord_of_decode_error (h : decode w = .error e) :
    s.runWord w = .next (s.complete (wordOp w) .errIllcmd) := by
  simp only [State.runWord, h]

/-- An illegal word completes with `ERR_ILLCMD`, whether the decoder refuses it or the command it
names wants the delegate (R303). -/
theorem runWord_of_illegalWord (h : IllegalWord s.cfg w) :
    s.runWord w = .next (s.complete (wordOp w) .errIllcmd) := by
  cases hd : decode w with
  | error e => exact runWord_of_decode_error hd
  | ok i =>
    obtain ⟨hi, hp⟩ := starAbsent_of_illegalWord hd h
    have hop : wordOp w = i.opcode := (decodeOp_ok_iff.mp (decode_ok_iff.mp hd).2).op
    rw [runWord_of_decode_ok hd, exec_of_starAbsent hi hp, hop]

/-- Settles O2: the decoder refuses only illegal words, and what it accepts is the encoding of the
command run. -/
theorem illegalWordOnlyCompletes : Obligations.IllegalWordOnlyCompletes := by
  refine fun s w => ⟨runWord_of_illegalWord, fun hlegal => ?_⟩
  cases hd : decode w with
  | error e => exact absurd (illegalWord_of_decode hd) hlegal
  | ok i =>
    obtain ⟨hwf, henc⟩ := (decodeIsInverseOfEncode i w).mp hd
    exact ⟨i, hwf, henc, runWord_of_decode_ok hd⟩

end Sys2Proof.Machine

/-! ## Reset and hazards -/

namespace Sys2Proof.Machine

variable {s t u : State} {i : Instr}

/-! ### Every command word completes -/

/-- Every command ends in `complete` with its own opcode (R302). -/
theorem ExecNext.exists_complete (h : ExecNext s i t) : ∃ u c, t = State.complete u i.opcode c := by
  cases h with
  | completes | storesFb | storesPb | counts | heats | ttick | tclr | clrcnt | srst =>
    exact ⟨_, _, rfl⟩

/-- With every byte of both buffers written, nothing stops a command. -/
theorem StopsUnwritten.exists_next {r : Result} (h : StopsUnwritten s.fb s.pb r)
    (hfb : FbWritten s 0 fbSize) (hpb : PbWritten s pbSize) : ∃ t, r = .next t := by
  cases r with
  | next t => exact ⟨t, rfl⟩
  | fault f =>
    cases f with
    | unwrittenFb n =>
      obtain ⟨hn, hnone⟩ := h
      exact absurd hnone (hfb n (Nat.zero_le n) (by rwa [Nat.zero_add]))
    | unwrittenPb n =>
      obtain ⟨hn, hnone⟩ := h
      exact absurd hnone (hpb n hn)
  | refused _ => exact h.elim

/-- With the buffers written, a word, legal or not, ends in `complete` with its low byte (R302,
R303). -/
theorem runWord_exists_complete (hfb : FbWritten s 0 fbSize) (hpb : PbWritten s pbSize) (w : Word) :
    ∃ u c, s.runWord w = .next (State.complete u (wordOp w) c) := by
  cases hd : decode w with
  | error e => exact ⟨s, _, runWord_of_decode_error hd⟩
  | ok i =>
    have hop : wordOp w = i.opcode := (decodeOp_ok_iff.mp (decode_ok_iff.mp hd).2).op
    obtain ⟨t, hex⟩ := (exec_stopsUnwritten i s).exists_next hfb hpb
    obtain ⟨u, c, rfl⟩ := (exec_next hex).exists_complete
    exact ⟨u, c, by rw [runWord_of_decode_ok hd, hex, hop]⟩

theorem engineSlot_busy {w : Word} (hp : s.phase = .busy w) : s.engineSlot = s.runWord w := by
  simp only [State.engineSlot, hp]

/-- Settles O7: the slot runs the word, and the word ends in a completion. -/
theorem everyCommandWordCompletes : Obligations.EveryCommandWordCompletes := by
  intro s w hp hfb hpb
  obtain ⟨u, c, hrun⟩ := runWord_exists_complete hfb hpb w
  exact ⟨_, (engineSlot_busy hp).trans hrun, rfl, rfl, rfl⟩

/-! ### What commands leave to the host -/

theorem LenStep.irqen_eq (h : LenStep s u) : u.irqen = s.irqen := by rw [h.frame_eq]
theorem LenStep.ovr_eq (h : LenStep s u) : u.status.ovr = s.status.ovr := by rw [h.frame_eq]

/-- From `s` to `t`, the registers that only the host writes are kept (R354). -/
def HostRegsKept (s t : State) : Prop :=
  t.frame.framing = s.frame.framing ∧ t.frame.maxpl = s.frame.maxpl ∧
    t.frame.rxlen = s.frame.rxlen ∧ t.irqen = s.irqen ∧
    t.thermal.protEn = s.thermal.protEn ∧ t.thermal.sensed = s.thermal.sensed ∧
    t.thermal.txb = s.thermal.txb ∧ t.thermal.txms = s.thermal.txms ∧
    t.status.ovr = s.status.ovr

theorem LenStep.hostRegsKept (h : LenStep s u) : HostRegsKept s u :=
  ⟨h.framing_eq, h.maxpl_eq, h.rxlen_eq, h.irqen_eq, by rw [h.thermal_eq], by rw [h.thermal_eq],
    by rw [h.thermal_eq], by rw [h.thermal_eq], h.ovr_eq⟩

theorem ExecNext.hostRegsKept (h : ExecNext s i t) (hi : i ≠ .srst) : HostRegsKept s t := by
  cases h with
  | completes _ h | storesFb h | storesPb h | counts _ h => exact h.hostRegsKept
  | heats _ hth | ttick hth =>
    exact ⟨rfl, rfl, rfl, rfl, congrArg (·.protEn) hth, congrArg (·.sensed) hth,
      congrArg (·.txb) hth, congrArg (·.txms) hth, rfl⟩
  | tclr | clrcnt => exact ⟨rfl, rfl, rfl, rfl, rfl, rfl, rfl, rfl, rfl⟩
  | srst => exact absurd rfl hi

/-- A command outside the thermal unit leaves its registers and its flag (R36, R37). -/
theorem ExecNext.thermal_eq (h : ExecNext s i t) (hi : Instr.thermalOrReset i = false) :
    t.thermal = s.thermal ∧ t.status.engaged = s.status.engaged := by
  cases h with
  | completes _ h | storesFb h | storesPb h | counts _ h => exact ⟨h.thermal_eq, h.engaged_eq⟩
  | clrcnt => exact ⟨rfl, rfl⟩
  | heats hth => exact absurd hth (Bool.eq_false_iff.mp hi)
  | ttick | tclr | srst => cases hi

/-- Settles O55: by the forms a command's next state can have; the thermal ones keep what the host
writes, and only `SRST` does not. -/
theorem commandsLeaveTheHostsRegisters : Obligations.CommandsLeaveTheHostsRegisters := by
  intro i s t hex
  exact ⟨(exec_next hex).hostRegsKept, (exec_next hex).thermal_eq⟩

/-! ### Accesses while a command runs -/

/-- `STATUS` stands at one offset of the window (R61). -/
theorem regionOf_eq_status_iff {offset : BitVec 12} : regionOf offset = .reg 4 ↔ offset = 4 := by
  constructor
  · intro h
    rcases Nat.lt_or_ge offset.toNat 0x100 with hlt | hge
    · rw [regionOf_reg hlt] at h
      exact BitVec.eq_of_toNat_eq (Region.reg.inj h)
    · rw [regionOf, if_neg (Nat.not_lt.mpr hge)] at h
      split_ifs at h
  · rintro rfl
    rfl

/-- A busy read of an accepted shape (R352). -/
theorem access_read_busy {w : Word} (hp : s.phase = .busy w) {width : Width} {offset : BitVec 12}
    (hg : shapeAccepted width (regionOf offset) = true) :
    s.access (.read width offset) = .next (s.readBusy (regionOf offset)) := by
  simp only [State.access, State.hostRead, hg, hp, if_true]

theorem readBusy_status (s : State) : s.readBusy (.reg 4) = s.answer s.statusWord := if_pos rfl

theorem readBusy_other {g : Region} (hg : g ≠ .reg 4) :
    s.readBusy g =
      { s.answer (Config.busyRead s.freeReads) with freeReads := s.freeReads + 1 } := if_neg hg

/-- Settles O6: a busy write is discarded whatever its shape and offset, and a busy read of an
accepted shape asks only whether it is of `STATUS`. -/
theorem busyAccesses : Obligations.BusyAccesses := by
  intro s w hp
  refine ⟨fun width offset v => ?_, ?_, ?_, fun width offset hne hg => ?_⟩
  · rw [State.access, hostWrite_busy hp]
    rfl
  · rw [access_read_busy hp rfl, regionOf_eq_status_iff.mpr rfl, readBusy_status]
    rfl
  · have hbusy : s.busy = true := by simp only [State.busy, hp]
    exact (statusWord_flag s (by decide)).trans hbusy
  · rw [access_read_busy hp hg, readBusy_other (mt regionOf_eq_status_iff.mp hne)]
    rfl

/-! ### The reset input -/

/-- A reset at the head of the input list is taken off it and applied, in any phase (R340). -/
theorem step_reset {rest : List Input} (h : s.inputs = .reset :: rest) :
    step s = .next (State.resetBlock { s with inputs := rest }) := by
  rw [step_eq, h]
  rfl

/-- `STATUS` holds nothing of the configuration, so the reference machine shows its value (R22). -/
theorem statusWord_resetBlock (s : State) : s.resetBlock.statusWord = 0 :=
  calc s.resetBlock.statusWord
    _ = State.reset.statusWord := rfl
    _ = 0 := by decide

/-- Settles O9: the step is the block's reset, whose fields the laws of `resetBlock` give. -/
theorem resetInputResets : Obligations.ResetInputResets := by
  intro s rest h
  exact ⟨_, step_reset h, resetBlock_phase _, statusWord_resetBlock _, irq_of_irqen_zero rfl,
    resetBlock_irqen _, resetBlock_frame _, resetBlock_thermal _, resetBlock_counters _, read_nil,
    read_nil⟩

end Sys2Proof.Machine
